-- ==== Sys2Proof/Word.lean ====
section
/-! DEFINITION. The word types of the codec core: symbols, bits, counters, registers (00_scope.md R10-R16). -/

namespace Sys2Proof

/-- A byte of a stream or of a header (R19). -/
abbrev Byte := BitVec 8

/-- A symbol: one byte value of the input alphabet, 0..255 (R10). -/
abbrev Symbol := BitVec 8

/-- One bit of a code or of a payload: `false` is 0 (the zero-branch), `true` is 1 (the one-branch) (R19). -/
abbrev Bit := Bool

/-- A 32-bit host register (R16). -/
abbrev Word32 := BitVec 32

/-- A frequency counter, `CNT_W = 32` bits (R11). -/
abbrev Count := BitVec 32

/-- A tree weight, `WT_W = CNT_W + 8 = 40` bits (R12). -/
abbrev Weight := BitVec 40

/-- The 64-bit RESULT register and the item counter NCOUNT (R16, R62). -/
abbrev Count64 := BitVec 64

/-- A fault code or a fault detail, 8 bits each (R34, R320). -/
abbrev FaultByte := BitVec 8

end Sys2Proof
end

