-- ==== Sys2Proof/Config.lean ====
section
/-! DEFINITION. What an implementation fixes (00_scope.md section 4, 42_tree_builder.md R195) and the free
values: what a read answers while busy (70_reset_and_hazards.md R372) and what a source that never ends gives (R378). -/

namespace Sys2Proof

/-- `NODE_CAP = 2 * MAX_LEAVES - 1`: the most nodes a tree store holds (R13). -/
def Config.nodeCap : Nat := 511

/-- `MAX_CODE_LEN`: no code is longer (R14). -/
def Config.maxCodeLen : Nat := 255

/-- `HDR_MAX`: no header the block writes or accepts is longer, in bytes (R15). -/
def Config.hdrMax : Nat := 1022

/-- `LEAF_ORDER`: the order in which TREE_BUILD enqueues the leaves, ascending symbol value (R195). -/
def Config.leafOrder : List Symbol := (List.range 256).map (BitVec.ofNat 8)

/-- FREE VALUE. What the n-th register read made while `BUSY = 1` answers: "any 32-bit value" (R372, U1).
It has no body, so no proof can learn a value of it; STATUS bit 0 of such a read is forced to 1 where it is used
(assumption log entry 4). -/
opaque Config.busyRead : Nat → Word32

/-- FREE VALUES. The byte that the `stream`-th byte source without an end gives at a position (R99, R378, U12).
It has no body, so a statement about such a source holds for every one (assumption log entry 16). -/
opaque Config.endlessByte : (stream position : Nat) → Byte

/-- FREE VALUES. The bit that the `stream`-th bit source without an end gives at a position (R99, R378, U12); it is a bit
and so never END (assumption log entry 16). -/
opaque Config.endlessBit : (stream position : Nat) → Bit

end Sys2Proof
end

