-- ==== Sys2Proof/Syntax.lean ====
section
/-! DEFINITION. What can be written: the 18 commands (30_encoding.md R112), the code tree that a header spells
(R130), the host's register accesses (20_memory.md R81) and the host's program statements (R120, R121). -/

namespace Sys2Proof

/-- The commands of the opcode map (R112), one constructor per row.
Every command word carries a symbol operand `SYM = w[15:8]` (R110): FREQ_WRITE, FREQ_READ and MAP_READ use it, every
other command ignores it, but it is part of the word and is latched in CUR_SYM at acceptance (R150), so every
constructor keeps it. -/
inductive Instr where
  | nop (sym : Symbol)          -- 0x00 (R155)
  | softReset (sym : Symbol)    -- 0x01 (R156)
  | clearFault (sym : Symbol)   -- 0x02 (R157)
  | newSession (sym : Symbol)   -- 0x03 (R158)
  | freqClear (sym : Symbol)    -- 0x10 (R170)
  | freqCount (sym : Symbol)    -- 0x11 (R171)
  | freqWrite (sym : Symbol)    -- 0x12 (R172)
  | freqRead (sym : Symbol)     -- 0x13 (R173)
  | inRewind (sym : Symbol)     -- 0x14 (R174)
  | treeBuild (sym : Symbol)    -- 0x20 (R200)
  | hdrFlatten (sym : Symbol)   -- 0x30 (R222)
  | hdrRecreate (sym : Symbol)  -- 0x31 (R235)
  | mapBuild (sym : Symbol)     -- 0x40 (R252)
  | mapRead (sym : Symbol)      -- 0x41 (R256)
  | encode (sym : Symbol)       -- 0x50 (R272)
  | decode (sym : Symbol)       -- 0x51 (R280)
  | compress (sym : Symbol)     -- 0x60 (R300)
  | decompress (sym : Symbol)   -- 0x61 (R302)
deriving DecidableEq, Repr

/-- A code tree: a leaf carries a symbol, an internal node has a zero-branch and a one-branch, both present (R20, R44). -/
inductive Tree where
  | leaf (sym : Symbol)
  | node (zero one : Tree)
deriving DecidableEq, Repr

/-- How a source's listed contents end: with EOF or END, or never, going on with one of the streams that have no end (R99,
R378). -/
inductive Ending where
  | ends
  | endless (stream : Nat)
deriving DecidableEq, Repr

/-- What a byte source presents from its first byte on (R90, R98). -/
structure Contents where
  bytes  : List Byte
  ending : Ending
deriving DecidableEq, Repr

/-- What the host attaches to the block's ports between commands (R363, NEW_SESSION's R158). -/
inductive Attachment where
  /-- A byte source with its contents, its cursor, and the contents it will present after each later rewind
  (empty: the same contents again, as R375 asks). -/
  | byteSource (contents : Contents) (cursor : Nat) (later : List Contents)
  /-- An empty byte sink. -/
  | byteSink
  /-- An unused bit sink: no header, no bits. -/
  | bitSink
  /-- A bit source with its header text, its 2-bit answers (R134) and how they end. -/
  | bitSource (header : List Byte) (bits : List (BitVec 2)) (ending : Ending)
deriving DecidableEq, Repr

/-- One act of the host (R24): a register access of R81 with its width in bits and its byte offset, one POLL (R121),
a hardware reset (R360), or the attachment of a port (R363). -/
inductive HostMove where
  | read (width : Nat) (off : BitVec 8)
  | write (width : Nat) (off : BitVec 8) (value : Word32)
  | poll
  | hardReset
  | attach (port : Attachment)
deriving DecidableEq, Repr

/-- The register names a host statement may use (R120, R32). -/
inductive RegName where
  | cmd | status | arg | resultLo | resultHi | faultOp | treeInfo
  | code (k : Fin 8)
deriving DecidableEq, Repr

/-- The statements of a host program (R120) and the pseudo-statements (R121). -/
inductive Stmt where
  | wr (reg : RegName) (value : Word32)
  | rd (reg : RegName)
  | cmd (i : Instr)
  | poll
  | run (i : Instr)
  | loadFreq (sym : Symbol) (n : Count)
  | rdResult
deriving DecidableEq, Repr

end Sys2Proof
end

