-- ==== Sys2Proof/WellFormed.lean ====
section
/-! DEFINITION. Which written terms the spec gives a meaning. A command has no ill-formed term: its one operand has
exactly the 8 bits of its field (R110). A host register access has a shape: whole 32-bit words at word offsets
(20_memory.md R81, R83). -/

namespace Sys2Proof

/-- An access is 32 bits wide (R81, R83). -/
def widthOk (width : Nat) : Bool := width == 32

/-- An access is at a word offset, `off[1:0] = 0` (R81, R83). -/
def offsetOk (off : BitVec 8) : Bool := off.extractLsb' 0 2 == 0#2

/-- The shape of a host move: register accesses are whole aligned words; the other moves have no shape to break. -/
def HostMove.wellFormed : HostMove → Bool
  | .read width off => widthOk width && offsetOk off
  | .write width off _ => widthOk width && offsetOk off
  | .poll => true
  | .hardReset => true
  | .attach _ => true

end Sys2Proof
end

