-- ==== Sys2Proof/Decode.lean ====
section
/-! DEFINITION. The command word (30_encoding.md R110-R116): decoder, encoder, and each command's word written out. -/

namespace Sys2Proof

/-- `OP = w[7:0]` (R110). -/
def wordOp (w : Word32) : BitVec 8 := w.extractLsb' 0 8

/-- `SYM = w[15:8]` (R110). -/
def wordSym (w : Word32) : Symbol := w.extractLsb' 8 8

/-- `RSV = w[31:16]` (R110). -/
def wordRsv (w : Word32) : BitVec 16 := w.extractLsb' 16 16

/-- What a command word reads as: a command, or an illegal word with the detail its fault carries. -/
inductive Decoded where
  | instr (i : Instr)
  /-- `RSV ≠ 0`: ILLEGAL_CMD detail 1 (R111). -/
  | reservedBits
  /-- `OP` outside the opcode map: ILLEGAL_CMD detail 2 (R113). -/
  | reservedOpcode
deriving DecidableEq, Repr

/-- The opcode map of R112; an opcode it does not list is reserved (R113). -/
def opcodeMap (op : BitVec 8) (sym : Symbol) : Option Instr :=
  match op.toNat with
  | 0x00 => some (.nop sym)
  | 0x01 => some (.softReset sym)
  | 0x02 => some (.clearFault sym)
  | 0x03 => some (.newSession sym)
  | 0x10 => some (.freqClear sym)
  | 0x11 => some (.freqCount sym)
  | 0x12 => some (.freqWrite sym)
  | 0x13 => some (.freqRead sym)
  | 0x14 => some (.inRewind sym)
  | 0x20 => some (.treeBuild sym)
  | 0x30 => some (.hdrFlatten sym)
  | 0x31 => some (.hdrRecreate sym)
  | 0x40 => some (.mapBuild sym)
  | 0x41 => some (.mapRead sym)
  | 0x50 => some (.encode sym)
  | 0x51 => some (.decode sym)
  | 0x60 => some (.compress sym)
  | 0x61 => some (.decompress sym)
  | _ => none

/-- Decode a command word; the check of RSV precedes the check of OP (R111). -/
def decode (w : Word32) : Decoded :=
  if wordRsv w ≠ 0#16 then .reservedBits
  else
    match opcodeMap (wordOp w) (wordSym w) with
    | some i => .instr i
    | none => .reservedOpcode

/-- The word of the one command format: RSV 0, then SYM, then OP, bit 31 first (R110). -/
def commandWord (op : BitVec 8) (sym : Symbol) : Word32 := (0#16 ++ sym ++ op).cast (by decide)

/-- A command's opcode (R112). -/
def Instr.opcode : Instr → BitVec 8
  | .nop _ => 0x00#8
  | .softReset _ => 0x01#8
  | .clearFault _ => 0x02#8
  | .newSession _ => 0x03#8
  | .freqClear _ => 0x10#8
  | .freqCount _ => 0x11#8
  | .freqWrite _ => 0x12#8
  | .freqRead _ => 0x13#8
  | .inRewind _ => 0x14#8
  | .treeBuild _ => 0x20#8
  | .hdrFlatten _ => 0x30#8
  | .hdrRecreate _ => 0x31#8
  | .mapBuild _ => 0x40#8
  | .mapRead _ => 0x41#8
  | .encode _ => 0x50#8
  | .decode _ => 0x51#8
  | .compress _ => 0x60#8
  | .decompress _ => 0x61#8

/-- A command's symbol operand (R110, R115). -/
def Instr.sym : Instr → Symbol
  | .nop s => s
  | .softReset s => s
  | .clearFault s => s
  | .newSession s => s
  | .freqClear s => s
  | .freqCount s => s
  | .freqWrite s => s
  | .freqRead s => s
  | .inRewind s => s
  | .treeBuild s => s
  | .hdrFlatten s => s
  | .hdrRecreate s => s
  | .mapBuild s => s
  | .mapRead s => s
  | .encode s => s
  | .decode s => s
  | .compress s => s
  | .decompress s => s

/-- Encode a command (R110). -/
def encode (i : Instr) : Word32 := commandWord i.opcode i.sym

/-- The instruction the decoder reads from an instruction whose bits are `w`, as spec/opcode_table.json numbers
them; every bit at or above `nbits` is 0. A command is one 32-bit word with no byte order (R82, R116). -/
def decodeTableWord (nbits w : Nat) : Option Instr :=
  match decode (BitVec.ofNat 32 (w % 2 ^ nbits)) with
  | .instr i => some i
  | .reservedBits => none
  | .reservedOpcode => none

/-! Each command's word, written out from R110 and R112 (the examples of R122 among them). -/

theorem decode_word_nop : decode 0b0000000000000000_00000000_00000000#32 = .instr (.nop 0) := by decide
theorem decode_word_softReset : decode 0b0000000000000000_00000000_00000001#32 = .instr (.softReset 0) := by decide
theorem decode_word_clearFault : decode 0b0000000000000000_00000000_00000010#32 = .instr (.clearFault 0) := by decide
theorem decode_word_newSession : decode 0b0000000000000000_00000000_00000011#32 = .instr (.newSession 0) := by decide
theorem decode_word_freqClear : decode 0b0000000000000000_00000000_00010000#32 = .instr (.freqClear 0) := by decide
theorem decode_word_freqCount : decode 0b0000000000000000_00000000_00010001#32 = .instr (.freqCount 0) := by decide
theorem decode_word_freqWrite : decode 0b0000000000000000_11111111_00010010#32 = .instr (.freqWrite 0xFF) := by decide
theorem decode_word_freqRead : decode 0b0000000000000000_01100001_00010011#32 = .instr (.freqRead 0x61) := by decide
theorem decode_word_inRewind : decode 0b0000000000000000_00000000_00010100#32 = .instr (.inRewind 0) := by decide
theorem decode_word_treeBuild : decode 0b0000000000000000_00000000_00100000#32 = .instr (.treeBuild 0) := by decide
theorem decode_word_hdrFlatten : decode 0b0000000000000000_00000000_00110000#32 = .instr (.hdrFlatten 0) := by decide
theorem decode_word_hdrRecreate : decode 0b0000000000000000_00000000_00110001#32 = .instr (.hdrRecreate 0) := by decide
theorem decode_word_mapBuild : decode 0b0000000000000000_00000000_01000000#32 = .instr (.mapBuild 0) := by decide
theorem decode_word_mapRead : decode 0b0000000000000000_00101000_01000001#32 = .instr (.mapRead 0x28) := by decide
theorem decode_word_encode : decode 0b0000000000000000_00000000_01010000#32 = .instr (.encode 0) := by decide
theorem decode_word_decode : decode 0b0000000000000000_00000000_01010001#32 = .instr (.decode 0) := by decide
theorem decode_word_compress : decode 0b0000000000000000_00000000_01100000#32 = .instr (.compress 0) := by decide
theorem decode_word_decompress : decode 0b0000000000000000_00000000_01100001#32 = .instr (.decompress 0) := by decide

end Sys2Proof
end

