-- ==== Sys2Proof/Machine/State.lean ====
section
/-! DEFINITION. The state of the machine as plain data: the block's registers and stores (10_state.md), the sequencer's
position inside a running command (R31, R152), the environment's ports (R66, R98) and the host's moves still to come
(R24). -/

namespace Sys2Proof.Machine

/-! ## Code tree -/

/-- `TSTATE`'s four values (R44). -/
inductive TState where
  | none | empty | leaf | full
deriving DecidableEq, Repr

/-- `TREE` with `TSTATE` (R44), stored once: the four constructors are TSTATE's four values, and the tree of LEAF and of
FULL stands inside, so that no tree can disagree with its TSTATE. -/
inductive TreeStore where
  /-- NONE: no tree exists. -/
  | none
  /-- EMPTY: the empty tree. -/
  | empty
  /-- LEAF: the degenerate tree, `TREE = some(Leaf(sym))`. -/
  | leaf (sym : Symbol)
  /-- FULL: `TREE = some(Node(zero, one))`. -/
  | full (zero one : Tree)
deriving DecidableEq, Repr

/-! ## Priority forest and map -/

/-- An entry of the priority forest: a tree, its weight, its sequence number (R60). -/
structure Entry where
  tree   : Tree
  weight : Weight
  seq    : BitVec 9
deriving DecidableEq, Repr

/-- `PQ` and `SEQ` (R60, R61). -/
structure Forest where
  /-- `PQ`: a set of entries, listed in no meaningful order. -/
  entries : List Entry
  /-- `SEQ`: the sequence number the next entry gets. -/
  next : BitVec 9
deriving DecidableEq, Repr

/-- `PQ` empty, `SEQ` 0. -/
def Forest.empty : Forest := { entries := [], next := 0#9 }

/-- An entry of MAP: `(present, code)` (R50). -/
structure MapEntry where
  present : Bool
  code    : List Bit
deriving DecidableEq, Repr

/-- `(0, [])` (R50, R70). -/
def MapEntry.absent : MapEntry := { present := false, code := [] }

/-! ## Faults of the block -/

/-- The block's fault names (R320). A fault of the block is a state the machine goes on from, not a stop. -/
inductive FaultName where
  | illegalCmd | noTree | noMap | seqErr | freqOvf | hdrMalformed | bitsTruncated | absentBranch | noCode | dupSymbol
  | ioError | cntOvf
deriving DecidableEq, Repr

/-! ## Ports -/

/-- A port's answer: its value, or IOERR (R97). -/
inductive Answer (α : Type) where
  | value (a : α)
  | ioerr
deriving DecidableEq, Repr

/-- What ByteRead answers when it does not fail (R90). -/
inductive ByteOrEof where
  | byte (b : Byte)
  | eof
deriving DecidableEq, Repr

/-- The environment's draw for one port request (R97, R99): served, failed with IOERR, or never answered. -/
inductive Draw where
  | served
  /-- IOERR; `carriedOut` says whether the environment did what was asked before it failed (R331 fixes only that the
  block's state does not change). -/
  | failed (carriedOut : Bool)
  /-- The request is never answered (R99). -/
  | unanswered
deriving DecidableEq, Repr

/-- The four ports (R66) in the form of R98, with the draws that decide each request's fate (R17, R97). -/
structure Env where
  /-- `IN`: the byte source's contents, as far as they are listed. -/
  inBytes : List Byte
  /-- Whether EOF follows them, or bytes without end (R99, R378). -/
  inEnding : Ending
  /-- `ic`: its cursor. -/
  inCursor : Nat
  /-- What the source presents after each later rewind, first rewind first; empty: the same contents (R375, U11). -/
  inLater : List Contents
  /-- `OUT`: the bytes written to the byte sink. -/
  outBytes : List Byte
  /-- `HOUT`: the header the bit sink holds. -/
  hdrOut : Option (List Byte)
  /-- `BOUT`: the bits written to the bit sink. -/
  bitsOut : List Bit
  /-- `HIN`: the bit source's header text. -/
  hdrIn : List Byte
  /-- `BIN`: the bit source's 2-bit answers (R134), as far as they are listed. -/
  bitsIn : List (BitVec 2)
  /-- Whether END follows them, or bits without end (R99, R378). -/
  bitsEnding : Ending
  /-- `bc`: its cursor. -/
  bitCursor : Nat
  /-- The draws for the requests to come, one each; when none is left, requests are served (R98). -/
  draws : List Draw
deriving DecidableEq, Repr

/-! ## Sequencer -/

/-- The bodies a command runs (R150): one per primitive command. -/
inductive Body where
  | nop | softReset | clearFault | session
  | freqClear | freqCount | freqWrite | freqRead | inRewind
  | treeBuild | hdrFlatten | hdrRecreate | mapBuild | mapRead
  | encode | decode
deriving DecidableEq, Repr

/-- The places in the bodies' pseudocode where a port request stands, each with what the body still needs there. -/
inductive Wait where
  /-- FREQ_COUNT's ByteRead (R171). -/
  | countByte
  /-- IN_REWIND's ByteRewind (R174). -/
  | rewind
  /-- HDR_FLATTEN's HdrWrite of a header (R222). -/
  | hdrWrite (header : List Byte)
  /-- HDR_RECREATE's HdrRead (R235). -/
  | hdrRead
  /-- ENCODE's ByteRead (R272). -/
  | encByte
  /-- ENCODE's BitWrite of one bit, with the bits of the code after it (R272). -/
  | encBit (bit : Bit) (rest : List Bit)
  /-- DECODE's ByteWrite of a single-leaf tree's symbol (R280). -/
  | leafWrite (sym : Symbol)
  /-- DECODE's BitRead (R280). -/
  | decBit
  /-- DECODE's ByteWrite of a decoded symbol (R280). -/
  | symWrite (sym : Symbol)
deriving DecidableEq, Repr

/-- A wait's answer, in hand and not yet acted on. -/
inductive Reply where
  | countByte (a : Answer ByteOrEof)
  | rewind (a : Answer Unit)
  | hdrWrite (header : List Byte) (a : Answer Unit)
  | hdrRead (a : Answer (List Byte))
  | encByte (a : Answer ByteOrEof)
  | encBit (rest : List Bit) (a : Answer Unit)
  | leafWrite (sym : Symbol) (a : Answer Unit)
  | decBit (a : Answer (BitVec 2))
  | symWrite (a : Answer Unit)
deriving DecidableEq, Repr

/-- The sequencer's position (R31, R152): a port request is one step, and the computation between two of them is one. -/
inductive Phase where
  /-- No command runs. -/
  | idle
  /-- A command is accepted; its first computation is the next step. -/
  | begin
  /-- A port request is made and not answered. -/
  | asking (w : Wait)
  /-- A port request is answered; the computation that follows is the next step. -/
  | answered (r : Reply)
deriving DecidableEq, Repr

/-- What exists only while a command runs (R30 item 7, R60-R62), with the sequencer's position. -/
structure Run where
  phase : Phase
  /-- The bodies that are still to start: several for COMPRESS and DECOMPRESS (R300, R302). -/
  todo : List Body
  /-- `PQ`, `SEQ` (R60, R61). -/
  forest : Forest
  /-- `DEC_POS`, a path from the root (R62, R278); none when no DECODE of a full tree runs. -/
  decPos : Option (List Bit)
  /-- `NCOUNT` (R62). -/
  nCount : Count64
deriving DecidableEq, Repr

/-- No command runs (R70's last row of block state). -/
def Run.idle : Run :=
  { phase := .idle, todo := [], forest := Forest.empty, decPos := none, nCount := 0#64 }

/-- `CUR_OP`, `CUR_SYM`, `CUR_ARG` (R63) and `PRIM_OP` (R150). -/
structure Current where
  op   : BitVec 8
  sym  : Symbol
  arg  : Count
  prim : BitVec 8
deriving DecidableEq, Repr

/-- STATUS's own fields; its other fields are copies of state that stands elsewhere (R34). -/
structure Status where
  busy        : Bool
  done        : Bool
  fault       : Bool
  dropped     : Bool
  faultCode   : FaultByte
  faultDetail : FaultByte
deriving DecidableEq, Repr

/-! ## Host -/

/-- One move of the host, and how many steps the sequencer takes after it before the host moves again (R152: host
accesses may interleave with the steps of a running command). -/
structure HostEvent where
  move  : HostMove
  grant : Nat
deriving DecidableEq, Repr

/-- The host agent (R24). -/
structure HostAgent where
  /-- The moves still to come, the next one first. -/
  queue : List HostEvent
  /-- How many steps the sequencer may take before the host's next move. -/
  grant : Nat
  /-- The values its register reads noted, the oldest first (R120). -/
  noted : List Word32
  /-- How many free values its reads have drawn (R372); only Config.busyRead is applied to it. -/
  draws : Nat
deriving DecidableEq, Repr

/-! ## The state -/

/-- Everything the spec gives the machine. -/
structure State where
  /-- STATUS (R34). -/
  status : Status
  /-- ARG (R35). -/
  arg : Word32
  /-- RESULT (R36). -/
  result : Count64
  /-- FAULTOP[7:0] (R37). -/
  faultOp : BitVec 8
  /-- TREEINFO[9:0], NNODES (R38). -/
  nNodes : BitVec 10
  /-- TREEINFO[24:16], NLEAVES (R38). -/
  nLeaves : BitVec 9
  /-- CODE0..CODE7 (R48). -/
  codeWin : Vector Word32 8
  /-- `FREQ` (R40). -/
  freq : Vector Count 256
  /-- `TREE` and `TSTATE` (R44). -/
  tree : TreeStore
  /-- `MAP` (R50). -/
  map : Vector MapEntry 256
  /-- `MAP_VALID` (R51). -/
  mapValid : Bool
  /-- `HDR_OUT_DONE` (R55). -/
  hdrOutDone : Bool
  /-- `HDR_IN_DONE` (R55). -/
  hdrInDone : Bool
  /-- `CUR_OP`, `CUR_SYM`, `CUR_ARG`, `PRIM_OP` (R63, R150). -/
  cur : Current
  /-- The running command (R30 item 7, R31). -/
  run : Run
  /-- The environment's ports (R66). -/
  env : Env
  /-- The host (R24). -/
  host : HostAgent
deriving DecidableEq, Repr

/-- Why a step could stop the machine. There is no such reason: every fault of this block is a state of STATUS from
which it goes on (R340), and an unanswered port request leaves it busy (R99); the type has no constructor. -/
inductive Fault where
deriving DecidableEq, Repr

/-- Why a step has no meaning. -/
inductive Refusal where
  /-- Raised by exec's arm of a command that has no meaning yet. Safe. -/
  | notModelled (mnemonic : String)
  /-- Raised by a host register access that is not 32 bits wide: "the model refuses it (the host agent has no step)"
  (R83). Safe. -/
  | accessWidth
  /-- Raised by a host register access at an offset with `off[1:0] ≠ 0` (R83). Safe. -/
  | accessMisaligned
  /-- Raised by the attachment of a port while `BUSY = 1`: "The model has no move for such a host action" (R376). Safe. -/
  | portMovedWhileBusy
deriving DecidableEq, Repr

/-! ## Reset -/

/-- STATUS after reset (R70). -/
def Status.reset : Status :=
  { busy := false, done := false, fault := false, dropped := false, faultCode := 0#8, faultDetail := 0#8 }

/-- `CUR_OP`, `CUR_SYM`, `CUR_ARG` after reset (R70); `PRIM_OP` 0 (assumption log entry 3). -/
def Current.reset : Current := { op := 0#8, sym := 0#8, arg := 0#32, prim := 0#8 }

/-- The environment before anything is attached: empty sources and sinks, no failing request (assumption log entry 2). -/
def Env.initial : Env :=
  { inBytes := [], inEnding := .ends, inCursor := 0, inLater := [], outBytes := [], hdrOut := none, bitsOut := [],
    hdrIn := [], bitsIn := [], bitsEnding := .ends, bitCursor := 0, draws := [] }

/-- The host before its first move (assumption log entry 2). -/
def HostAgent.initial : HostAgent := { queue := [], grant := 0, noted := [], draws := 0 }

/-- The machine right after reset (R70, R362). -/
def State.reset : State :=
  { status := Status.reset
    arg := 0#32
    result := 0#64
    faultOp := 0#8
    nNodes := 0#10
    nLeaves := 0#9
    codeWin := Vector.replicate 8 0#32
    freq := Vector.replicate 256 0#32
    tree := .none
    map := Vector.replicate 256 MapEntry.absent
    mapValid := false
    hdrOutDone := false
    hdrInDone := false
    cur := Current.reset
    run := Run.idle
    env := Env.initial
    host := HostAgent.initial }

end Sys2Proof.Machine
end

