-- ==== Sys2Proof/Machine/Ops.lean ====
section
/-! DEFINITION. The named operations the meanings share: tables indexed by a symbol, trees, port requests, acceptance,
completion, fault entry and reset. -/

namespace Sys2Proof.Machine

/-! ## Tables indexed by a symbol (FREQ, R40; MAP, R50) -/

/-- The entry of symbol `s`. -/
def symGet {α : Type} (v : Vector α 256) (s : Symbol) : α := v[s.toNat]'s.isLt

/-- The table with the entry of symbol `s` replaced. -/
def symSet {α : Type} (v : Vector α 256) (s : Symbol) (x : α) : Vector α 256 := v.set s.toNat x s.isLt

/-! ## Trees (R20) -/

/-- `size(t)`: the number of nodes (R20). -/
def treeSize : Tree → Nat
  | .leaf _ => 1
  | .node z o => treeSize z + treeSize o + 1

/-- `leaves(t)`: the leaf symbols in pre-order (R20). -/
def treeLeaves : Tree → List Symbol
  | .leaf s => [s]
  | .node z o => treeLeaves z ++ treeLeaves o

/-- The subtree at a path: the zero-branch for 0, the one-branch for 1; none where a branch is absent (R278, R279). -/
def treeAt : Tree → List Bit → Option Tree
  | t, [] => some t
  | .leaf _, _ :: _ => none
  | .node z o, x :: p => treeAt (if x then o else z) p

/-- A built or parsed tree as the tree store holds it: TSTATE LEAF for a leaf, FULL for a node (R200, R235). -/
def storeTree : Tree → TreeStore
  | .leaf s => .leaf s
  | .node z o => .full z o

/-- `TREE : Option Tree` (R44). -/
def storeRoot : TreeStore → Option Tree
  | .none => none
  | .empty => none
  | .leaf s => some (.leaf s)
  | .full z o => some (.node z o)

/-- `TSTATE` (R44). -/
def storeState : TreeStore → TState
  | .none => .none
  | .empty => .empty
  | .leaf _ => .leaf
  | .full _ _ => .full

/-- `NNODES` of a store: `size(TREE)`, 0 when NONE or EMPTY (R38, R46). -/
def storeNodes (t : TreeStore) : Nat := ((storeRoot t).map treeSize).getD 0

/-- `NLEAVES` of a store: `len(leaves(TREE))`, 0 when NONE or EMPTY (R38, R46). -/
def storeLeaves (t : TreeStore) : Nat := ((storeRoot t).map fun r => (treeLeaves r).length).getD 0

/-- Writing `TREE` writes TREEINFO in the same step (R38, R46). -/
def State.setTree (s : State) (t : TreeStore) : State :=
  { s with tree := t, nNodes := BitVec.ofNat 10 (storeNodes t), nLeaves := BitVec.ofNat 9 (storeLeaves t) }

/-! ## Port requests (20_memory.md section 3) -/

/-- One port request: the environment's next draw decides whether what the port does (`perform`) is answered, fails with
IOERR, or is never answered (none) (R97, R99). -/
def Env.request {α : Type} (e : Env) (perform : Env → α × Env) : Option (Answer α × Env) :=
  match e.draws with
  | [] => some (.value (perform e).1, (perform e).2)
  | .served :: ds => some (.value (perform { e with draws := ds }).1, (perform { e with draws := ds }).2)
  | .failed true :: ds => some (.ioerr, (perform { e with draws := ds }).2)
  | .failed false :: ds => some (.ioerr, { e with draws := ds })
  | .unanswered :: _ => none

/-- The byte a byte source gives at a position; none where it has ended (R90, R99). -/
def sourceByte (bytes : List Byte) (ending : Ending) (position : Nat) : Option Byte :=
  match bytes[position]? with
  | some b => some b
  | none =>
    match ending with
    | .ends => none
    | .endless stream => some (Config.endlessByte stream position)

/-- What ByteRead does: the byte at the cursor, and the cursor moves on; or EOF at the end, if there is one (R90, R98, R99). -/
def Env.takeByte (e : Env) : ByteOrEof × Env :=
  match sourceByte e.inBytes e.inEnding e.inCursor with
  | some b => (.byte b, { e with inCursor := e.inCursor + 1 })
  | none => (.eof, e)

/-- What ByteRewind does: the cursor returns to 0; the source presents its next contents, the same ones if no others
stand in wait (R91, R98, R375). -/
def Env.rewindBytes (e : Env) : Unit × Env :=
  match e.inLater with
  | [] => ((), { e with inCursor := 0 })
  | c :: later => ((), { e with inBytes := c.bytes, inEnding := c.ending, inLater := later, inCursor := 0 })

/-- What ByteWrite does (R92). -/
def Env.putByte (b : Byte) (e : Env) : Unit × Env := ((), { e with outBytes := e.outBytes ++ [b] })

/-- What HdrWrite does (R93, R98). -/
def Env.putHeader (h : List Byte) (e : Env) : Unit × Env := ((), { e with hdrOut := some h })

/-- What BitWrite does (R94). -/
def Env.putBit (x : Bit) (e : Env) : Unit × Env := ((), { e with bitsOut := e.bitsOut ++ [x] })

/-- What HdrRead does (R95, R98). -/
def Env.takeHeader (e : Env) : List Byte × Env := (e.hdrIn, e)

/-- A bit as a BitRead answer (R134). -/
def bitAnswer (x : Bit) : BitVec 2 := if x then 0b01#2 else 0b00#2

/-- The answer a bit source gives at a position; none where it has ended (R96, R99). -/
def sourceAnswer (bits : List (BitVec 2)) (ending : Ending) (position : Nat) : Option (BitVec 2) :=
  match bits[position]? with
  | some r => some r
  | none =>
    match ending with
    | .ends => none
    | .endless stream => some (bitAnswer (Config.endlessBit stream position))

/-- What BitRead does: the 2-bit answer at the cursor, and the cursor moves on; or END, `0b10`, at the end, if there is one
(R96, R98, R99, R134). -/
def Env.takeBit (e : Env) : BitVec 2 × Env :=
  match sourceAnswer e.bitsIn e.bitsEnding e.bitCursor with
  | some r => (r, { e with bitCursor := e.bitCursor + 1 })
  | none => (0b10#2, e)

/-- A BitRead answer: bit 0, bit 1, or END (none) (R134). -/
def bitOf (r : BitVec 2) : Option Bit :=
  if r = 0b00#2 then some false else if r = 0b01#2 then some true else none

/-- The request that stands at a wait point, made of the environment: its reply and the environment after it, or none
while it is not answered (R84: a request and its answer are one event). -/
def serve : Wait → Env → Option (Reply × Env)
  | .countByte, e => (e.request Env.takeByte).map fun (a, e') => (.countByte a, e')
  | .rewind, e => (e.request Env.rewindBytes).map fun (a, e') => (.rewind a, e')
  | .hdrWrite h, e => (e.request (Env.putHeader h)).map fun (a, e') => (.hdrWrite h a, e')
  | .hdrRead, e => (e.request Env.takeHeader).map fun (a, e') => (.hdrRead a, e')
  | .encByte, e => (e.request Env.takeByte).map fun (a, e') => (.encByte a, e')
  | .encBit x rest, e => (e.request (Env.putBit x)).map fun (a, e') => (.encBit rest a, e')
  | .leafWrite sym, e => (e.request (Env.putByte sym)).map fun (a, e') => (.leafWrite sym a, e')
  | .decBit, e => (e.request Env.takeBit).map fun (a, e') => (.decBit a, e')
  | .symWrite sym, e => (e.request (Env.putByte sym)).map fun (a, e') => (.symWrite a, e')

/-- An unanswered request that reset abandons is gone: the next request is a new one with its own draw (R360, U23). -/
def Env.abandon (e : Env) : Env :=
  match e.draws with
  | .unanswered :: ds => { e with draws := ds }
  | _ => e

/-- A port is attached anew (R363). -/
def Env.attach (e : Env) : Attachment → Env
  | .byteSource c cursor later =>
    { e with inBytes := c.bytes, inEnding := c.ending, inCursor := cursor, inLater := later }
  | .byteSink => { e with outBytes := [] }
  | .bitSink => { e with hdrOut := none, bitsOut := [] }
  | .bitSource header bits ending => { e with hdrIn := header, bitsIn := bits, bitsEnding := ending, bitCursor := 0 }

/-! ## Acceptance and completion (40_control.md section 1) -/

/-- The words that pass while `FAULT = 1`: `w[31:16] = 0` and `w[7:0]` SOFT_RESET or CLEAR_FAULT (R150). -/
def passesFault (w : Word32) : Bool := wordRsv w == 0#16 && (wordOp w == 0x01#8 || wordOp w == 0x02#8)

/-- A CMD write of `w` is dropped (R150, R151). -/
def State.drops (s : State) (w : Word32) : Bool := s.status.busy || (s.status.fault && !passesFault w)

/-- A dropped write sets DROPPED and changes nothing else (R151). -/
def State.setDropped (s : State) : State := { s with status.dropped := true }

/-- Acceptance: the operands are latched, `BUSY <- 1`, `DONE <- 0`, and the bodies `todo` are to run (R150). -/
def State.accept (s : State) (w : Word32) (todo : List Body) : State :=
  { s with
    cur := { op := wordOp w, sym := wordSym w, arg := s.arg, prim := wordOp w }
    status.busy := true
    status.done := false
    run := { Run.idle with phase := .begin, todo := todo } }

/-- Completion: `BUSY <- 0; DONE <- 1`, and what exists only while a command runs is gone (R153, R60-R62). -/
def State.complete (s : State) : State :=
  { s with status.busy := false, status.done := true, run := Run.idle }

/-! ## Fault entry and return (60_exceptions.md section 2) -/

/-- The fault codes of R320. -/
def faultCode : FaultName → FaultByte
  | .illegalCmd => 0x01#8
  | .noTree => 0x02#8
  | .noMap => 0x03#8
  | .seqErr => 0x04#8
  | .freqOvf => 0x05#8
  | .hdrMalformed => 0x06#8
  | .bitsTruncated => 0x07#8
  | .absentBranch => 0x08#8
  | .noCode => 0x09#8
  | .dupSymbol => 0x0A#8
  | .ioError => 0x0B#8
  | .cntOvf => 0x0C#8

/-- TAKING A FAULT, `raise Fault(code, detail)`: STATUS takes the code and the detail, FAULTOP takes PRIM_OP, BUSY and
DONE fall, the running command stops; nothing is rolled back (R340). -/
def State.raise (s : State) (name : FaultName) (detail : FaultByte) : State :=
  { s with
    status := { s.status with busy := false, done := false, fault := true, faultCode := faultCode name,
                              faultDetail := detail }
    faultOp := s.cur.prim
    run := Run.idle }

/-- THE RETURN FROM A FAULT that keeps all other state: FAULT, FAULT_CODE, FAULT_DETAIL, DROPPED and FAULTOP are cleared
(R157, R344). -/
def State.clearFault (s : State) : State :=
  { s with
    status := { s.status with fault := false, dropped := false, faultCode := 0#8, faultDetail := 0#8 }
    faultOp := 0#8 }

/-- Every block state at its reset value (R70); the environment and the host are not the block's (R66). -/
def State.resetBlock (s : State) : State := { State.reset with env := s.env, host := s.host }

/-- Hardware reset at any event: the block is reset at once and a request not yet answered is abandoned (R360). -/
def State.hardReset (s : State) : State :=
  match s.run.phase with
  | .asking _ => { s.resetBlock with env := s.env.abandon }
  | _ => s.resetBlock

/-- What a computation of a body comes to: it makes a port request, it ends the body, or it raises a fault. -/
inductive Flow where
  | ask (w : Wait) (s : State)
  | done (s : State)
  | raise (name : FaultName) (detail : FaultByte) (s : State)
deriving DecidableEq, Repr

/-! ## Small writes the bodies share -/

/-- `RESULT <- v`. -/
def State.setResult (s : State) (v : Count64) : State := { s with result := v }

/-- `NCOUNT <- v` (R62). -/
def State.setCount (s : State) (v : Count64) : State := { s with run.nCount := v }

/-- `RESULT <- NCOUNT`, as the counting bodies write it at their end and before their faults (R171, R272, R280). -/
def State.resultCount (s : State) : State := s.setResult s.run.nCount

/-- `DEC_POS <- p` (R278). -/
def State.setDecPos (s : State) (p : List Bit) : State := { s with run.decPos := some p }

end Sys2Proof.Machine
end

