-- ==== Sys2Proof/Machine/Flags.lean ====
section
/-! DEFINITION. The registers a host reads that are put together from fields: STATUS (10_state.md R34), TREEINFO (R38),
FAULTOP (R37), and the code window's words (R48). -/

namespace Sys2Proof.Machine

/-- `TSTATE`'s 2-bit code (R34, R44). -/
def tstateCode : TState → BitVec 2
  | .none => 0#2
  | .empty => 1#2
  | .leaf => 2#2
  | .full => 3#2

/-- STATUS as it reads while `BUSY` does not hide it, bit 31 first (R34). -/
def statusWord (s : State) : Word32 :=
  (s.status.faultDetail ++ s.status.faultCode ++ 0#7 ++ BitVec.ofBool s.hdrInDone ++ BitVec.ofBool s.hdrOutDone
    ++ BitVec.ofBool s.mapValid ++ tstateCode (storeState s.tree) ++ BitVec.ofBool s.status.dropped
    ++ BitVec.ofBool s.status.fault ++ BitVec.ofBool s.status.done ++ BitVec.ofBool s.status.busy).cast (by decide)

/-- TREEINFO: NLEAVES in bits 24..16, NNODES in bits 9..0, every other bit 0 (R38). -/
def treeInfoWord (s : State) : Word32 := (0#7 ++ s.nLeaves ++ 0#6 ++ s.nNodes).cast (by decide)

/-- FAULTOP: bits 31..8 read 0 (R37). -/
def faultOpWord (s : State) : Word32 := (0#24 ++ s.faultOp).cast (by decide)

/-- The number whose bit `i` is `bits[i]`. -/
def bitsToNat : List Bit → Nat
  | [] => 0
  | x :: rest => x.toNat + 2 * bitsToNat rest

/-- CODE`k` of a code: its bit `j` is `code[32 k + j]`, 0 beyond the code's end (R48). -/
def windowWord (code : List Bit) (k : Nat) : Word32 := BitVec.ofNat 32 (bitsToNat ((code.drop (32 * k)).take 32))

/-- CODE0..CODE7 of a code (R48, R256). -/
def codeWindow (code : List Bit) : Vector Word32 8 := Vector.ofFn fun k => windowWord code k.val

/-- MAP_READ's RESULT: `(present << 31) OR len(code)` in bits 31..0, 0 above (R256). -/
def mapReadResult (e : MapEntry) : Count64 :=
  (if e.present then 0x80000000#64 else 0#64) ||| BitVec.ofNat 64 e.code.length

end Sys2Proof.Machine
end

