-- ==== Sys2Proof/Machine/Operands.lean ====
section
/-! DEFINITION. The operands of a command (30_encoding.md R115) and the host's register space (10_state.md R32-R39). -/

namespace Sys2Proof.Machine

/-- The symbol operand, `CUR_SYM` (R115). -/
def State.symOperand (s : State) : Symbol := s.cur.sym

/-- The count operand, `CUR_ARG` (R115). -/
def State.countOperand (s : State) : Count := s.cur.arg

/-! ## Register reads -/

/-- CODE`k`, the register at offset `0x20 + 4 k` (R32). -/
def codeWord (s : State) (off : BitVec 8) : Word32 := s.codeWin[((off - 0x20#8) >>> 2).toNat]?.getD 0#32

/-- What the register at `off` holds (R32): CMD and the reserved offsets read 0 (R33, R39). -/
def regValue (s : State) (off : BitVec 8) : Word32 :=
  if off = 0x04#8 then statusWord s
  else if off = 0x08#8 then s.arg
  else if off = 0x10#8 then s.result.extractLsb' 0 32
  else if off = 0x14#8 then s.result.extractLsb' 32 32
  else if off = 0x18#8 then faultOpWord s
  else if off = 0x1C#8 then treeInfoWord s
  else if 0x20#8 ≤ off ∧ off ≤ 0x3C#8 then codeWord s off
  else 0#32

/-- What a read answers while `BUSY = 1`: a free value, in which STATUS's bit 0 is 1 (R372, U1). -/
def busyValue (s : State) (off : BitVec 8) : Word32 :=
  if off = 0x04#8 then Config.busyRead s.host.draws ||| 1#32 else Config.busyRead s.host.draws

/-- RegRead: the host notes the value; the block does not change (R85). -/
def hostRead (off : BitVec 8) (s : State) : State :=
  if s.status.busy then
    { s with host.noted := s.host.noted ++ [busyValue s off], host.draws := s.host.draws + 1 }
  else { s with host.noted := s.host.noted ++ [regValue s off] }

/-! ## Register writes other than to CMD -/

/-- RegWrite to an offset other than CMD's: ARG takes the value, every other register ignores it (R35, R39). -/
def hostWrite (off : BitVec 8) (v : Word32) (s : State) : State := if off = 0x08#8 then { s with arg := v } else s

end Sys2Proof.Machine
end

