-- ==== Sys2Proof/Machine/BitstreamBody.lean ====
section
/-! DEFINITION. The packer and the unpacker: the bodies of ENCODE and DECODE (45_bitstream.md). -/

namespace Sys2Proof.Machine

/-- `2^64 - 1`, the largest item count (R332). -/
def maxItems : Count64 := 0xFFFFFFFFFFFFFFFF#64

/-! ## ENCODE (R272) -/

/-- ENCODE up to its first ByteRead. -/
def bodyEncode (s : State) : Flow :=
  if s.mapValid then
    if s.hdrOutDone then .ask .encByte (s.setCount 0#64) else .raise .seqErr 2#8 s
  else .raise .noMap 0#8 s

/-- The rest of a code: the next BitWrite, or, when no bit is left, the byte is counted and the next is read. -/
def encodeBits (code : List Bit) (s : State) : Flow :=
  match code with
  | [] => .ask .encByte (s.setCount (s.run.nCount + 1#64))
  | x :: rest => .ask (.encBit x rest) s

/-- ENCODE after a ByteRead. -/
def encByteReply (a : Answer ByteOrEof) (s : State) : Flow :=
  match a with
  | .ioerr => .raise .ioError 1#8 s.resultCount
  | .value .eof => .done s.resultCount
  | .value (.byte b) =>
    if (symGet s.map b).present then
      if s.run.nCount = maxItems then .raise .cntOvf 0#8 s.resultCount
      else encodeBits (symGet s.map b).code s
    else .raise .noCode b s.resultCount

/-- ENCODE after a BitWrite. -/
def encBitReply (rest : List Bit) (a : Answer Unit) (s : State) : Flow :=
  match a with
  | .ioerr => .raise .ioError 5#8 s.resultCount
  | .value () => encodeBits rest s

/-! ## DECODE (R280) -/

/-- The single-leaf loop: the next ByteWrite while `NCOUNT < CUR_ARG`. -/
def leafLoop (sym : Symbol) (s : State) : Flow :=
  if s.run.nCount < s.countOperand.zeroExtend 64 then .ask (.leafWrite sym) s else .done s.resultCount

/-- DECODE up to its first port request, or to its end where it makes none. -/
def bodyDecode (s : State) : Flow :=
  match s.tree with
  | .none => .raise .noTree 0#8 s
  | .empty => if s.hdrInDone then .done ((s.setCount 0#64).setResult 0#64) else .raise .seqErr 4#8 s
  | .leaf sym => if s.hdrInDone then leafLoop sym (s.setCount 0#64) else .raise .seqErr 4#8 s
  | .full _ _ => if s.hdrInDone then .ask .decBit ((s.setCount 0#64).setDecPos []) else .raise .seqErr 4#8 s

/-- DECODE of a single-leaf tree after a ByteWrite. -/
def leafWriteReply (sym : Symbol) (a : Answer Unit) (s : State) : Flow :=
  match a with
  | .ioerr => .raise .ioError 3#8 s.resultCount
  | .value () => leafLoop sym (s.setCount (s.run.nCount + 1#64))

/-- `DEC_POS`, the root where none is held. -/
def State.decPath (s : State) : List Bit := s.run.decPos.getD []

/-- `subtree(TREE, p)`; none where a branch is absent (R278, R279). -/
def State.subtree (s : State) (p : List Bit) : Option Tree := (storeRoot s.tree).bind fun r => treeAt r p

/-- One bit of the descent: a leaf's symbol is written, an internal node asks for the next bit, an absent branch is a
fault. -/
def descend (x : Bit) (s : State) : Flow :=
  match s.subtree (s.decPath ++ [x]) with
  | none => .raise .absentBranch 0#8 s.resultCount
  | some (.node _ _) => .ask .decBit (s.setDecPos (s.decPath ++ [x]))
  | some (.leaf sym) =>
    if s.run.nCount = maxItems then .raise .cntOvf 0#8 (s.setDecPos (s.decPath ++ [x])).resultCount
    else .ask (.symWrite sym) (s.setDecPos (s.decPath ++ [x]))

/-- DECODE after a BitRead: END at the root ends it, END within a code is BITS_TRUNCATED (R327). -/
def decBitReply (a : Answer (BitVec 2)) (s : State) : Flow :=
  match a with
  | .ioerr => .raise .ioError 7#8 s.resultCount
  | .value r =>
    match bitOf r with
    | some x => descend x s
    | none => if s.decPath = [] then .done s.resultCount else .raise .bitsTruncated 0#8 s.resultCount

/-- DECODE after the ByteWrite of a decoded symbol: the position returns to the root. -/
def symWriteReply (a : Answer Unit) (s : State) : Flow :=
  match a with
  | .ioerr => .raise .ioError 3#8 s.resultCount
  | .value () => .ask .decBit ((s.setCount (s.run.nCount + 1#64)).setDecPos [])

end Sys2Proof.Machine
end

