-- ==== Sys2Proof/Machine/CodeMapBody.lean ====
section
/-! DEFINITION. The code-map generator: the walk, and the bodies of MAP_BUILD and MAP_READ (44_code_map.md). -/

namespace Sys2Proof.Machine

/-- The map with every entry `(0, [])`. -/
def clearedMap : Vector MapEntry 256 := Vector.replicate 256 MapEntry.absent

/-- `walk(t, p)` into a map: the map it leaves, and the symbol it met twice if it did (R250, R253). -/
def walk : Tree → List Bit → Vector MapEntry 256 → Vector MapEntry 256 × Option Symbol
  | .leaf s, p, m =>
    if (symGet m s).present then (m, some s) else (symSet m s { present := true, code := p }, none)
  | .node z o, p, m =>
    match walk z (p ++ [false]) m with
    | (m1, some d) => (m1, some d)
    | (m1, none) => walk o (p ++ [true]) m1

/-- The map of a tree store: of no tree or of the empty tree, the map with no entry (R252). -/
def mapOf (t : TreeStore) : Vector MapEntry 256 × Option Symbol :=
  match storeRoot t with
  | none => (clearedMap, none)
  | some r => walk r [] clearedMap

/-- The number of present entries (R252). -/
def presentCount (m : Vector MapEntry 256) : Nat := m.toList.countP (·.present)

/-- MAP_BUILD's body (R252). -/
def bodyMapBuild (s : State) : Flow :=
  if storeState s.tree = .none then .raise .noTree 0#8 s
  else
    let s1 := { s with mapValid := false, map := (mapOf s.tree).1 }
    match (mapOf s.tree).2 with
    | some d => .raise .dupSymbol d s1
    | none => .done ({ s1 with mapValid := true }.setResult (BitVec.ofNat 64 (presentCount s1.map)))

/-- MAP_READ's body (R256). -/
def bodyMapRead (s : State) : Flow :=
  if s.mapValid then
    .done ({ s with codeWin := codeWindow (symGet s.map s.symOperand).code }.setResult
      (mapReadResult (symGet s.map s.symOperand)))
  else .raise .noMap 0#8 s

end Sys2Proof.Machine
end

