-- ==== Sys2Proof/Machine/ControlBody.lean ====
section
/-! DEFINITION. The bodies of the control commands (40_control.md section 2). -/

namespace Sys2Proof.Machine

/-- NOP's body: nothing (R155). -/
def bodyNop (s : State) : Flow := .done s

/-- SOFT_RESET's body: every block state takes its reset value; DONE is set by the completion that follows (R156). -/
def bodySoftReset (s : State) : Flow := .done s.resetBlock

/-- CLEAR_FAULT's body (R157). -/
def bodyClearFault (s : State) : Flow := .done s.clearFault

/-- NEW_SESSION's body, which COMPRESS and DECOMPRESS also begin with (R158, R300, R302). -/
def bodySession (s : State) : Flow := .done { s with hdrOutDone := false, hdrInDone := false }

end Sys2Proof.Machine
end

