-- ==== Sys2Proof/Machine/FrequencyBody.lean ====
section
/-! DEFINITION. The bodies of the frequency table commands (41_frequency.md). -/

namespace Sys2Proof.Machine

/-- The table with every counter 0. -/
def zeroFreq : Vector Count 256 := Vector.replicate 256 0#32

/-- `2^CNT_W - 1`, the largest count (R11). -/
def maxCount : Count := 0xFFFFFFFF#32

/-- FREQ_CLEAR's body (R170). -/
def bodyFreqClear (s : State) : Flow := .done { s with freq := zeroFreq }

/-- FREQ_WRITE's body (R172). -/
def bodyFreqWrite (s : State) : Flow := .done { s with freq := symSet s.freq s.symOperand s.countOperand }

/-- FREQ_READ's body (R173). -/
def bodyFreqRead (s : State) : Flow := .done (s.setResult ((symGet s.freq s.symOperand).zeroExtend 64))

/-- FREQ_COUNT up to its first ByteRead: a new table, `NCOUNT <- 0` (R171). -/
def bodyFreqCount (s : State) : Flow := .ask .countByte ({ s with freq := zeroFreq }.setCount 0#64)

/-- FREQ_COUNT after a ByteRead: count the byte and read on, or end, or fault (R171, R322). -/
def countByteReply (a : Answer ByteOrEof) (s : State) : Flow :=
  match a with
  | .ioerr => .raise .ioError 1#8 s.resultCount
  | .value .eof => .done s.resultCount
  | .value (.byte b) =>
    if symGet s.freq b = maxCount then .raise .freqOvf b s.resultCount
    else .ask .countByte ({ s with freq := symSet s.freq b (symGet s.freq b + 1#32) }.setCount (s.run.nCount + 1#64))

/-- IN_REWIND up to its ByteRewind (R174). -/
def bodyInRewind (s : State) : Flow := .ask .rewind s

/-- IN_REWIND after its ByteRewind (R174). -/
def rewindReply (a : Answer Unit) (s : State) : Flow :=
  match a with
  | .ioerr => .raise .ioError 2#8 s
  | .value () => .done s

end Sys2Proof.Machine
end

