-- ==== Sys2Proof/Machine/HeaderBody.lean ====
section
/-! DEFINITION. The header codec: serializer, parser, and the bodies of HDR_FLATTEN and HDR_RECREATE
(43_header_codec.md; the wire format is 30_encoding.md R130-R133). -/

namespace Sys2Proof.Machine

/-- `'.'`, the leaf marker (R22). -/
def dotByte : Byte := 0x2E#8

/-- `'('`, which opens an internal node (R22). -/
def openByte : Byte := 0x28#8

/-- `')'`, which closes an internal node (R22). -/
def closeByte : Byte := 0x29#8

/-- `ser(t)`, pre-order (R130, R220). -/
def ser : Tree → List Byte
  | .leaf s => [dotByte, s]
  | .node z o => openByte :: (ser z ++ ser o ++ [closeByte])

/-- The serialization of the current tree: empty for the empty tree (R131, R220). -/
def headerOf (t : TreeStore) : List Byte := ((storeRoot t).map ser).getD []

/-- What a parse comes to: a result, or `Malformed(detail, off)` (R230). -/
inductive Parse (α : Type) where
  | ok (a : α)
  | malformed (detail : FaultByte) (off : Nat)
deriving DecidableEq, Repr

/-- What one subtree's parse leaves: the tree, the bytes after it, their offset, and the node counter. -/
structure Parsed where
  tree  : Tree
  rest  : List Byte
  off   : Nat
  count : Nat
deriving DecidableEq, Repr

/-- `fail(1, p)`: the header ends where more is needed (R232). -/
def unexpectedEnd : FaultByte := 1#8

/-- `fail(2, p)`: another byte than the grammar allows (R232). -/
def badByte : FaultByte := 2#8

/-- `fail(3, p)`: bytes after one complete tree (R232). -/
def trailing : FaultByte := 3#8

/-- `fail(4, p)`: a node beyond NODE_CAP (R232, R233). -/
def capacity : FaultByte := 4#8

/-- The closing byte of an internal node whose branches are `z` and `o` (R230). -/
def parseClose (z : Tree) (o : Parsed) : Parse Parsed :=
  match o.rest with
  | [] => .malformed unexpectedEnd o.off
  | c :: rest =>
    if c = closeByte then .ok { tree := .node z o.tree, rest := rest, off := o.off + 1, count := o.count }
    else .malformed badByte o.off

/-- `node(p)` of R230: the subtree that starts at offset `p`, where `rest` is the header from `p` on and `n` the node
counter. The first argument bounds the nesting; a header shorter than it never uses it up. -/
def parseNode : Nat → List Byte → Nat → Nat → Parse Parsed
  | 0, _, p, _ => .malformed unexpectedEnd p
  | _ + 1, [], p, _ => .malformed unexpectedEnd p
  | fuel + 1, c :: rest, p, n =>
    if c = dotByte then
      match rest with
      | [] => .malformed unexpectedEnd (p + 1)
      | b :: rest' =>
        if n + 1 > Config.nodeCap then .malformed capacity p
        else .ok { tree := .leaf b, rest := rest', off := p + 2, count := n + 1 }
    else if c = openByte then
      if n + 1 > Config.nodeCap then .malformed capacity p
      else
        match parseNode fuel rest (p + 1) (n + 1) with
        | .malformed d off => .malformed d off
        | .ok z =>
          match parseNode fuel z.rest z.off z.count with
          | .malformed d off => .malformed d off
          | .ok o => parseClose z.tree o
    else .malformed badByte p

/-- `parse(H)` (R230): the empty header is the empty tree (R131). -/
def parse (h : List Byte) : Parse TreeStore :=
  match h with
  | [] => .ok .empty
  | _ :: _ =>
    match parseNode (h.length + 1) h 0 0 with
    | .malformed d off => .malformed d off
    | .ok t => if t.rest = [] then .ok (storeTree t.tree) else .malformed trailing t.off

/-- HDR_FLATTEN up to its HdrWrite (R222). -/
def bodyHdrFlatten (s : State) : Flow :=
  if storeState s.tree = .none then .raise .noTree 0#8 s
  else if s.hdrOutDone then .raise .seqErr 1#8 s
  else .ask (.hdrWrite (headerOf s.tree)) s

/-- HDR_FLATTEN after its HdrWrite (R222). -/
def hdrWriteReply (header : List Byte) (a : Answer Unit) (s : State) : Flow :=
  match a with
  | .ioerr => .raise .ioError 4#8 s
  | .value () => .done ({ s with hdrOutDone := true }.setResult (BitVec.ofNat 64 header.length))

/-- HDR_RECREATE up to its HdrRead (R235). -/
def bodyHdrRecreate (s : State) : Flow :=
  if s.hdrInDone then .raise .seqErr 3#8 s else .ask .hdrRead s

/-- HDR_RECREATE after its HdrRead: the tree the header spells, or no tree and HDR_MALFORMED (R235, R326). -/
def hdrReadReply (a : Answer (List Byte)) (s : State) : Flow :=
  match a with
  | .ioerr => .raise .ioError 6#8 s
  | .value h =>
    let s1 := { s with hdrInDone := true, mapValid := false }
    match parse h with
    | .ok t => .done ((s1.setTree t).setResult (BitVec.ofNat 64 h.length))
    | .malformed d off => .raise .hdrMalformed d ((s1.setTree .none).setResult (BitVec.ofNat 64 off))

end Sys2Proof.Machine
end

