-- ==== Sys2Proof/Machine/TreeBody.lean ====
section
/-! DEFINITION. The tree builder: the priority forest, the node merger, and TREE_BUILD's body (42_tree_builder.md). -/

namespace Sys2Proof.Machine

/-- `PQ_ENQUEUE(t, w)`: the entry takes SEQ as its sequence number, then SEQ moves on (R190). -/
def enqueue (f : Forest) (t : Tree) (w : Weight) : Forest :=
  { entries := f.entries ++ [{ tree := t, weight := w, seq := f.next }], next := f.next + 1#9 }

/-- The priority order: by weight, and by sequence number where weights are equal (R191). -/
def precedes (a b : Entry) : Bool := decide (a.weight < b.weight) || (a.weight == b.weight && decide (a.seq < b.seq))

/-- The entry of `e :: rest` that precedes every other, and the entries that remain. -/
def extractMin (e : Entry) : List Entry → Entry × List Entry
  | [] => (e, [])
  | x :: rest =>
    if precedes x e then
      match extractMin x rest with
      | (m, others) => (m, e :: others)
    else
      match extractMin e rest with
      | (m, others) => (m, x :: others)

/-- `PQ_DEQUEUE_MIN()`: none only when PQ is empty, where it is not performed (R192). -/
def dequeueMin (f : Forest) : Option (Entry × Forest) :=
  match f.entries with
  | [] => none
  | e :: rest =>
    match extractMin e rest with
    | (m, others) => some (m, { f with entries := others })

/-- `NODE_MERGE(A, B)`, enqueued: the first dequeued becomes the zero-branch, the second the one-branch, and the weight
is the sum (R193). -/
def enqueueMerged (f : Forest) (a b : Entry) : Forest := enqueue f (.node a.tree b.tree) (a.weight + b.weight)

/-- The merge loop, `while |PQ| > 1`, for at most `n` merges (R200). -/
def mergeLoop : Nat → Forest → Forest
  | 0, f => f
  | n + 1, f =>
    match dequeueMin f with
    | none => f
    | some (a, f1) =>
      match dequeueMin f1 with
      | none => f
      | some (b, f2) => mergeLoop n (enqueueMerged f2 a b)

/-- One present symbol's leaf is enqueued with its count as its weight; a symbol with count 0 gets none (R194). -/
def enqueueLeaf (freq : Vector Count 256) (f : Forest) (s : Symbol) : Forest :=
  if symGet freq s = 0#32 then f else enqueue f (.leaf s) ((symGet freq s).zeroExtend 40)

/-- The leaves of a table in the order of LEAF_ORDER (R194, R195). -/
def leafForest (freq : Vector Count 256) : Forest := Config.leafOrder.foldl (enqueueLeaf freq) Forest.empty

/-- The forest after the merges: one entry if any symbol is present (R200). -/
def mergedForest (freq : Vector Count 256) : Forest := mergeLoop (leafForest freq).entries.length (leafForest freq)

/-- `PQ`, `SEQ` written. -/
def State.setForest (s : State) (f : Forest) : State := { s with run.forest := f }

/-- TREE_BUILD's body (R200): the leaves, the merges, and the last entry's tree and weight. -/
def bodyTreeBuild (s : State) : Flow :=
  let s1 := { s with mapValid := false }.setForest (mergedForest s.freq)
  match dequeueMin s1.run.forest with
  | none => .done ((s1.setTree .empty).setResult 0#64)
  | some (r, f) => .done (((s1.setForest f).setTree (storeTree r.tree)).setResult (r.weight.zeroExtend 64))

end Sys2Proof.Machine
end

