-- ==== Sys2Proof/Machine/Sequencer.lean ====
section
/-! DEFINITION. The block sequencer (40_control.md R150-R153): how an accepted command runs, step by step, to its
completion or its fault. -/

namespace Sys2Proof.Machine

/-- The opcode that PRIM_OP takes when a body starts; the control bodies leave PRIM_OP as acceptance set it (R150,
R300, R302). -/
def bodyOpcode : Body → Option (BitVec 8)
  | .nop => none
  | .softReset => none
  | .clearFault => none
  | .session => none
  | .freqClear => some 0x10#8
  | .freqCount => some 0x11#8
  | .freqWrite => some 0x12#8
  | .freqRead => some 0x13#8
  | .inRewind => some 0x14#8
  | .treeBuild => some 0x20#8
  | .hdrFlatten => some 0x30#8
  | .hdrRecreate => some 0x31#8
  | .mapBuild => some 0x40#8
  | .mapRead => some 0x41#8
  | .encode => some 0x50#8
  | .decode => some 0x51#8

/-- A body from its start. -/
def startBody : Body → State → Flow
  | .nop, s => bodyNop s
  | .softReset, s => bodySoftReset s
  | .clearFault, s => bodyClearFault s
  | .session, s => bodySession s
  | .freqClear, s => bodyFreqClear s
  | .freqCount, s => bodyFreqCount s
  | .freqWrite, s => bodyFreqWrite s
  | .freqRead, s => bodyFreqRead s
  | .inRewind, s => bodyInRewind s
  | .treeBuild, s => bodyTreeBuild s
  | .hdrFlatten, s => bodyHdrFlatten s
  | .hdrRecreate, s => bodyHdrRecreate s
  | .mapBuild, s => bodyMapBuild s
  | .mapRead, s => bodyMapRead s
  | .encode, s => bodyEncode s
  | .decode, s => bodyDecode s

/-- A body from the answer of a port request on. -/
def resume : Reply → State → Flow
  | .countByte a, s => countByteReply a s
  | .rewind a, s => rewindReply a s
  | .hdrWrite h a, s => hdrWriteReply h a s
  | .hdrRead a, s => hdrReadReply a s
  | .encByte a, s => encByteReply a s
  | .encBit rest a, s => encBitReply rest a s
  | .leafWrite sym a, s => leafWriteReply sym a s
  | .decBit a, s => decBitReply a s
  | .symWrite a, s => symWriteReply a s

/-- A body is about to start: PRIM_OP names it, and `todo` is what follows it. -/
def State.enterBody (s : State) (b : Body) (todo : List Body) : State :=
  { s with cur.prim := (bodyOpcode b).getD s.cur.prim, run.todo := todo }

/-- The request of `w` is the sequencer's next step. -/
def State.setAsking (s : State) (w : Wait) : State := { s with run.phase := .asking w }

/-- The bodies in turn, up to a port request, a fault, or the command's completion (R153, R300, R302). -/
def runBodies : List Body → State → State
  | [], s => s.complete
  | b :: todo, s =>
    match startBody b (s.enterBody b todo) with
    | .ask w s' => s'.setAsking w
    | .done s' => runBodies todo s'
    | .raise name detail s' => s'.raise name detail

/-- What follows a computation: the request is asked, the next bodies run, or the fault is taken. -/
def settle : Flow → State
  | .ask w s => s.setAsking w
  | .done s => runBodies s.run.todo s
  | .raise name detail s => s.raise name detail

/-- A request is answered: the environment has moved on and the reply is in hand. -/
def State.setReply (s : State) (r : Reply) (e : Env) : State := { s with env := e, run.phase := .answered r }

/-- ONE STEP of the sequencer (R152): the computation between two port requests, or one port request with its answer.
A request that is not answered leaves the command waiting (R99). -/
def seqStep (s : State) : State :=
  match s.run.phase with
  | .idle => s
  | .begin => runBodies s.run.todo s
  | .asking w =>
    match serve w s.env with
    | none => s
    | some (r, e) => s.setReply r e
  | .answered r => settle (resume r s)

/-- Up to `n` steps of the sequencer, none once `BUSY = 0`. -/
def seqRun : Nat → State → State
  | 0, s => s
  | n + 1, s => if s.status.busy then seqRun n (seqStep s) else s

/-- A CMD write of the legal word `w` (R150): dropped, or accepted with its bodies to run; then the sequencer takes the
steps it is granted before the host's next move (R152). -/
def command (w : Word32) (todo : List Body) (s : State) : Host.Outcome State Fault Refusal :=
  .next (seqRun s.host.grant (if s.drops w then s.setDropped else s.accept w todo))

/-- A CMD write of an illegal word (R111, R113, R321): dropped, or accepted and at once faulted; no body runs. -/
def illegalCommand (w : Word32) (detail : FaultByte) (s : State) : State :=
  seqRun s.host.grant (if s.drops w then s.setDropped else (s.accept w []).raise .illegalCmd detail)

end Sys2Proof.Machine
end

