-- ==== Sys2Proof/Machine/Bitstream.lean ====
section
/-! DEFINITION. The meanings of the packer and the unpacker (45_bitstream.md). -/

namespace Sys2Proof.Machine

/-- ENCODE (R272). -/
def execEncode (sym : Symbol) (s : State) : Host.Outcome State Fault Refusal :=
  command (commandWord 0x50#8 sym) [.encode] s

/-- DECODE (R280). -/
def execDecode (sym : Symbol) (s : State) : Host.Outcome State Fault Refusal :=
  command (commandWord 0x51#8 sym) [.decode] s

end Sys2Proof.Machine
end

