-- ==== Sys2Proof/Machine/CodeMap.lean ====
section
/-! DEFINITION. The meanings of the code-map generator (44_code_map.md). -/

namespace Sys2Proof.Machine

/-- MAP_BUILD (R252). -/
def execMapBuild (sym : Symbol) (s : State) : Host.Outcome State Fault Refusal :=
  command (commandWord 0x40#8 sym) [.mapBuild] s

/-- MAP_READ (R256). -/
def execMapRead (sym : Symbol) (s : State) : Host.Outcome State Fault Refusal :=
  command (commandWord 0x41#8 sym) [.mapRead] s

end Sys2Proof.Machine
end

