-- ==== Sys2Proof/Machine/Control.lean ====
section
/-! DEFINITION. The meanings of the control commands (40_control.md section 2). -/

namespace Sys2Proof.Machine

/-- NOP (R155). -/
def execNop (sym : Symbol) (s : State) : Host.Outcome State Fault Refusal :=
  command (commandWord 0x00#8 sym) [.nop] s

/-- SOFT_RESET (R156). -/
def execSoftReset (sym : Symbol) (s : State) : Host.Outcome State Fault Refusal :=
  command (commandWord 0x01#8 sym) [.softReset] s

/-- CLEAR_FAULT (R157). -/
def execClearFault (sym : Symbol) (s : State) : Host.Outcome State Fault Refusal :=
  command (commandWord 0x02#8 sym) [.clearFault] s

/-- NEW_SESSION (R158). -/
def execNewSession (sym : Symbol) (s : State) : Host.Outcome State Fault Refusal :=
  command (commandWord 0x03#8 sym) [.session] s

end Sys2Proof.Machine
end

