-- ==== Sys2Proof/Machine/Frequency.lean ====
section
/-! DEFINITION. The meanings of the frequency table commands (41_frequency.md). -/

namespace Sys2Proof.Machine

/-- FREQ_CLEAR (R170). -/
def execFreqClear (sym : Symbol) (s : State) : Host.Outcome State Fault Refusal :=
  command (commandWord 0x10#8 sym) [.freqClear] s

/-- FREQ_COUNT (R171). -/
def execFreqCount (sym : Symbol) (s : State) : Host.Outcome State Fault Refusal :=
  command (commandWord 0x11#8 sym) [.freqCount] s

/-- FREQ_WRITE (R172). -/
def execFreqWrite (sym : Symbol) (s : State) : Host.Outcome State Fault Refusal :=
  command (commandWord 0x12#8 sym) [.freqWrite] s

/-- FREQ_READ (R173). -/
def execFreqRead (sym : Symbol) (s : State) : Host.Outcome State Fault Refusal :=
  command (commandWord 0x13#8 sym) [.freqRead] s

/-- IN_REWIND (R174). -/
def execInRewind (sym : Symbol) (s : State) : Host.Outcome State Fault Refusal :=
  command (commandWord 0x14#8 sym) [.inRewind] s

end Sys2Proof.Machine
end

