-- ==== Sys2Proof/Machine/HeaderCodec.lean ====
section
/-! DEFINITION. The meanings of the header codec (43_header_codec.md). -/

namespace Sys2Proof.Machine

/-- HDR_FLATTEN (R222). -/
def execHdrFlatten (sym : Symbol) (s : State) : Host.Outcome State Fault Refusal :=
  command (commandWord 0x30#8 sym) [.hdrFlatten] s

/-- HDR_RECREATE (R235). -/
def execHdrRecreate (sym : Symbol) (s : State) : Host.Outcome State Fault Refusal :=
  command (commandWord 0x31#8 sym) [.hdrRecreate] s

end Sys2Proof.Machine
end

