-- ==== Sys2Proof/Machine/Macro.lean ====
section
/-! DEFINITION. The meanings of the sequences (46_macro.md): the constituents' bodies in the spec's order, as one command. -/

namespace Sys2Proof.Machine

/-- COMPRESS: a fresh session, then the two passes (R300). -/
def execCompress (sym : Symbol) (s : State) : Host.Outcome State Fault Refusal :=
  command (commandWord 0x60#8 sym) [.session, .freqCount, .inRewind, .treeBuild, .hdrFlatten, .mapBuild, .encode] s

/-- DECOMPRESS: a fresh session, the header, then the bits (R302). -/
def execDecompress (sym : Symbol) (s : State) : Host.Outcome State Fault Refusal :=
  command (commandWord 0x61#8 sym) [.session, .hdrRecreate, .decode] s

end Sys2Proof.Machine
end

