-- ==== Sys2Proof/Machine/TreeBuilder.lean ====
section
/-! DEFINITION. The meanings of the tree builder (42_tree_builder.md). -/

namespace Sys2Proof.Machine

/-- TREE_BUILD (R200). -/
def execTreeBuild (sym : Symbol) (s : State) : Host.Outcome State Fault Refusal :=
  command (commandWord 0x20#8 sym) [.treeBuild] s

end Sys2Proof.Machine
end

