-- ==== Sys2Proof/Machine/Dispatch.lean ====
section
/-! DEFINITION. The meaning of every command: one arm per constructor of Instr. -/

namespace Sys2Proof.Machine

/-- A CMD write of the command `i` (40_control.md R150). -/
def exec (i : Instr) (s : State) : Host.Outcome State Fault Refusal :=
  match i with
  | .nop sym => Sys2Proof.Machine.execNop sym s
  | .softReset sym => Sys2Proof.Machine.execSoftReset sym s
  | .clearFault sym => Sys2Proof.Machine.execClearFault sym s
  | .newSession sym => Sys2Proof.Machine.execNewSession sym s
  | .freqClear sym => Sys2Proof.Machine.execFreqClear sym s
  | .freqCount sym => Sys2Proof.Machine.execFreqCount sym s
  | .freqWrite sym => Sys2Proof.Machine.execFreqWrite sym s
  | .freqRead sym => Sys2Proof.Machine.execFreqRead sym s
  | .inRewind sym => Sys2Proof.Machine.execInRewind sym s
  | .treeBuild sym => Sys2Proof.Machine.execTreeBuild sym s
  | .hdrFlatten sym => Sys2Proof.Machine.execHdrFlatten sym s
  | .hdrRecreate sym => Sys2Proof.Machine.execHdrRecreate sym s
  | .mapBuild sym => Sys2Proof.Machine.execMapBuild sym s
  | .mapRead sym => Sys2Proof.Machine.execMapRead sym s
  | .encode sym => Sys2Proof.Machine.execEncode sym s
  | .decode sym => Sys2Proof.Machine.execDecode sym s
  | .compress sym => Sys2Proof.Machine.execCompress sym s
  | .decompress sym => Sys2Proof.Machine.execDecompress sym s

end Sys2Proof.Machine
end

