-- ==== Sys2Proof/Machine/HostMoves.lean ====
section
/-! DEFINITION. What the host does to the block (00_scope.md R24): register accesses, CMD writes, polling, reset,
attaching ports; and the moves that the statements of a host program stand for (30_encoding.md R120, R121). -/

namespace Sys2Proof.Machine

/-- A CMD write of any word (R150): a legal word is the command it decodes to, an illegal one faults. -/
def presentWord (w : Word32) (s : State) : Host.Outcome State Fault Refusal :=
  match decode w with
  | .instr i => exec i s
  | .reservedBits => .next (illegalCommand w 1#8 s)
  | .reservedOpcode => .next (illegalCommand w 2#8 s)

/-- The sequencer takes the steps the host's move leaves it. -/
def State.granted (s : State) : Host.Outcome State Fault Refusal := .next (seqRun s.host.grant s)

/-- RegWrite (R81): to CMD it presents a command (R33), elsewhere it is a plain write. -/
def regWrite (off : BitVec 8) (v : Word32) (s : State) : Host.Outcome State Fault Refusal :=
  if off = 0x00#8 then presentWord v s else (hostWrite off v s).granted

/-- A register access goes on only as a whole aligned word; another shape the model refuses (R83, U2). -/
def checkedAccess (width : Nat) (off : BitVec 8) (s : State) (access : State → Host.Outcome State Fault Refusal) :
    Host.Outcome State Fault Refusal :=
  if widthOk width then
    if offsetOk off then access s else .refused .accessMisaligned
  else .refused .accessWidth

/-- STATUS's offset (R32). -/
def statusOffset : BitVec 8 := 0x04#8

/-- POLL: one read of STATUS, repeated as the host's next move until it shows `BUSY = 0` (R121). -/
def pollMove (again : HostEvent) (s : State) : Host.Outcome State Fault Refusal :=
  if s.status.busy then State.granted { hostRead statusOffset s with host.queue := again :: s.host.queue }
  else (hostRead statusOffset s).granted

/-- A port is attached between commands only (R363, R376, U10). -/
def attachPort (port : Attachment) (s : State) : Host.Outcome State Fault Refusal :=
  if s.status.busy then .refused .portMovedWhileBusy else State.granted { s with env := s.env.attach port }

/-- One move of the host, already taken off its queue. -/
def hostMove (e : HostEvent) (s : State) : Host.Outcome State Fault Refusal :=
  match e.move with
  | .read width off => checkedAccess width off s fun s' => (hostRead off s').granted
  | .write width off v => checkedAccess width off s (regWrite off v)
  | .poll => pollMove e s
  | .hardReset => s.hardReset.granted
  | .attach port => attachPort port s

/-- The host's next move is off its queue, and the steps it grants the sequencer are set. -/
def State.takeEvent (s : State) (e : HostEvent) (rest : List HostEvent) : State :=
  { s with host.queue := rest, host.grant := e.grant }

/-- ONE STEP of the machine: the host's next move and the sequencer's steps after it; with no move to come, one step of
the sequencer, and a block that is idle waits (R152, R362). -/
def advance (s : State) : Host.Outcome State Fault Refusal :=
  match s.host.queue with
  | [] => .next (seqRun 1 s)
  | e :: rest => hostMove e (s.takeEvent e rest)

/-! ## The word a test places -/

/-- The steps a placed command is granted. -/
def placedGrant : Nat := 4096

/-- The host's next move writes the word `w` to CMD. -/
def State.placeWord (s : State) (w : Word32) : State :=
  { s with host.queue := { move := .write 32 0x00#8 w, grant := placedGrant } :: s.host.queue }

/-! ## Host programs (R120, R121) -/

/-- A register's offset (R32). -/
def regOffset : RegName → BitVec 8
  | .cmd => 0x00#8
  | .status => 0x04#8
  | .arg => 0x08#8
  | .resultLo => 0x10#8
  | .resultHi => 0x14#8
  | .faultOp => 0x18#8
  | .treeInfo => 0x1C#8
  | .code k => 0x20#8 + 4#8 * BitVec.ofNat 8 k.val

/-- `WR <reg>, <value>` (R120). -/
def moveWr (reg : RegName) (v : Word32) : HostMove := .write 32 (regOffset reg) v

/-- `RD <reg>` (R120). -/
def moveRd (reg : RegName) : HostMove := .read 32 (regOffset reg)

/-- `CMD <mnemonic> [<sym>]` (R120). -/
def moveCmd (i : Instr) : HostMove := moveWr .cmd (encode i)

/-- What a statement stands for (R120, R121). -/
def stmtMoves : Stmt → List HostMove
  | .wr reg v => [moveWr reg v]
  | .rd reg => [moveRd reg]
  | .cmd i => [moveCmd i]
  | .poll => [.poll]
  | .run i => [moveCmd i, .poll]
  | .loadFreq sym n => [moveWr .arg n, moveCmd (.freqWrite sym), .poll]
  | .rdResult => [moveRd .resultLo, moveRd .resultHi]

/-- A program's moves, each granting the sequencer `grant` steps. -/
def programEvents (grant : Nat) (program : List Stmt) : List HostEvent :=
  program.flatMap fun st => (stmtMoves st).map fun m => { move := m, grant := grant }

end Sys2Proof.Machine
end

