-- ==== Sys2Proof/Machine/Step.lean ====
section
/-! DEFINITION. One step of the machine. -/

namespace Sys2Proof.Machine

/-- One step (assumption log entry 1). -/
def step : State → Host.Outcome State Fault Refusal := advance

/-- The state whose next step presents the instruction whose bits are `w` to CMD: the host's next move writes it
(R31: commands are written by the host, not fetched). -/
def State.withFetchWord (s : State) (nbits w : Nat) : State := s.placeWord (BitVec.ofNat 32 (w % 2 ^ nbits))

end Sys2Proof.Machine
end

