-- ==== Sys2Proof/Safety.lean ====
section
/-! DEFINITION. The notions the statements use: when a command is accepted, the reference environment, how many steps a
command needs, what each command may write, and the invariants of the machine. -/

namespace Sys2Proof.Machine

/-! ## When a command is accepted, and what stands in the ports -/

/-- A CMD write is accepted whatever its word: `BUSY = 0` and `FAULT = 0` (R150). -/
def State.Ready (s : State) : Prop := s.status.busy = false ∧ s.status.fault = false

/-- No port request fails or stays unanswered, as in the reference environment (R98). -/
def State.Served (s : State) : Prop := s.env.draws = []

/-- The listed bytes the byte source has still to give (R90). -/
def Env.bytesLeft (e : Env) : List Byte := e.inBytes.drop e.inCursor

/-- The listed answers the bit source has still to give (R98). -/
def Env.bitsLeft (e : Env) : List (BitVec 2) := e.bitsIn.drop e.bitCursor

/-- The latched operands of an accepted word (R63, R115, R150) with the PRIM_OP the command ends with. -/
def latched (s : State) (w : Word32) (prim : BitVec 8) : Current :=
  { op := wordOp w, sym := wordSym w, arg := s.arg, prim := prim }

/-- STATUS after a command that was accepted while `FAULT = 0` and completed (R150, R153). -/
def completedStatus (s : State) : Status := { s.status with busy := false, done := true }

/-- STATUS after a command that was accepted while `FAULT = 0` and raised a fault (R340). -/
def faultedStatus (s : State) (name : FaultName) (detail : FaultByte) : Status :=
  { s.status with busy := false, done := false, fault := true, faultCode := faultCode name, faultDetail := detail }

/-! ## Tables -/

/-- How often a symbol occurs in a byte string, as a counter holds it. -/
def countOf (bytes : List Byte) (b : Symbol) : Count := BitVec.ofNat 32 (bytes.count b)

/-- The table FREQ_COUNT makes of a byte string in which no symbol occurs too often for its counter. -/
def countTable (bytes : List Byte) : Vector Count 256 := Vector.ofFn fun k => countOf bytes (BitVec.ofNat 8 k.val)

/-- The sum of all counters (R41). -/
def freqSum (freq : Vector Count 256) : Nat := (freq.toList.map BitVec.toNat).sum

/-- The present symbols of a table in ascending order (R41, R195). -/
def presentSymbols (freq : Vector Count 256) : List Symbol :=
  Config.leafOrder.filter fun s => decide (symGet freq s ≠ 0#32)

/-- The tree TREE_BUILD makes of a table (R200). -/
def builtStore (freq : Vector Count 256) : TreeStore :=
  match dequeueMin (mergedForest freq) with
  | none => .empty
  | some (r, _) => storeTree r.tree

/-- The payload of a byte string under a map (R135, R270). -/
def payload (m : Vector MapEntry 256) (bytes : List Byte) : List Bit := bytes.flatMap fun b => (symGet m b).code

/-! ## How many steps a command needs when every request is answered (R152, R380) -/

/-- FREQ_COUNT of `n` bytes: one step to begin, then a request and a computation for each byte and for EOF. -/
def countSteps (n : Nat) : Nat := 2 * n + 3

/-- ENCODE of a byte string: as FREQ_COUNT, and a request and a computation for each bit. -/
def encodeSteps (m : Vector MapEntry 256) (bytes : List Byte) : Nat := countSteps bytes.length + 2 * (payload m bytes).length

/-- DECODE of a full tree: each bit and the END, and each symbol. -/
def decodeSteps (nBits nSymbols : Nat) : Nat := countSteps nBits + 2 * nSymbols

/-! ## What each command may write -/

/-- The parts of the state that a command may or may not write, besides STATUS, CUR_*, PRIM_OP and FAULTOP, which
acceptance, completion and fault entry write for every command. -/
inductive Part where
  | arg | result | codeWin | freq | tree | map | mapValid | hdrOutDone | hdrInDone
  | byteSource | byteSink | bitSink | bitSource
deriving DecidableEq, Repr

/-- A part is the same in two states. -/
def samePart : Part → State → State → Prop
  | .arg, s, t => t.arg = s.arg
  | .result, s, t => t.result = s.result
  | .codeWin, s, t => t.codeWin = s.codeWin
  | .freq, s, t => t.freq = s.freq
  | .tree, s, t => t.tree = s.tree ∧ t.nNodes = s.nNodes ∧ t.nLeaves = s.nLeaves
  | .map, s, t => t.map = s.map
  | .mapValid, s, t => t.mapValid = s.mapValid
  | .hdrOutDone, s, t => t.hdrOutDone = s.hdrOutDone
  | .hdrInDone, s, t => t.hdrInDone = s.hdrInDone
  | .byteSource, s, t =>
    t.env.inBytes = s.env.inBytes ∧ t.env.inEnding = s.env.inEnding ∧ t.env.inCursor = s.env.inCursor ∧
      t.env.inLater = s.env.inLater
  | .byteSink, s, t => t.env.outBytes = s.env.outBytes
  | .bitSink, s, t => t.env.hdrOut = s.env.hdrOut ∧ t.env.bitsOut = s.env.bitsOut
  | .bitSource, s, t =>
    t.env.hdrIn = s.env.hdrIn ∧ t.env.bitsIn = s.env.bitsIn ∧ t.env.bitsEnding = s.env.bitsEnding ∧
      t.env.bitCursor = s.env.bitCursor

/-- The parts a command's rule names as written, whether it completes or faults. -/
def mayWrite : Instr → List Part
  | .nop _ => []
  | .softReset _ => [.arg, .result, .codeWin, .freq, .tree, .map, .mapValid, .hdrOutDone, .hdrInDone]
  | .clearFault _ => []
  | .newSession _ => [.hdrOutDone, .hdrInDone]
  | .freqClear _ => [.freq]
  | .freqCount _ => [.freq, .result, .byteSource]
  | .freqWrite _ => [.freq]
  | .freqRead _ => [.result]
  | .inRewind _ => [.byteSource]
  | .treeBuild _ => [.tree, .mapValid, .result]
  | .hdrFlatten _ => [.hdrOutDone, .result, .bitSink]
  | .hdrRecreate _ => [.hdrInDone, .tree, .mapValid, .result]
  | .mapBuild _ => [.map, .mapValid, .result]
  | .mapRead _ => [.result, .codeWin]
  | .encode _ => [.result, .byteSource, .bitSink]
  | .decode _ => [.result, .byteSink, .bitSource]
  | .compress _ => [.freq, .result, .tree, .map, .mapValid, .hdrOutDone, .hdrInDone, .byteSource, .bitSink]
  | .decompress _ => [.result, .tree, .mapValid, .hdrOutDone, .hdrInDone, .byteSink, .bitSource]

/-- A command changes nothing but what its rule names: every other part is as before, and so is the host. -/
def Framed (i : Instr) (s t : State) : Prop := (∀ p, p ∉ mayWrite i → samePart p s t) ∧ t.host = s.host

/-- What a command that was accepted leaves of STATUS and FAULTOP unless it faults, and the operands it has latched: DROPPED
is as before; code, detail and FAULTOP are as before while no fault stands; CUR_OP, CUR_SYM and CUR_ARG are the command's
opcode and symbol and the ARG it was given with (R63, R150). -/
def StatusFramed (i : Instr) (s t : State) : Prop :=
  t.status.dropped = s.status.dropped ∧
  (t.status.fault = false → t.status.faultCode = s.status.faultCode ∧ t.status.faultDetail = s.status.faultDetail ∧
    t.faultOp = s.faultOp) ∧
  t.cur.op = i.opcode ∧ t.cur.sym = i.sym ∧ t.cur.arg = s.arg

/-! ## Invariants -/

/-- STATUS and the sequencer agree (R34, R37, R150-R153, R320, R340): DONE and FAULT are never both 1; code, detail and
FAULTOP are 0 while no fault stands; no code above 0x0C is ever raised; BUSY is 1 exactly while a command runs, and what
exists only then is gone otherwise; a command that runs while a fault stands is one of the two that may; SOFT_RESET's body is
no part of a sequence. -/
structure State.StatusInv (s : State) : Prop where
  doneClean : s.status.done = true → s.status.fault = false ∧ s.status.busy = false
  noFault : s.status.fault = false → s.status.faultCode = 0#8 ∧ s.status.faultDetail = 0#8 ∧ s.faultOp = 0#8
  faulted : s.status.fault = true → s.status.faultCode ≠ 0#8
  codeBound : s.status.faultCode ≤ 0x0C#8
  idleRun : s.status.busy = false → s.run = Run.idle
  busyRun : s.status.busy = true → s.run.phase ≠ .idle
  busyFault : s.status.busy = true → s.status.fault = true →
    s.run.phase = .begin ∧ (s.run.todo = [.softReset] ∨ s.run.todo = [.clearFault])
  resetAlone : .softReset ∈ s.run.todo → s.run.todo = [.softReset]

/-- TREEINFO tells the tree's size, and no tree is larger than the store (R13, R38, R44, R46). -/
structure State.TreeInv (s : State) : Prop where
  nodes : s.nNodes = BitVec.ofNat 10 (storeNodes s.tree)
  leaves : s.nLeaves = BitVec.ofNat 9 (storeLeaves s.tree)
  fits : storeNodes s.tree ≤ Config.nodeCap

/-- MAP_VALID says that MAP is the map of the current tree (R51). -/
def State.MapInv (s : State) : Prop :=
  s.mapValid = true → storeState s.tree ≠ .none ∧ mapOf s.tree = (s.map, none)

/-- While DECODE waits for a bit, the tree is full and the decode position is an internal node of it (R278, R279). -/
def atInnerNode (s : State) : Prop :=
  storeState s.tree = .full ∧ ∃ z o, s.subtree s.decPath = some (.node z o)

/-- The decode position at every point of DECODE's loop (R280). -/
def State.DecodeInv (s : State) : Prop :=
  match s.run.phase with
  | .asking .decBit => atInnerNode s
  | .answered (.decBit _) => atInnerNode s
  | .asking (.symWrite _) => storeState s.tree = .full
  | .answered (.symWrite _) => storeState s.tree = .full
  | _ => True

/-- The identity of a port request in IO_ERROR's detail (R331). -/
def Wait.requestId : Wait → FaultByte
  | .countByte => 1#8
  | .rewind => 2#8
  | .leafWrite _ => 3#8
  | .symWrite _ => 3#8
  | .hdrWrite _ => 4#8
  | .encByte => 1#8
  | .encBit _ _ => 5#8
  | .hdrRead => 6#8
  | .decBit => 7#8

end Sys2Proof.Machine
end

