-- ==== Sys2Proof/Certificates/Slice0/Obligations.lean ====
section
/-! DEFINITION. The statements for the provers, in the order of OBLIGATIONS.json. -/

open Sys2Proof Sys2Proof.Machine

/-! ## The command word (30_encoding.md) -/

/-- A word decodes to a command exactly when it is that command's encoding: decode and encode agree, for every command
and every symbol operand, and no two words are one command (R110, R112, R115). -/
def Obligations.DecodeEncodeAgree : Prop := ∀ (w : Word32) (i : Instr), decode w = .instr i ↔ w = encode i

/-- The opcodes of R112's table. -/
def listedOpcodes : List (BitVec 8) :=
  [0x00, 0x01, 0x02, 0x03, 0x10, 0x11, 0x12, 0x13, 0x14, 0x20, 0x30, 0x31, 0x40, 0x41, 0x50, 0x51, 0x60, 0x61]

/-- Illegal words are refused by name: reserved bits first (R111), then an opcode outside the map (R113). -/
def Obligations.IllegalWordsDecodeByName : Prop :=
  ∀ w : Word32,
    (decode w = .reservedBits ↔ w.extractLsb' 16 16 ≠ 0#16) ∧
    (decode w = .reservedOpcode ↔ w.extractLsb' 16 16 = 0#16 ∧ w.extractLsb' 0 8 ∉ listedOpcodes)

/-- The example words of R122 decode to the commands they stand for. -/
def Obligations.ExampleWordsDecode : Prop :=
  decode 0x00000000#32 = .instr (.nop 0x00) ∧ decode 0x00000020#32 = .instr (.treeBuild 0x00) ∧
  decode 0x00006113#32 = .instr (.freqRead 0x61) ∧ decode 0x0000FF12#32 = .instr (.freqWrite 0xFF) ∧
  decode 0x00002841#32 = .instr (.mapRead 0x28) ∧ decode 0x00000060#32 = .instr (.compress 0x00) ∧
  decode 0x00010060#32 = .reservedBits

/-! ## The machine's step -/

/-- When the host's next move writes a word to CMD and the word decodes to a command, the step is that command's exec at
the state whose host has made its move, with the sequencer steps that move grants (R33, R150; that the host's moves stand
in a queue with grants is the model's choice, assumption log entry 1). -/
def Obligations.StepRunsDecodedCommand : Prop :=
  ∀ (s : State) (w : Word32) (i : Instr) (g : Nat) (rest : List HostEvent),
    s.host.queue = { move := .write 32 0x00#8 w, grant := g } :: rest → decode w = .instr i →
    step s = exec i { s with host := { s.host with queue := rest, grant := g } }

/-- An illegal word written to CMD while `FAULT = 0` and `BUSY = 0` is accepted and faults at once with ILLEGAL_CMD,
detail 1 for reserved bits and 2 for a reserved opcode; FAULTOP takes `w[7:0]`, no body runs, and all else is as before
(R111, R113, R321, R340). -/
def Obligations.IllegalWordFaults : Prop :=
  ∀ (s : State) (w : Word32) (g : Nat) (rest : List HostEvent),
    s.Ready → s.host.queue = { move := .write 32 0x00#8 w, grant := g } :: rest →
    (w.extractLsb' 16 16 ≠ 0#16 ∨ w.extractLsb' 0 8 ∉ listedOpcodes) →
    step s = .next
      { s with
        status := { s.status with busy := false, done := false, fault := true, faultCode := 0x01#8,
                                  faultDetail := if w.extractLsb' 16 16 ≠ 0#16 then 1#8 else 2#8 }
        faultOp := w.extractLsb' 0 8
        cur := { op := w.extractLsb' 0 8, sym := w.extractLsb' 8 8, arg := s.arg, prim := w.extractLsb' 0 8 }
        run := Run.idle
        host := { s.host with queue := rest, grant := g } }

/-- A CMD write while `BUSY = 1`, or while `FAULT = 1` of any word but SOFT_RESET's and CLEAR_FAULT's, sets DROPPED and
changes nothing else; the sequencer goes on with the steps it is granted (R150, R151). The words that pass are those with
`w[31:16] = 0` and `w[7:0]` 1 or 2, as R150's pseudocode has it (assumption log entry 5). -/
def Obligations.BlockedWriteIsDropped : Prop :=
  ∀ (s : State) (w : Word32) (g : Nat) (rest : List HostEvent),
    s.host.queue = { move := .write 32 0x00#8 w, grant := g } :: rest →
    (s.status.busy = true ∨
      (s.status.fault = true ∧ ¬(w.extractLsb' 16 16 = 0#16 ∧ (w.extractLsb' 0 8 = 0x01#8 ∨ w.extractLsb' 0 8 = 0x02#8)))) →
    step s = .next (seqRun g { s with status.dropped := true, host := { s.host with queue := rest, grant := g } })

/-- A block that is idle waits: with no host move to come, a step changes nothing (R362). -/
def Obligations.IdleBlockWaits : Prop :=
  ∀ s : State, s.host.queue = [] → s.status.busy = false → step s = .next s

/-- A register access that is not 32 bits wide, or not at a word offset, has no step (R83). -/
def Obligations.MisshapenAccessRefused : Prop :=
  ∀ (s : State) (width : Nat) (off : BitVec 8) (m : HostMove) (g : Nat) (rest : List HostEvent),
    (m = .read width off ∨ ∃ v, m = .write width off v) →
    s.host.queue = { move := m, grant := g } :: rest →
    (width ≠ 32 → step s = .refused .accessWidth) ∧
    (width = 32 → off.extractLsb' 0 2 ≠ 0#2 → step s = .refused .accessMisaligned)

/-- STATUS, read while `BUSY = 0`, shows its fields at their places, and its reserved bits read 0; the read changes
nothing but what the host has noted (R34, R85). -/
def Obligations.StatusReadShowsFields : Prop :=
  ∀ (s : State) (g : Nat) (rest : List HostEvent),
    s.status.busy = false → s.host.queue = { move := .read 32 0x04#8, grant := g } :: rest →
    ∃ v : Word32,
      step s = .next { s with host := { s.host with queue := rest, grant := g, noted := s.host.noted ++ [v] } } ∧
      v.getLsbD 0 = false ∧ v.getLsbD 1 = s.status.done ∧ v.getLsbD 2 = s.status.fault ∧
      v.getLsbD 3 = s.status.dropped ∧
      v.extractLsb' 4 2 =
        (match s.tree with | .none => 0#2 | .empty => 1#2 | .leaf _ => 2#2 | .full _ _ => 3#2) ∧
      v.getLsbD 6 = s.mapValid ∧ v.getLsbD 7 = s.hdrOutDone ∧ v.getLsbD 8 = s.hdrInDone ∧
      v.extractLsb' 9 7 = 0#7 ∧ v.extractLsb' 16 8 = s.status.faultCode ∧ v.extractLsb' 24 8 = s.status.faultDetail

/-- What each readable register shows while `BUSY = 0` (R35-R38, R48): ARG; RESULT, low half at the lower offset;
FAULTOP and TREEINFO with their reserved bits 0; the code window's eight words. -/
def Obligations.RegisterReadsShowState : Prop :=
  ∀ (s : State) (off : BitVec 8) (g : Nat) (rest : List HostEvent),
    s.status.busy = false → off.extractLsb' 0 2 = 0#2 →
    s.host.queue = { move := .read 32 off, grant := g } :: rest →
    ∃ v : Word32,
      step s = .next { s with host := { s.host with queue := rest, grant := g, noted := s.host.noted ++ [v] } } ∧
      (off = 0x08#8 → v = s.arg) ∧
      (off = 0x10#8 → v = s.result.extractLsb' 0 32) ∧
      (off = 0x14#8 → v = s.result.extractLsb' 32 32) ∧
      (off = 0x18#8 → v = s.faultOp.zeroExtend 32) ∧
      (off = 0x1C#8 → v.extractLsb' 0 10 = s.nNodes ∧ v.extractLsb' 10 6 = 0#6 ∧ v.extractLsb' 16 9 = s.nLeaves ∧
        v.extractLsb' 25 7 = 0#7) ∧
      (∀ k : Fin 8, off.toNat = 0x20 + 4 * k.val → v = s.codeWin[k])

/-- The reserved offsets and CMD read 0 while `BUSY = 0`; a write to ARG while `BUSY = 0` stores the whole value and changes
nothing else; a write to a reserved offset or to a read-only register is ignored (R33, R35, R39). -/
def Obligations.RegisterWritesAndReservedReads : Prop :=
  ∀ (s : State) (off : BitVec 8) (g : Nat) (rest : List HostEvent), off.extractLsb' 0 2 = 0#2 →
    ((off = 0x00#8 ∨ off = 0x0C#8 ∨ 0x40 ≤ off.toNat) → s.status.busy = false →
      s.host.queue = { move := .read 32 off, grant := g } :: rest →
      step s = .next { s with host := { s.host with queue := rest, grant := g, noted := s.host.noted ++ [0#32] } }) ∧
    (∀ v : Word32, off = 0x08#8 → s.status.busy = false →
      s.host.queue = { move := .write 32 off v, grant := g } :: rest →
      step s = .next { s with arg := v, host := { s.host with queue := rest, grant := g } }) ∧
    (∀ v : Word32, off ≠ 0x00#8 → off ≠ 0x08#8 →
      s.host.queue = { move := .write 32 off v, grant := g } :: rest →
      step s = .next (seqRun g { s with host := { s.host with queue := rest, grant := g } }))

/-- A read while `BUSY = 1` notes a free value, in which STATUS's bit 0 is 1, and leaves the block as it is (R372). The
value is Config.busyRead's, of which nothing is known; that CMD and the reserved offsets read so too is the model's
reading (assumption log entry 4). -/
def Obligations.BusyReadIsFree : Prop :=
  ∀ (s : State) (off : BitVec 8) (rest : List HostEvent),
    s.status.busy = true → off.extractLsb' 0 2 = 0#2 →
    s.host.queue = { move := .read 32 off, grant := 0 } :: rest →
    ∃ v : Word32,
      step s = .next { s with host := { s.host with queue := rest, grant := 0, noted := s.host.noted ++ [v],
                                                    draws := s.host.draws + 1 } } ∧
      (off = 0x04#8 → v = Config.busyRead s.host.draws ||| 1#32 ∧ v.getLsbD 0 = true) ∧
      (off ≠ 0x04#8 → v = Config.busyRead s.host.draws)

/-- An ARG write while `BUSY = 1` affects only later commands: the running command's further steps are those of the run
without the write, in every part of the state but ARG itself, and ARG holds the value written, unless the command still
to run is SOFT_RESET, which resets it (R35, R156, R371). -/
def Obligations.ArgWriteLeavesRunningCommand : Prop :=
  ∀ (s : State) (v : Word32) (g : Nat) (rest : List HostEvent),
    s.status.busy = true → s.host.queue = { move := .write 32 0x08#8 v, grant := g } :: rest →
    ∃ t u : State,
      step s = .next t ∧
      u = seqRun g { s with host := { s.host with queue := rest, grant := g } } ∧
      { t with arg := u.arg } = u ∧
      (Body.softReset ∉ s.run.todo → t.arg = v)

/-! ## Reset (70_reset_and_hazards.md) -/

/-- The state after reset, field by field (R70). -/
def Obligations.ResetValues : Prop :=
  State.reset.status = { busy := false, done := false, fault := false, dropped := false, faultCode := 0#8,
                         faultDetail := 0#8 } ∧
  State.reset.tree = .none ∧ State.reset.mapValid = false ∧
  (∀ b : Symbol, symGet State.reset.map b = { present := false, code := [] }) ∧
  State.reset.hdrOutDone = false ∧ State.reset.hdrInDone = false ∧
  (∀ b : Symbol, symGet State.reset.freq b = 0#32) ∧
  State.reset.arg = 0#32 ∧ State.reset.result = 0#64 ∧ State.reset.faultOp = 0#8 ∧
  State.reset.nNodes = 0#10 ∧ State.reset.nLeaves = 0#9 ∧
  (∀ k : Fin 8, State.reset.codeWin[k] = 0#32) ∧
  State.reset.cur.op = 0#8 ∧ State.reset.cur.sym = 0#8 ∧ State.reset.cur.arg = 0#32 ∧
  State.reset.run.forest.entries = [] ∧ State.reset.run.forest.next = 0#9 ∧ State.reset.run.decPos = none ∧
  State.reset.run.nCount = 0#64

/-- Hardware reset at any step abandons the running command: every block state takes its reset value at once, and what
the ports hold stays, as does what the host has noted (R360). Only a request that stands unanswered is gone, and with it
its draw: that a reset spends the draw is the model's choice (assumption log entry 7), and so is PRIM_OP's 0 (entry 3). -/
def Obligations.HardResetAbandonsCommand : Prop :=
  ∀ (s : State) (g : Nat) (rest : List HostEvent),
    s.host.queue = { move := .hardReset, grant := g } :: rest →
    ∃ e : Env,
      step s = .next { State.reset with env := e, host := { s.host with queue := rest, grant := g } } ∧
      (∀ w ds, s.run.phase = .asking w → s.env.draws = .unanswered :: ds → e = { s.env with draws := ds }) ∧
      ((∀ w ds, s.run.phase = .asking w → s.env.draws ≠ .unanswered :: ds) → e = s.env)

/-! ## Control commands (40_control.md) -/

/-- NOP completes: `DONE <- 1`, the operands latched, and nothing else changes; NEW_SESSION completes likewise, and both
session flags fall (R155, R158). -/
def Obligations.NopAndNewSessionComplete : Prop :=
  ∀ (sym : Symbol) (s : State), s.Ready → 1 ≤ s.host.grant →
    exec (.nop sym) s = .next
      { s with status := completedStatus s, cur := latched s (encode (.nop sym)) 0x00#8, run := Run.idle } ∧
    exec (.newSession sym) s = .next
      { s with status := completedStatus s, cur := latched s (encode (.newSession sym)) 0x03#8, run := Run.idle,
               hdrOutDone := false, hdrInDone := false }

/-- SOFT_RESET completes while `BUSY = 0`, a fault or none: every block state at its reset value, then `DONE = 1`; the
ports are not touched (R156, R361). That it passes a fault whatever its symbol operand is the model's reading of R150
(assumption log entry 5), and PRIM_OP's 0 is the model's choice (entry 3). -/
def Obligations.SoftResetCompletes : Prop :=
  ∀ (sym : Symbol) (s : State), s.status.busy = false → 1 ≤ s.host.grant →
    exec (.softReset sym) s = .next
      { State.reset with status := { State.reset.status with done := true }, env := s.env, host := s.host }

/-- CLEAR_FAULT completes while `BUSY = 0`, a fault or none: FAULT, FAULT_CODE, FAULT_DETAIL, DROPPED and FAULTOP are
cleared, `DONE = 1`, and all other state is kept (R157, R344). That it passes a fault whatever its symbol operand is the
model's reading of R150 (assumption log entry 5). -/
def Obligations.ClearFaultCompletes : Prop :=
  ∀ (sym : Symbol) (s : State), s.status.busy = false → 1 ≤ s.host.grant →
    exec (.clearFault sym) s = .next
      { s with
        status := { busy := false, done := true, fault := false, dropped := false, faultCode := 0#8, faultDetail := 0#8 }
        faultOp := 0#8
        cur := latched s (encode (.clearFault sym)) 0x02#8
        run := Run.idle }

/-! ## Frequency table (41_frequency.md) -/

/-- FREQ_CLEAR completes: every counter 0, and nothing else changes (R170). -/
def Obligations.FreqClearCompletes : Prop :=
  ∀ (sym : Symbol) (s : State), s.Ready → 1 ≤ s.host.grant →
    ∃ t, exec (.freqClear sym) s = .next t ∧ (∀ b, symGet t.freq b = 0#32) ∧
      t = { s with status := completedStatus s, cur := latched s (encode (.freqClear sym)) 0x10#8, run := Run.idle,
                   freq := t.freq }

/-- FREQ_WRITE completes: the symbol's counter takes ARG, every other counter and all else is as before (R172). -/
def Obligations.FreqWriteCompletes : Prop :=
  ∀ (sym : Symbol) (s : State), s.Ready → 1 ≤ s.host.grant →
    ∃ t, exec (.freqWrite sym) s = .next t ∧ (∀ b, symGet t.freq b = if b = sym then s.arg else symGet s.freq b) ∧
      t = { s with status := completedStatus s, cur := latched s (encode (.freqWrite sym)) 0x12#8, run := Run.idle,
                   freq := t.freq }

/-- FREQ_READ completes: RESULT takes the symbol's counter, zero-extended, and nothing else changes (R173). -/
def Obligations.FreqReadCompletes : Prop :=
  ∀ (sym : Symbol) (s : State), s.Ready → 1 ≤ s.host.grant →
    ∃ t, exec (.freqRead sym) s = .next t ∧ t.result.toNat = (symGet s.freq sym).toNat ∧
      t = { s with status := completedStatus s, cur := latched s (encode (.freqRead sym)) 0x13#8, run := Run.idle,
                   result := t.result }

/-- FREQ_COUNT completes when every request is answered, the source ends and no symbol occurs too often for its counter:
FREQ holds how often each symbol occurs from the cursor on, RESULT how many bytes were read, the cursor is at the end,
and all else is as before (R171). -/
def Obligations.FreqCountCompletes : Prop :=
  ∀ (sym : Symbol) (s : State), s.Ready → s.Served → s.env.inEnding = .ends →
    (∀ b, s.env.bytesLeft.count b < 2 ^ 32) → countSteps s.env.bytesLeft.length ≤ s.host.grant →
    ∃ t, exec (.freqCount sym) s = .next t ∧
      (∀ b, (symGet t.freq b).toNat = s.env.bytesLeft.count b) ∧
      t.result.toNat = s.env.bytesLeft.length ∧
      t = { s with status := completedStatus s, cur := latched s (encode (.freqCount sym)) 0x11#8, run := Run.idle,
                   freq := t.freq, result := t.result,
                   env := { s.env with inCursor := s.env.inCursor + s.env.bytesLeft.length } }

/-- After a FREQ_COUNT that completes without a fault, whatever the environment did, the counters sum to RESULT (R41). -/
def Obligations.FreqCountSumsToResult : Prop :=
  ∀ (sym : Symbol) (s t : State), s.Ready → exec (.freqCount sym) s = .next t → t.status.done = true →
    t.status.busy = false → freqSum t.freq = t.result.toNat

/-- A byte whose counter is `2^CNT_W - 1` is not counted: FREQ_OVF with the byte as its detail, the table unchanged,
RESULT the bytes counted before (R322). -/
def Obligations.FullCounterFaults : Prop :=
  ∀ (s : State) (b : Symbol), s.run.phase = .answered (.countByte (.value (.byte b))) →
    symGet s.freq b = 0xFFFFFFFF#32 →
    seqStep s = { s with status := faultedStatus s .freqOvf b, faultOp := s.cur.prim, run := Run.idle,
                         result := s.run.nCount }

/-- IN_REWIND completes when its request is answered: the cursor is 0 and no block state besides STATUS changes (R174). The
source presents the same contents (R91), but for one that has others in wait: that a source may present others after a
rewind, and when, is the model's reading of R375 (assumption log entry 8). -/
def Obligations.InRewindCompletes : Prop :=
  ∀ (sym : Symbol) (s : State), s.Ready → s.Served → 3 ≤ s.host.grant →
    ∃ e, exec (.inRewind sym) s = .next
      { s with status := completedStatus s, cur := latched s (encode (.inRewind sym)) 0x14#8, run := Run.idle,
               env := e } ∧
      e.inCursor = 0 ∧ (s.env.inLater = [] → e = { s.env with inCursor := 0 }) ∧
      (∀ c later, s.env.inLater = c :: later →
        e = { s.env with inBytes := c.bytes, inEnding := c.ending, inLater := later, inCursor := 0 })

/-! ## Tree builder (42_tree_builder.md) -/

/-- PQ_DEQUEUE_MIN takes the entry that precedes every other by weight, and by sequence number among equal weights, and
leaves the others (R191, R192). -/
def Obligations.DequeueTakesMinimum : Prop :=
  ∀ (f f' : Forest) (m : Entry), dequeueMin f = some (m, f') →
    f.entries.Perm (m :: f'.entries) ∧ f'.next = f.next ∧
    (∀ e ∈ f'.entries, m.weight.toNat < e.weight.toNat ∨ (m.weight = e.weight ∧ m.seq.toNat ≤ e.seq.toNat))

/-- The leaves are enqueued in ascending symbol order, each present symbol once, with its count as weight and its place
as sequence number; a symbol with count 0 gets no leaf (R190, R194, R195). -/
def Obligations.LeavesInSymbolOrder : Prop :=
  ∀ (freq : Vector Count 256),
    (leafForest freq).entries.map (·.tree) = (presentSymbols freq).map .leaf ∧
    (leafForest freq).entries.map (·.weight.toNat) = (presentSymbols freq).map (fun b => (symGet freq b).toNat) ∧
    (leafForest freq).entries.map (·.seq.toNat) = List.range (presentSymbols freq).length ∧
    (∀ b, b ∈ presentSymbols freq ↔ symGet freq b ≠ 0#32)

/-- TREE_BUILD completes on every table: TREE is the tree of the merges, RESULT the sum of all counters, MAP_VALID 0,
TREEINFO the tree's size, and all else is as before (R200). A merge takes the two entries that a dequeue and another give,
the first dequeued becomes the zero-branch and the second the one-branch, and the new entry's weight is their sum, exact
where the sum fits a weight, and its sequence number the next (R190, R193); the merges stop at one entry. -/
def Obligations.TreeBuildCompletes : Prop :=
  (∀ (n : Nat) (f f1 f2 : Forest) (a b : Entry), dequeueMin f = some (a, f1) → dequeueMin f1 = some (b, f2) →
    ∃ e f', mergeLoop (n + 1) f = mergeLoop n f' ∧ f'.entries.Perm (e :: f2.entries) ∧ f'.next = f.next + 1#9 ∧
      e.tree = .node a.tree b.tree ∧ e.seq = f.next ∧
      (a.weight.toNat + b.weight.toNat < 2 ^ 40 → e.weight.toNat = a.weight.toNat + b.weight.toNat)) ∧
  (∀ (n : Nat) (f : Forest), f.entries.length ≤ 1 → mergeLoop n f = f) ∧
  (∀ freq : Vector Count 256, ∃ n, mergedForest freq = mergeLoop n (leafForest freq) ∧
    (mergedForest freq).entries.length ≤ 1) ∧
  (∀ (freq : Vector Count 256) (e : Entry), (mergedForest freq).entries = [e] → builtStore freq = storeTree e.tree) ∧
  ∀ (sym : Symbol) (s : State), s.Ready → 1 ≤ s.host.grant →
    ∃ t, exec (.treeBuild sym) s = .next t ∧ t.tree = builtStore s.freq ∧ t.result.toNat = freqSum s.freq ∧
      t.nNodes.toNat = storeNodes t.tree ∧ t.nLeaves.toNat = storeLeaves t.tree ∧
      t = { s with status := completedStatus s, cur := latched s (encode (.treeBuild sym)) 0x20#8, run := Run.idle,
                   mapValid := false, tree := t.tree, nNodes := t.nNodes, nLeaves := t.nLeaves, result := t.result }

/-- The tree built from a table: no tree but EMPTY when no symbol is present, LEAF for exactly one, FULL for two or more;
its leaves are the present symbols, each once; L leaves make 2L - 1 nodes, never more than the store holds (R13, R46,
R194, R200). -/
def Obligations.BuiltTreeHoldsPresentSymbols : Prop :=
  ∀ (freq : Vector Count 256),
    (presentSymbols freq = [] → builtStore freq = .empty) ∧
    (∀ b, presentSymbols freq = [b] → builtStore freq = .leaf b) ∧
    (2 ≤ (presentSymbols freq).length → ∃ z o, builtStore freq = .full z o) ∧
    (∀ r, storeRoot (builtStore freq) = some r →
      (treeLeaves r).Perm (presentSymbols freq) ∧ treeSize r = 2 * (presentSymbols freq).length - 1 ∧
      treeSize r ≤ 511)

/-! ## Header codec (43_header_codec.md) -/

/-- Every node contributes exactly 2 bytes to a header, so no tree the store holds makes one longer than HDR_MAX (R15,
R130). -/
def Obligations.HeaderLength : Prop :=
  ∀ t : Tree, (ser t).length = 2 * treeSize t ∧ (treeSize t ≤ Config.nodeCap → (ser t).length ≤ Config.hdrMax)

/-- The parser accepts exactly the empty header and the serializations of trees of at most NODE_CAP nodes, and gives
back that tree (R231). -/
def Obligations.ParserAcceptsExactlyHeaders : Prop :=
  ∀ (h : List Byte) (r : TreeStore),
    parse h = .ok r ↔ (h = [] ∧ r = .empty) ∨ (∃ t, treeSize t ≤ 511 ∧ h = ser t ∧ r = storeTree t)

/-- HDR_FLATTEN completes when a tree exists and no header was written in this session: the sink holds the tree's header,
HDR_OUT_DONE is 1, RESULT is the header's length, and all else is as before (R220, R222). -/
def Obligations.HdrFlattenCompletes : Prop :=
  ∀ (sym : Symbol) (s : State), s.Ready → s.Served → 3 ≤ s.host.grant → s.tree ≠ .none → s.hdrOutDone = false →
    exec (.hdrFlatten sym) s = .next
      { s with status := completedStatus s, cur := latched s (encode (.hdrFlatten sym)) 0x30#8, run := Run.idle,
               hdrOutDone := true, result := BitVec.ofNat 64 (headerOf s.tree).length,
               env := { s.env with hdrOut := some (headerOf s.tree) } }

/-- HDR_RECREATE completes on a header that parses: TREE is what it spells, TREEINFO its size, HDR_IN_DONE 1, MAP_VALID
0, RESULT the header's length, and all else is as before (R235). -/
def Obligations.HdrRecreateCompletes : Prop :=
  ∀ (sym : Symbol) (s : State) (r : TreeStore), s.Ready → s.Served → 3 ≤ s.host.grant → s.hdrInDone = false →
    parse s.env.hdrIn = .ok r →
    exec (.hdrRecreate sym) s = .next
      { s with status := completedStatus s, cur := latched s (encode (.hdrRecreate sym)) 0x31#8, run := Run.idle,
               hdrInDone := true, mapValid := false, tree := r, nNodes := BitVec.ofNat 10 (storeNodes r),
               nLeaves := BitVec.ofNat 9 (storeLeaves r), result := BitVec.ofNat 64 s.env.hdrIn.length }

/-- On a malformed header HDR_RECREATE keeps no partial tree: TSTATE NONE, TREEINFO 0, RESULT the failing offset, and
HDR_MALFORMED with the parse's detail; the header counts as read (R235, R326). -/
def Obligations.MalformedHeaderFaults : Prop :=
  ∀ (sym : Symbol) (s : State) (d : FaultByte) (off : Nat), s.Ready → s.Served → 3 ≤ s.host.grant →
    s.hdrInDone = false → parse s.env.hdrIn = .malformed d off →
    exec (.hdrRecreate sym) s = .next
      { s with status := faultedStatus s .hdrMalformed d, faultOp := 0x31#8,
               cur := latched s (encode (.hdrRecreate sym)) 0x31#8, run := Run.idle,
               hdrInDone := true, mapValid := false, tree := .none, nNodes := 0#10, nLeaves := 0#9,
               result := BitVec.ofNat 64 off }

/-- HDR_FLATTEN followed by HDR_RECREATE of the same bytes, on any other block, rebuilds the same tree, for every tree of
at most NODE_CAP nodes and for the empty tree (R236). -/
def Obligations.HeaderRoundTrip : Prop :=
  ∀ (sym : Symbol) (s u : State), s.Ready → s.Served → 3 ≤ s.host.grant → s.tree ≠ .none → storeNodes s.tree ≤ 511 →
    s.hdrOutDone = false → u.Ready → u.Served → 3 ≤ u.host.grant → u.hdrInDone = false →
    ∃ t h v, exec (.hdrFlatten sym) s = .next t ∧ t.env.hdrOut = some h ∧ parse h = .ok s.tree ∧
      exec (.hdrRecreate sym) { u with env := { u.env with hdrIn := h } } = .next v ∧
      v.status.done = true ∧ v.tree = s.tree

/-! ## Code map (44_code_map.md) -/

/-- MAP_BUILD completes on every tree whose leaves are distinct, the empty tree among them: each leaf's symbol has the
path from the root as its code, no other symbol is present, RESULT is the number of present entries, and all else is as
before (R250, R252). -/
def Obligations.MapBuildCompletes : Prop :=
  ∀ (sym : Symbol) (s : State), s.Ready → 1 ≤ s.host.grant → s.tree ≠ .none →
    (∀ r, storeRoot s.tree = some r → (treeLeaves r).Nodup) →
    ∃ t, exec (.mapBuild sym) s = .next t ∧ t.mapValid = true ∧
      (∀ b p, (symGet t.map b = { present := true, code := p }) ↔
        ∃ r, storeRoot s.tree = some r ∧ treeAt r p = some (.leaf b)) ∧
      (∀ b, (symGet t.map b).present = false → symGet t.map b = { present := false, code := [] }) ∧
      t.result.toNat = storeLeaves s.tree ∧
      t = { s with status := completedStatus s, cur := latched s (encode (.mapBuild sym)) 0x40#8, run := Run.idle,
                   mapValid := true, map := t.map, result := t.result }

/-- MAP_BUILD of a tree with two leaves of one symbol faults DUP_SYMBOL, its detail such a symbol, with MAP_VALID 0 and
RESULT as before (R252, R253, R330). -/
def Obligations.DuplicateLeavesFault : Prop :=
  ∀ (sym : Symbol) (s : State) (r : Tree), s.Ready → 1 ≤ s.host.grant → storeRoot s.tree = some r →
    ¬(treeLeaves r).Nodup →
    ∃ t d, exec (.mapBuild sym) s = .next t ∧ 2 ≤ (treeLeaves r).count d ∧
      t = { s with status := faultedStatus s .dupSymbol d, faultOp := 0x40#8,
                   cur := latched s (encode (.mapBuild sym)) 0x40#8, run := Run.idle, mapValid := false, map := t.map }

/-- The codes of a tree with distinct leaves are prefix-free, and each is as long as its leaf is deep: at most 255 bits
for a tree the store holds (R14, R251). -/
def Obligations.CodesArePrefixFree : Prop :=
  ∀ (r : Tree), (treeLeaves r).Nodup →
    (∀ a b : Symbol, a ∈ treeLeaves r → b ∈ treeLeaves r → a ≠ b →
      ¬(symGet (walk r [] clearedMap).1 a).code <+: (symGet (walk r [] clearedMap).1 b).code) ∧
    (∀ a : Symbol, a ∈ treeLeaves r → treeAt r (symGet (walk r [] clearedMap).1 a).code = some (.leaf a)) ∧
    (treeSize r ≤ Config.nodeCap → ∀ a ∈ treeLeaves r, (symGet (walk r [] clearedMap).1 a).code.length ≤ Config.maxCodeLen)

/-- The weighted sum of code lengths over the present symbols of a table (R201). -/
def codeCost (freq : Vector Count 256) (code : Symbol → List Bit) : Nat :=
  ((presentSymbols freq).map fun b => (symGet freq b).toNat * (code b).length).sum

/-- OPTIMALITY: the codes of the tree that TREE_BUILD makes of a table have the least weighted sum of code length times
frequency that any binary prefix code of the present symbols has (R201). -/
def Obligations.BuiltCodesAreOptimal : Prop :=
  ∀ (freq : Vector Count 256) (code : Symbol → List Bit),
    (∀ a ∈ presentSymbols freq, ∀ b ∈ presentSymbols freq, a ≠ b → ¬ code a <+: code b) →
    codeCost freq (fun b => (symGet (mapOf (builtStore freq)).1 b).code) ≤ codeCost freq code

/-- MAP_READ completes while `MAP_VALID = 1`: RESULT is the present bit at 31 with the code's length below it, bit
`i mod 32` of CODE`(i div 32)` is `code[i]`, 0 beyond the code's end, and all else is as before (R48, R256). -/
def Obligations.MapReadCompletes : Prop :=
  ∀ (sym : Symbol) (s : State), s.Ready → 1 ≤ s.host.grant → s.mapValid = true →
    ∃ t, exec (.mapRead sym) s = .next t ∧
      t.result = (if (symGet s.map sym).present then 0x80000000#64 else 0#64) |||
        BitVec.ofNat 64 (symGet s.map sym).code.length ∧
      (∀ k : Fin 8, ∀ j : Fin 32, t.codeWin[k].getLsbD j.val = (symGet s.map sym).code.getD (32 * k.val + j.val) false) ∧
      t = { s with status := completedStatus s, cur := latched s (encode (.mapRead sym)) 0x41#8, run := Run.idle,
                   result := t.result, codeWin := t.codeWin }

/-! ## Packer and unpacker (45_bitstream.md) -/

/-- ENCODE completes when every request is answered, the source ends and every byte has a code: the sink receives the
codes in input order, RESULT counts the bytes, the cursor is at the end, and all else is as before (R270, R272). -/
def Obligations.EncodeCompletes : Prop :=
  ∀ (sym : Symbol) (s : State), s.Ready → s.Served → s.env.inEnding = .ends → s.mapValid = true → s.hdrOutDone = true →
    (∀ b ∈ s.env.bytesLeft, (symGet s.map b).present = true) → s.env.bytesLeft.length < 2 ^ 64 →
    encodeSteps s.map s.env.bytesLeft ≤ s.host.grant →
    exec (.encode sym) s = .next
      { s with status := completedStatus s, cur := latched s (encode (.encode sym)) 0x50#8, run := Run.idle,
               result := BitVec.ofNat 64 s.env.bytesLeft.length,
               env := { s.env with inCursor := s.env.inCursor + s.env.bytesLeft.length,
                                   bitsOut := s.env.bitsOut ++ payload s.map s.env.bytesLeft } }

/-- A byte that has no code stops ENCODE with NO_CODE, the byte as detail and RESULT the bytes encoded before; nothing is
written for it (R272, R329). -/
def Obligations.ByteWithoutCodeFaults : Prop :=
  ∀ (s : State) (b : Symbol), s.run.phase = .answered (.encByte (.value (.byte b))) →
    (symGet s.map b).present = false →
    seqStep s = { s with status := faultedStatus s .noCode b, faultOp := s.cur.prim, run := Run.idle,
                         result := s.run.nCount }

/-- The checks at a command's start, in their order, before any port request: HDR_FLATTEN, MAP_BUILD and DECODE fault
NO_TREE while TSTATE is NONE, MAP_READ and ENCODE fault NO_MAP while MAP_VALID is 0, and only then a breach of the bit
ports' contract is SEQ_ERR, details 1 to 4; nothing but the fault fields changes (R323, R324, R325, R342). -/
def Obligations.PreconditionFaults : Prop :=
  ∀ (sym : Symbol) (s : State), s.Ready → 1 ≤ s.host.grant →
    let faults := fun (i : Instr) (name : FaultName) (d : FaultByte) =>
      exec i s = .next { s with status := faultedStatus s name d, faultOp := i.opcode,
                                cur := latched s (encode i) i.opcode, run := Run.idle }
    (s.tree = .none → faults (.hdrFlatten sym) .noTree 0#8 ∧ faults (.mapBuild sym) .noTree 0#8 ∧
      faults (.decode sym) .noTree 0#8) ∧
    (s.mapValid = false → faults (.mapRead sym) .noMap 0#8 ∧ faults (.encode sym) .noMap 0#8) ∧
    (s.tree ≠ .none → s.hdrOutDone = true → faults (.hdrFlatten sym) .seqErr 1#8) ∧
    (s.mapValid = true → s.hdrOutDone = false → faults (.encode sym) .seqErr 2#8) ∧
    (s.hdrInDone = true → faults (.hdrRecreate sym) .seqErr 3#8) ∧
    (s.tree ≠ .none → s.hdrInDone = false → faults (.decode sym) .seqErr 4#8)

/-- DECODE reads no bit where the tree is not full: of the empty tree it completes with no port request and RESULT 0, of a
single leaf it writes the leaf's symbol ARG times and RESULT is ARG; all else is as before (R280). -/
def Obligations.DecodeWithoutBitsCompletes : Prop :=
  ∀ (sym : Symbol) (s : State), s.Ready → s.hdrInDone = true →
    (s.tree = .empty → 1 ≤ s.host.grant →
      exec (.decode sym) s = .next
        { s with status := completedStatus s, cur := latched s (encode (.decode sym)) 0x51#8, run := Run.idle,
                 result := 0#64 }) ∧
    (∀ b, s.tree = .leaf b → s.Served → countSteps s.arg.toNat ≤ s.host.grant →
      exec (.decode sym) s = .next
        { s with status := completedStatus s, cur := latched s (encode (.decode sym)) 0x51#8, run := Run.idle,
                 result := s.arg.zeroExtend 64,
                 env := { s.env with outBytes := s.env.outBytes ++ List.replicate s.arg.toNat b } })

/-- Answers that begin with END: the next listed one is neither bit 0 nor bit 1, or none is listed and the source ends (R96,
R134). -/
def endsBits (tail : List (BitVec 2)) (ending : Ending) : Prop :=
  (∀ r, tail.head? = some r → r ≠ 0b00#2 ∧ r ≠ 0b01#2) ∧ (tail = [] → ending = .ends)

/-- DECODE of a full tree completes on a payload: when the answers to come are the paths of leaves one after another, and
then END, listed or where the source ends, the leaves' symbols are written in order, RESULT counts them, and all else is
as before (R134, R278, R280). The cursor passes the bits read (R98); that it also passes an END listed among the answers is
the model's reading (assumption log entry 8). -/
def Obligations.DecodeFullCompletes : Prop :=
  ∀ (sym : Symbol) (s : State) (z o : Tree) (codes : List (Symbol × List Bit)) (tail : List (BitVec 2)),
    s.Ready → s.Served → s.tree = .full z o → s.hdrInDone = true →
    (∀ c ∈ codes, treeAt (.node z o) c.2 = some (.leaf c.1)) → codes.length < 2 ^ 64 →
    s.env.bitsLeft = (codes.flatMap (·.2)).map bitAnswer ++ tail → endsBits tail s.env.bitsEnding →
    decodeSteps (codes.flatMap (·.2)).length codes.length ≤ s.host.grant →
    exec (.decode sym) s = .next
      { s with status := completedStatus s, cur := latched s (encode (.decode sym)) 0x51#8, run := Run.idle,
               result := BitVec.ofNat 64 codes.length,
               env := { s.env with bitCursor := s.env.bitCursor + (codes.flatMap (·.2)).length + (tail.take 1).length,
                                   outBytes := s.env.outBytes ++ codes.map (·.1) } }

/-- END while the decode position is not the root is BITS_TRUNCATED, whatever value stands for END; at the root it is
no fault and DECODE ends (R134, R280, R327). -/
def Obligations.EndWithinCodeFaults : Prop :=
  ∀ (s : State) (r : BitVec 2) (p : List Bit), s.run.phase = .answered (.decBit (.value r)) →
    s.run.decPos = some p → r ≠ 0b00#2 → r ≠ 0b01#2 →
    (p ≠ [] → seqStep s = { s with status := faultedStatus s .bitsTruncated 0#8, faultOp := s.cur.prim, run := Run.idle,
                                   result := s.run.nCount }) ∧
    (p = [] → s.run.todo = [] → seqStep s = { s with status := completedStatus s, run := Run.idle,
                                                      result := s.run.nCount })

/-! ## Sequences (46_macro.md) -/

/-- COMPRESS completes on a rewindable byte source that ends, at its first byte, when every request is answered: the table
counts the bytes, the tree is the one built from it, the sink holds its header and then the payload, MAP is the tree's map,
RESULT counts the bytes, and what COMPRESS does not name is as before (R300). -/
def Obligations.CompressCompletes : Prop :=
  ∀ (sym : Symbol) (s : State), s.Ready → s.Served → s.env.inEnding = .ends → s.env.inCursor = 0 → s.env.inLater = [] →
    (∀ b, s.env.inBytes.count b < 2 ^ 32) →
    let freq := countTable s.env.inBytes
    let tree := builtStore freq
    let map := (mapOf tree).1
    countSteps s.env.inBytes.length + encodeSteps map s.env.inBytes + 3 ≤ s.host.grant →
    exec (.compress sym) s = .next
      { s with status := completedStatus s, cur := latched s (encode (.compress sym)) 0x50#8, run := Run.idle,
               hdrOutDone := true, hdrInDone := false, freq := freq, tree := tree,
               nNodes := BitVec.ofNat 10 (storeNodes tree), nLeaves := BitVec.ofNat 9 (storeLeaves tree),
               map := map, mapValid := true, result := BitVec.ofNat 64 s.env.inBytes.length,
               env := { s.env with inCursor := s.env.inBytes.length, hdrOut := some (headerOf tree),
                                   bitsOut := s.env.bitsOut ++ payload map s.env.inBytes } }

/-- DECOMPRESS completes when every request is answered and the header parses: for the empty tree nothing is written and
no bit read; for a single leaf its symbol is written ARG times and no bit read; for a full tree the symbols whose paths
the bits spell, up to an END, listed or where the source ends; the tree is the header's, MAP_VALID 0, and what DECOMPRESS
does not name is as before (R134, R302). The cursor passes the bits read (R98); that it also passes an END listed among the
answers is the model's reading (assumption log entry 8). -/
def Obligations.DecompressCompletes : Prop :=
  ∀ (sym : Symbol) (s : State) (r : TreeStore), s.Ready → s.Served → parse s.env.hdrIn = .ok r →
    let ends := fun (written : List Symbol) (bitsRead : Nat) =>
      exec (.decompress sym) s = .next
        { s with status := completedStatus s, cur := latched s (encode (.decompress sym)) 0x51#8, run := Run.idle,
                 hdrOutDone := false, hdrInDone := true, mapValid := false, tree := r,
                 nNodes := BitVec.ofNat 10 (storeNodes r), nLeaves := BitVec.ofNat 9 (storeLeaves r),
                 result := BitVec.ofNat 64 written.length,
                 env := { s.env with bitCursor := s.env.bitCursor + bitsRead,
                                     outBytes := s.env.outBytes ++ written } }
    (r = .empty → 3 ≤ s.host.grant → ends [] 0) ∧
    (∀ b, r = .leaf b → countSteps s.arg.toNat + 3 ≤ s.host.grant → ends (List.replicate s.arg.toNat b) 0) ∧
    (∀ z o, ∀ codes : List (Symbol × List Bit), ∀ tail : List (BitVec 2), r = .full z o →
      (∀ c ∈ codes, treeAt (.node z o) c.2 = some (.leaf c.1)) → codes.length < 2 ^ 64 →
      s.env.bitsLeft = (codes.flatMap (·.2)).map bitAnswer ++ tail → endsBits tail s.env.bitsEnding →
      decodeSteps (codes.flatMap (·.2)).length codes.length + 3 ≤ s.host.grant →
      ends (codes.map (·.1)) ((codes.flatMap (·.2)).length + (tail.take 1).length))

/-- THE ROUND TRIP: for every byte string whose symbols each occur fewer than `2^CNT_W` times, COMPRESS followed by
DECOMPRESS of the header and bits it wrote, with ARG its RESULT where the tree is a single leaf, writes exactly that byte
string, for the empty string and a single-symbol string too (R284). -/
def Obligations.CompressDecompressRoundTrip : Prop :=
  ∀ (sym : Symbol) (s u : State), s.Ready → s.Served → s.env.inEnding = .ends → s.env.inCursor = 0 →
    s.env.inLater = [] → s.env.bitsOut = [] →
    (∀ b, s.env.inBytes.count b < 2 ^ 32) → u.Ready → u.Served → u.env.outBytes = [] →
    ∃ n, ∀ g ≥ n, ∃ t h, exec (.compress sym) { s with host := { s.host with grant := g } } = .next t ∧
      t.status.done = true ∧ t.env.hdrOut = some h ∧
      ∀ a : Word32, ((∃ b, t.tree = .leaf b) → a.toNat = t.result.toNat) →
        ∃ v, exec (.decompress sym)
            { u with
              arg := a
              host := { u.host with grant := g }
              env := { u.env with
                hdrIn := h, bitsIn := t.env.bitsOut.map bitAnswer, bitsEnding := .ends, bitCursor := 0 } } = .next v ∧
          v.status.done = true ∧ v.env.outBytes = s.env.inBytes

/-! ## Faults of the ports (60_exceptions.md) -/

/-- A request that answers IOERR faults IO_ERROR at the next computation, with the request's identity as detail and
FAULTOP the running body's opcode. RESULT takes the count of the counting bodies and is as before for the others; no
other block state changes: the tree, the map, the table and the session flags are as before. The environment has spent
one draw, and where it did not carry the request out it is otherwise as before (R97, R114, R331, R340; that the
environment may have carried it out is the model's choice, assumption log entry 6). -/
def Obligations.FailedRequestFaults : Prop :=
  ∀ (s : State) (w : Wait) (carriedOut : Bool) (ds : List Draw),
    s.run.phase = .asking w → s.env.draws = .failed carriedOut :: ds →
    ∃ e, seqStep (seqStep s) =
        { s with status := faultedStatus s .ioError w.requestId, faultOp := s.cur.prim, run := Run.idle, env := e,
                 result := match w with
                   | .rewind => s.result
                   | .hdrWrite _ => s.result
                   | .hdrRead => s.result
                   | .countByte => s.run.nCount
                   | .encByte => s.run.nCount
                   | .encBit _ _ => s.run.nCount
                   | .leafWrite _ => s.run.nCount
                   | .decBit => s.run.nCount
                   | .symWrite _ => s.run.nCount } ∧
      e.draws = ds ∧ (carriedOut = false → e = { s.env with draws := ds })

/-- A request that is never answered leaves the command BUSY for ever: no number of steps changes anything, and a
hardware reset ends it (R99, R360). That the reset takes the abandoned request's draw off the list is the model's choice
(assumption log entry 7). -/
def Obligations.UnansweredRequestWaits : Prop :=
  ∀ (s : State) (w : Wait) (ds : List Draw), s.run.phase = .asking w → s.env.draws = .unanswered :: ds →
    (∀ n, seqRun n s = s) ∧ s.hardReset.status.busy = false ∧ s.hardReset.env.draws = ds

/-- A source that never ends: FREQ_COUNT, ENCODE and COMPRESS over a byte source that never answers EOF, and DECODE of a
full tree and DECOMPRESS of a full tree's header over a bit source that never answers END, never complete, however many
steps they are granted and whatever the ports answer; served and started in order they are still BUSY, FREQ_COUNT and
COMPRESS after every number of steps below 2^32, ENCODE with a code for every symbol, DECODE and DECOMPRESS after every
number below 2^64; and a hardware reset stops every one of them (R99, R378). Beyond those numbers a full counter's FREQ_OVF
or a full count's CNT_OVF may fault them (R322, R332, assumption log entry 16). -/
def Obligations.UnendingSourceNeverCompletes : Prop :=
  ∀ (sym : Symbol) (k : Nat) (s t : State), s.Ready →
    (s.env.inEnding = .endless k → ∀ i ∈ [Instr.freqCount sym, .encode sym, .compress sym],
      exec i s = .next t → t.status.done = false) ∧
    (s.env.bitsEnding = .endless k → (∀ r ∈ s.env.bitsLeft, r = 0b00#2 ∨ r = 0b01#2) →
      (storeState s.tree = .full → exec (.decode sym) s = .next t → t.status.done = false) ∧
      (∀ z o, parse s.env.hdrIn = .ok (.full z o) → exec (.decompress sym) s = .next t → t.status.done = false)) ∧
    (s.env.inEnding = .endless k → s.Served → s.host.grant < 2 ^ 32 → ∀ i ∈ [Instr.freqCount sym, .compress sym],
      exec i s = .next t → t.status.busy = true) ∧
    (s.env.inEnding = .endless k → s.Served → s.mapValid = true → s.hdrOutDone = true →
      (∀ b, (symGet s.map b).present = true) → s.host.grant < 2 ^ 64 →
      exec (.encode sym) s = .next t → t.status.busy = true) ∧
    (s.env.bitsEnding = .endless k → s.Served → (∀ r ∈ s.env.bitsLeft, r = 0b00#2 ∨ r = 0b01#2) →
      s.host.grant < 2 ^ 64 →
      (storeState s.tree = .full → s.hdrInDone = true → exec (.decode sym) s = .next t → t.status.busy = true) ∧
      (∀ z o, parse s.env.hdrIn = .ok (.full z o) → exec (.decompress sym) s = .next t → t.status.busy = true)) ∧
    (∀ i ∈ [Instr.freqCount sym, .encode sym, .compress sym, .decode sym, .decompress sym],
      exec i s = .next t → t.hardReset.status.busy = false)

/-! ## Frames -/

/-- The commands that make no port request change nothing but what their rules name, whatever state they are given
while no command runs; accepted while no fault stands, those but SOFT_RESET and CLEAR_FAULT leave DROPPED and, unless they
fault, the fault fields, and latch their operands (R155-R158, R170, R172, R173, R200, R252, R256). -/
def Obligations.FrameOfPortlessCommands : Prop :=
  ∀ (sym : Symbol) (s t : State) (i : Instr),
    i ∈ [Instr.nop sym, .softReset sym, .clearFault sym, .newSession sym, .freqClear sym, .freqWrite sym, .freqRead sym,
      .treeBuild sym, .mapBuild sym, .mapRead sym] →
    s.status.busy = false → exec i s = .next t →
    Framed i s t ∧ t.env = s.env ∧
    (s.status.fault = false → i ∉ [Instr.softReset sym, .clearFault sym] → StatusFramed i s t)

/-- The commands that make port requests change nothing but what their rules name, at every moment of their run and
however they end, whatever the ports answer; accepted while no fault stands, they leave DROPPED and, unless they fault, the
fault fields, and latch their operands (R171, R174, R222, R235, R272, R280, R300, R302). -/
def Obligations.FrameOfPortCommands : Prop :=
  ∀ (sym : Symbol) (s t : State) (i : Instr),
    i ∈ [Instr.freqCount sym, .inRewind sym, .hdrFlatten sym, .hdrRecreate sym, .encode sym, .decode sym, .compress sym,
      .decompress sym] →
    s.status.busy = false → exec i s = .next t →
    Framed i s t ∧ (s.status.fault = false → StatusFramed i s t)

/-! ## Invariants -/

/-- Reset meets every invariant. -/
def Obligations.ResetMeetsInvariants : Prop :=
  State.reset.StatusInv ∧ State.reset.TreeInv ∧ State.reset.MapInv ∧ State.reset.DecodeInv

/-- Every step keeps STATUS and the sequencer in agreement: DONE and FAULT are never both 1, no code stands without a
fault, no unlisted code is raised, BUSY is 1 exactly while a command runs (R34, R153, R320, R340). -/
def Obligations.StepKeepsStatusInvariant : Prop :=
  ∀ s t : State, s.StatusInv → step s = .next t → t.StatusInv

/-- Every step keeps TREEINFO the size of the tree, and the tree within its store (R13, R38, R44, R46). -/
def Obligations.StepKeepsTreeInvariant : Prop :=
  ∀ s t : State, s.TreeInv → step s = .next t → t.TreeInv

/-- Every step keeps MAP_VALID's meaning: while it is 1, MAP is the map of the current tree (R51). -/
def Obligations.StepKeepsMapInvariant : Prop :=
  ∀ s t : State, s.MapInv → step s = .next t → t.MapInv

/-- Every step keeps the decode position at an internal node, and from such a position no step raises ABSENT_BRANCH: the
fault is unreachable (R278, R279, R328). -/
def Obligations.AbsentBranchUnreachable : Prop :=
  ∀ s t : State, s.DecodeInv → step s = .next t →
    t.DecodeInv ∧ (s.status.faultCode ≠ 0x08#8 → t.status.faultCode ≠ 0x08#8)

/-- An accepted command that has ended has either completed or faulted: exactly one of DONE and FAULT is 1 (R374). -/
def Obligations.EndedCommandIsDoneOrFaulted : Prop :=
  ∀ (i : Instr) (s t : State), s.Ready → exec i s = .next t → t.status.busy = false →
    (t.status.done = true ∧ t.status.fault = false) ∨ (t.status.done = false ∧ t.status.fault = true)
end

