-- ==== Sys2Proof/Laws/State.lean ====
section
/-! SUPPORT. Each named update of State, field by field: what it writes and what it leaves. -/

namespace Sys2Proof.Machine

variable (s : State)

/-! ## setTree -/

@[simp] theorem State.setTree_status (t : TreeStore) : (s.setTree t).status = s.status := rfl
@[simp] theorem State.setTree_arg (t : TreeStore) : (s.setTree t).arg = s.arg := rfl
@[simp] theorem State.setTree_result (t : TreeStore) : (s.setTree t).result = s.result := rfl
@[simp] theorem State.setTree_faultOp (t : TreeStore) : (s.setTree t).faultOp = s.faultOp := rfl
@[simp] theorem State.setTree_nNodes (t : TreeStore) : (s.setTree t).nNodes = BitVec.ofNat 10 (storeNodes t) := rfl
@[simp] theorem State.setTree_nLeaves (t : TreeStore) : (s.setTree t).nLeaves = BitVec.ofNat 9 (storeLeaves t) := rfl
@[simp] theorem State.setTree_codeWin (t : TreeStore) : (s.setTree t).codeWin = s.codeWin := rfl
@[simp] theorem State.setTree_freq (t : TreeStore) : (s.setTree t).freq = s.freq := rfl
@[simp] theorem State.setTree_tree (t : TreeStore) : (s.setTree t).tree = t := rfl
@[simp] theorem State.setTree_map (t : TreeStore) : (s.setTree t).map = s.map := rfl
@[simp] theorem State.setTree_mapValid (t : TreeStore) : (s.setTree t).mapValid = s.mapValid := rfl
@[simp] theorem State.setTree_hdrOutDone (t : TreeStore) : (s.setTree t).hdrOutDone = s.hdrOutDone := rfl
@[simp] theorem State.setTree_hdrInDone (t : TreeStore) : (s.setTree t).hdrInDone = s.hdrInDone := rfl
@[simp] theorem State.setTree_cur (t : TreeStore) : (s.setTree t).cur = s.cur := rfl
@[simp] theorem State.setTree_run (t : TreeStore) : (s.setTree t).run = s.run := rfl
@[simp] theorem State.setTree_env (t : TreeStore) : (s.setTree t).env = s.env := rfl
@[simp] theorem State.setTree_host (t : TreeStore) : (s.setTree t).host = s.host := rfl

/-! ## setDropped -/

@[simp] theorem State.setDropped_status : (s.setDropped).status = { s.status with dropped := true } := rfl
@[simp] theorem State.setDropped_arg : (s.setDropped).arg = s.arg := rfl
@[simp] theorem State.setDropped_result : (s.setDropped).result = s.result := rfl
@[simp] theorem State.setDropped_faultOp : (s.setDropped).faultOp = s.faultOp := rfl
@[simp] theorem State.setDropped_nNodes : (s.setDropped).nNodes = s.nNodes := rfl
@[simp] theorem State.setDropped_nLeaves : (s.setDropped).nLeaves = s.nLeaves := rfl
@[simp] theorem State.setDropped_codeWin : (s.setDropped).codeWin = s.codeWin := rfl
@[simp] theorem State.setDropped_freq : (s.setDropped).freq = s.freq := rfl
@[simp] theorem State.setDropped_tree : (s.setDropped).tree = s.tree := rfl
@[simp] theorem State.setDropped_map : (s.setDropped).map = s.map := rfl
@[simp] theorem State.setDropped_mapValid : (s.setDropped).mapValid = s.mapValid := rfl
@[simp] theorem State.setDropped_hdrOutDone : (s.setDropped).hdrOutDone = s.hdrOutDone := rfl
@[simp] theorem State.setDropped_hdrInDone : (s.setDropped).hdrInDone = s.hdrInDone := rfl
@[simp] theorem State.setDropped_cur : (s.setDropped).cur = s.cur := rfl
@[simp] theorem State.setDropped_run : (s.setDropped).run = s.run := rfl
@[simp] theorem State.setDropped_env : (s.setDropped).env = s.env := rfl
@[simp] theorem State.setDropped_host : (s.setDropped).host = s.host := rfl

/-! ## accept -/

@[simp] theorem State.accept_status (w : Word32) (todo : List Body) : (s.accept w todo).status = { s.status with busy := true, done := false } := rfl
@[simp] theorem State.accept_arg (w : Word32) (todo : List Body) : (s.accept w todo).arg = s.arg := rfl
@[simp] theorem State.accept_result (w : Word32) (todo : List Body) : (s.accept w todo).result = s.result := rfl
@[simp] theorem State.accept_faultOp (w : Word32) (todo : List Body) : (s.accept w todo).faultOp = s.faultOp := rfl
@[simp] theorem State.accept_nNodes (w : Word32) (todo : List Body) : (s.accept w todo).nNodes = s.nNodes := rfl
@[simp] theorem State.accept_nLeaves (w : Word32) (todo : List Body) : (s.accept w todo).nLeaves = s.nLeaves := rfl
@[simp] theorem State.accept_codeWin (w : Word32) (todo : List Body) : (s.accept w todo).codeWin = s.codeWin := rfl
@[simp] theorem State.accept_freq (w : Word32) (todo : List Body) : (s.accept w todo).freq = s.freq := rfl
@[simp] theorem State.accept_tree (w : Word32) (todo : List Body) : (s.accept w todo).tree = s.tree := rfl
@[simp] theorem State.accept_map (w : Word32) (todo : List Body) : (s.accept w todo).map = s.map := rfl
@[simp] theorem State.accept_mapValid (w : Word32) (todo : List Body) : (s.accept w todo).mapValid = s.mapValid := rfl
@[simp] theorem State.accept_hdrOutDone (w : Word32) (todo : List Body) : (s.accept w todo).hdrOutDone = s.hdrOutDone := rfl
@[simp] theorem State.accept_hdrInDone (w : Word32) (todo : List Body) : (s.accept w todo).hdrInDone = s.hdrInDone := rfl
@[simp] theorem State.accept_cur (w : Word32) (todo : List Body) : (s.accept w todo).cur = { op := wordOp w, sym := wordSym w, arg := s.arg, prim := wordOp w } := rfl
@[simp] theorem State.accept_run (w : Word32) (todo : List Body) : (s.accept w todo).run = { Run.idle with phase := .begin, todo := todo } := rfl
@[simp] theorem State.accept_env (w : Word32) (todo : List Body) : (s.accept w todo).env = s.env := rfl
@[simp] theorem State.accept_host (w : Word32) (todo : List Body) : (s.accept w todo).host = s.host := rfl

/-! ## complete -/

@[simp] theorem State.complete_status : (s.complete).status = { s.status with busy := false, done := true } := rfl
@[simp] theorem State.complete_arg : (s.complete).arg = s.arg := rfl
@[simp] theorem State.complete_result : (s.complete).result = s.result := rfl
@[simp] theorem State.complete_faultOp : (s.complete).faultOp = s.faultOp := rfl
@[simp] theorem State.complete_nNodes : (s.complete).nNodes = s.nNodes := rfl
@[simp] theorem State.complete_nLeaves : (s.complete).nLeaves = s.nLeaves := rfl
@[simp] theorem State.complete_codeWin : (s.complete).codeWin = s.codeWin := rfl
@[simp] theorem State.complete_freq : (s.complete).freq = s.freq := rfl
@[simp] theorem State.complete_tree : (s.complete).tree = s.tree := rfl
@[simp] theorem State.complete_map : (s.complete).map = s.map := rfl
@[simp] theorem State.complete_mapValid : (s.complete).mapValid = s.mapValid := rfl
@[simp] theorem State.complete_hdrOutDone : (s.complete).hdrOutDone = s.hdrOutDone := rfl
@[simp] theorem State.complete_hdrInDone : (s.complete).hdrInDone = s.hdrInDone := rfl
@[simp] theorem State.complete_cur : (s.complete).cur = s.cur := rfl
@[simp] theorem State.complete_run : (s.complete).run = Run.idle := rfl
@[simp] theorem State.complete_env : (s.complete).env = s.env := rfl
@[simp] theorem State.complete_host : (s.complete).host = s.host := rfl

/-! ## raise -/

@[simp] theorem State.raise_status (name : FaultName) (d : FaultByte) : (s.raise name d).status = faultedStatus s name d := rfl
@[simp] theorem State.raise_arg (name : FaultName) (d : FaultByte) : (s.raise name d).arg = s.arg := rfl
@[simp] theorem State.raise_result (name : FaultName) (d : FaultByte) : (s.raise name d).result = s.result := rfl
@[simp] theorem State.raise_faultOp (name : FaultName) (d : FaultByte) : (s.raise name d).faultOp = s.cur.prim := rfl
@[simp] theorem State.raise_nNodes (name : FaultName) (d : FaultByte) : (s.raise name d).nNodes = s.nNodes := rfl
@[simp] theorem State.raise_nLeaves (name : FaultName) (d : FaultByte) : (s.raise name d).nLeaves = s.nLeaves := rfl
@[simp] theorem State.raise_codeWin (name : FaultName) (d : FaultByte) : (s.raise name d).codeWin = s.codeWin := rfl
@[simp] theorem State.raise_freq (name : FaultName) (d : FaultByte) : (s.raise name d).freq = s.freq := rfl
@[simp] theorem State.raise_tree (name : FaultName) (d : FaultByte) : (s.raise name d).tree = s.tree := rfl
@[simp] theorem State.raise_map (name : FaultName) (d : FaultByte) : (s.raise name d).map = s.map := rfl
@[simp] theorem State.raise_mapValid (name : FaultName) (d : FaultByte) : (s.raise name d).mapValid = s.mapValid := rfl
@[simp] theorem State.raise_hdrOutDone (name : FaultName) (d : FaultByte) : (s.raise name d).hdrOutDone = s.hdrOutDone := rfl
@[simp] theorem State.raise_hdrInDone (name : FaultName) (d : FaultByte) : (s.raise name d).hdrInDone = s.hdrInDone := rfl
@[simp] theorem State.raise_cur (name : FaultName) (d : FaultByte) : (s.raise name d).cur = s.cur := rfl
@[simp] theorem State.raise_run (name : FaultName) (d : FaultByte) : (s.raise name d).run = Run.idle := rfl
@[simp] theorem State.raise_env (name : FaultName) (d : FaultByte) : (s.raise name d).env = s.env := rfl
@[simp] theorem State.raise_host (name : FaultName) (d : FaultByte) : (s.raise name d).host = s.host := rfl

/-! ## clearFault -/

@[simp] theorem State.clearFault_status : (s.clearFault).status = { s.status with fault := false, dropped := false, faultCode := 0#8, faultDetail := 0#8 } := rfl
@[simp] theorem State.clearFault_arg : (s.clearFault).arg = s.arg := rfl
@[simp] theorem State.clearFault_result : (s.clearFault).result = s.result := rfl
@[simp] theorem State.clearFault_faultOp : (s.clearFault).faultOp = 0#8 := rfl
@[simp] theorem State.clearFault_nNodes : (s.clearFault).nNodes = s.nNodes := rfl
@[simp] theorem State.clearFault_nLeaves : (s.clearFault).nLeaves = s.nLeaves := rfl
@[simp] theorem State.clearFault_codeWin : (s.clearFault).codeWin = s.codeWin := rfl
@[simp] theorem State.clearFault_freq : (s.clearFault).freq = s.freq := rfl
@[simp] theorem State.clearFault_tree : (s.clearFault).tree = s.tree := rfl
@[simp] theorem State.clearFault_map : (s.clearFault).map = s.map := rfl
@[simp] theorem State.clearFault_mapValid : (s.clearFault).mapValid = s.mapValid := rfl
@[simp] theorem State.clearFault_hdrOutDone : (s.clearFault).hdrOutDone = s.hdrOutDone := rfl
@[simp] theorem State.clearFault_hdrInDone : (s.clearFault).hdrInDone = s.hdrInDone := rfl
@[simp] theorem State.clearFault_cur : (s.clearFault).cur = s.cur := rfl
@[simp] theorem State.clearFault_run : (s.clearFault).run = s.run := rfl
@[simp] theorem State.clearFault_env : (s.clearFault).env = s.env := rfl
@[simp] theorem State.clearFault_host : (s.clearFault).host = s.host := rfl

/-! ## resetBlock -/

@[simp] theorem State.resetBlock_status : (s.resetBlock).status = State.reset.status := rfl
@[simp] theorem State.resetBlock_arg : (s.resetBlock).arg = State.reset.arg := rfl
@[simp] theorem State.resetBlock_result : (s.resetBlock).result = State.reset.result := rfl
@[simp] theorem State.resetBlock_faultOp : (s.resetBlock).faultOp = State.reset.faultOp := rfl
@[simp] theorem State.resetBlock_nNodes : (s.resetBlock).nNodes = State.reset.nNodes := rfl
@[simp] theorem State.resetBlock_nLeaves : (s.resetBlock).nLeaves = State.reset.nLeaves := rfl
@[simp] theorem State.resetBlock_codeWin : (s.resetBlock).codeWin = State.reset.codeWin := rfl
@[simp] theorem State.resetBlock_freq : (s.resetBlock).freq = State.reset.freq := rfl
@[simp] theorem State.resetBlock_tree : (s.resetBlock).tree = State.reset.tree := rfl
@[simp] theorem State.resetBlock_map : (s.resetBlock).map = State.reset.map := rfl
@[simp] theorem State.resetBlock_mapValid : (s.resetBlock).mapValid = State.reset.mapValid := rfl
@[simp] theorem State.resetBlock_hdrOutDone : (s.resetBlock).hdrOutDone = State.reset.hdrOutDone := rfl
@[simp] theorem State.resetBlock_hdrInDone : (s.resetBlock).hdrInDone = State.reset.hdrInDone := rfl
@[simp] theorem State.resetBlock_cur : (s.resetBlock).cur = State.reset.cur := rfl
@[simp] theorem State.resetBlock_run : (s.resetBlock).run = State.reset.run := rfl
@[simp] theorem State.resetBlock_env : (s.resetBlock).env = s.env := rfl
@[simp] theorem State.resetBlock_host : (s.resetBlock).host = s.host := rfl

/-! ## setResult -/

@[simp] theorem State.setResult_status (v : Count64) : (s.setResult v).status = s.status := rfl
@[simp] theorem State.setResult_arg (v : Count64) : (s.setResult v).arg = s.arg := rfl
@[simp] theorem State.setResult_result (v : Count64) : (s.setResult v).result = v := rfl
@[simp] theorem State.setResult_faultOp (v : Count64) : (s.setResult v).faultOp = s.faultOp := rfl
@[simp] theorem State.setResult_nNodes (v : Count64) : (s.setResult v).nNodes = s.nNodes := rfl
@[simp] theorem State.setResult_nLeaves (v : Count64) : (s.setResult v).nLeaves = s.nLeaves := rfl
@[simp] theorem State.setResult_codeWin (v : Count64) : (s.setResult v).codeWin = s.codeWin := rfl
@[simp] theorem State.setResult_freq (v : Count64) : (s.setResult v).freq = s.freq := rfl
@[simp] theorem State.setResult_tree (v : Count64) : (s.setResult v).tree = s.tree := rfl
@[simp] theorem State.setResult_map (v : Count64) : (s.setResult v).map = s.map := rfl
@[simp] theorem State.setResult_mapValid (v : Count64) : (s.setResult v).mapValid = s.mapValid := rfl
@[simp] theorem State.setResult_hdrOutDone (v : Count64) : (s.setResult v).hdrOutDone = s.hdrOutDone := rfl
@[simp] theorem State.setResult_hdrInDone (v : Count64) : (s.setResult v).hdrInDone = s.hdrInDone := rfl
@[simp] theorem State.setResult_cur (v : Count64) : (s.setResult v).cur = s.cur := rfl
@[simp] theorem State.setResult_run (v : Count64) : (s.setResult v).run = s.run := rfl
@[simp] theorem State.setResult_env (v : Count64) : (s.setResult v).env = s.env := rfl
@[simp] theorem State.setResult_host (v : Count64) : (s.setResult v).host = s.host := rfl

/-! ## setCount -/

@[simp] theorem State.setCount_status (v : Count64) : (s.setCount v).status = s.status := rfl
@[simp] theorem State.setCount_arg (v : Count64) : (s.setCount v).arg = s.arg := rfl
@[simp] theorem State.setCount_result (v : Count64) : (s.setCount v).result = s.result := rfl
@[simp] theorem State.setCount_faultOp (v : Count64) : (s.setCount v).faultOp = s.faultOp := rfl
@[simp] theorem State.setCount_nNodes (v : Count64) : (s.setCount v).nNodes = s.nNodes := rfl
@[simp] theorem State.setCount_nLeaves (v : Count64) : (s.setCount v).nLeaves = s.nLeaves := rfl
@[simp] theorem State.setCount_codeWin (v : Count64) : (s.setCount v).codeWin = s.codeWin := rfl
@[simp] theorem State.setCount_freq (v : Count64) : (s.setCount v).freq = s.freq := rfl
@[simp] theorem State.setCount_tree (v : Count64) : (s.setCount v).tree = s.tree := rfl
@[simp] theorem State.setCount_map (v : Count64) : (s.setCount v).map = s.map := rfl
@[simp] theorem State.setCount_mapValid (v : Count64) : (s.setCount v).mapValid = s.mapValid := rfl
@[simp] theorem State.setCount_hdrOutDone (v : Count64) : (s.setCount v).hdrOutDone = s.hdrOutDone := rfl
@[simp] theorem State.setCount_hdrInDone (v : Count64) : (s.setCount v).hdrInDone = s.hdrInDone := rfl
@[simp] theorem State.setCount_cur (v : Count64) : (s.setCount v).cur = s.cur := rfl
@[simp] theorem State.setCount_run (v : Count64) : (s.setCount v).run = { s.run with nCount := v } := rfl
@[simp] theorem State.setCount_env (v : Count64) : (s.setCount v).env = s.env := rfl
@[simp] theorem State.setCount_host (v : Count64) : (s.setCount v).host = s.host := rfl

/-! ## resultCount -/

@[simp] theorem State.resultCount_status : (s.resultCount).status = s.status := rfl
@[simp] theorem State.resultCount_arg : (s.resultCount).arg = s.arg := rfl
@[simp] theorem State.resultCount_result : (s.resultCount).result = s.run.nCount := rfl
@[simp] theorem State.resultCount_faultOp : (s.resultCount).faultOp = s.faultOp := rfl
@[simp] theorem State.resultCount_nNodes : (s.resultCount).nNodes = s.nNodes := rfl
@[simp] theorem State.resultCount_nLeaves : (s.resultCount).nLeaves = s.nLeaves := rfl
@[simp] theorem State.resultCount_codeWin : (s.resultCount).codeWin = s.codeWin := rfl
@[simp] theorem State.resultCount_freq : (s.resultCount).freq = s.freq := rfl
@[simp] theorem State.resultCount_tree : (s.resultCount).tree = s.tree := rfl
@[simp] theorem State.resultCount_map : (s.resultCount).map = s.map := rfl
@[simp] theorem State.resultCount_mapValid : (s.resultCount).mapValid = s.mapValid := rfl
@[simp] theorem State.resultCount_hdrOutDone : (s.resultCount).hdrOutDone = s.hdrOutDone := rfl
@[simp] theorem State.resultCount_hdrInDone : (s.resultCount).hdrInDone = s.hdrInDone := rfl
@[simp] theorem State.resultCount_cur : (s.resultCount).cur = s.cur := rfl
@[simp] theorem State.resultCount_run : (s.resultCount).run = s.run := rfl
@[simp] theorem State.resultCount_env : (s.resultCount).env = s.env := rfl
@[simp] theorem State.resultCount_host : (s.resultCount).host = s.host := rfl

/-! ## setDecPos -/

@[simp] theorem State.setDecPos_status (p : List Bit) : (s.setDecPos p).status = s.status := rfl
@[simp] theorem State.setDecPos_arg (p : List Bit) : (s.setDecPos p).arg = s.arg := rfl
@[simp] theorem State.setDecPos_result (p : List Bit) : (s.setDecPos p).result = s.result := rfl
@[simp] theorem State.setDecPos_faultOp (p : List Bit) : (s.setDecPos p).faultOp = s.faultOp := rfl
@[simp] theorem State.setDecPos_nNodes (p : List Bit) : (s.setDecPos p).nNodes = s.nNodes := rfl
@[simp] theorem State.setDecPos_nLeaves (p : List Bit) : (s.setDecPos p).nLeaves = s.nLeaves := rfl
@[simp] theorem State.setDecPos_codeWin (p : List Bit) : (s.setDecPos p).codeWin = s.codeWin := rfl
@[simp] theorem State.setDecPos_freq (p : List Bit) : (s.setDecPos p).freq = s.freq := rfl
@[simp] theorem State.setDecPos_tree (p : List Bit) : (s.setDecPos p).tree = s.tree := rfl
@[simp] theorem State.setDecPos_map (p : List Bit) : (s.setDecPos p).map = s.map := rfl
@[simp] theorem State.setDecPos_mapValid (p : List Bit) : (s.setDecPos p).mapValid = s.mapValid := rfl
@[simp] theorem State.setDecPos_hdrOutDone (p : List Bit) : (s.setDecPos p).hdrOutDone = s.hdrOutDone := rfl
@[simp] theorem State.setDecPos_hdrInDone (p : List Bit) : (s.setDecPos p).hdrInDone = s.hdrInDone := rfl
@[simp] theorem State.setDecPos_cur (p : List Bit) : (s.setDecPos p).cur = s.cur := rfl
@[simp] theorem State.setDecPos_run (p : List Bit) : (s.setDecPos p).run = { s.run with decPos := some p } := rfl
@[simp] theorem State.setDecPos_env (p : List Bit) : (s.setDecPos p).env = s.env := rfl
@[simp] theorem State.setDecPos_host (p : List Bit) : (s.setDecPos p).host = s.host := rfl

/-! ## setForest -/

@[simp] theorem State.setForest_status (f : Forest) : (s.setForest f).status = s.status := rfl
@[simp] theorem State.setForest_arg (f : Forest) : (s.setForest f).arg = s.arg := rfl
@[simp] theorem State.setForest_result (f : Forest) : (s.setForest f).result = s.result := rfl
@[simp] theorem State.setForest_faultOp (f : Forest) : (s.setForest f).faultOp = s.faultOp := rfl
@[simp] theorem State.setForest_nNodes (f : Forest) : (s.setForest f).nNodes = s.nNodes := rfl
@[simp] theorem State.setForest_nLeaves (f : Forest) : (s.setForest f).nLeaves = s.nLeaves := rfl
@[simp] theorem State.setForest_codeWin (f : Forest) : (s.setForest f).codeWin = s.codeWin := rfl
@[simp] theorem State.setForest_freq (f : Forest) : (s.setForest f).freq = s.freq := rfl
@[simp] theorem State.setForest_tree (f : Forest) : (s.setForest f).tree = s.tree := rfl
@[simp] theorem State.setForest_map (f : Forest) : (s.setForest f).map = s.map := rfl
@[simp] theorem State.setForest_mapValid (f : Forest) : (s.setForest f).mapValid = s.mapValid := rfl
@[simp] theorem State.setForest_hdrOutDone (f : Forest) : (s.setForest f).hdrOutDone = s.hdrOutDone := rfl
@[simp] theorem State.setForest_hdrInDone (f : Forest) : (s.setForest f).hdrInDone = s.hdrInDone := rfl
@[simp] theorem State.setForest_cur (f : Forest) : (s.setForest f).cur = s.cur := rfl
@[simp] theorem State.setForest_run (f : Forest) : (s.setForest f).run = { s.run with forest := f } := rfl
@[simp] theorem State.setForest_env (f : Forest) : (s.setForest f).env = s.env := rfl
@[simp] theorem State.setForest_host (f : Forest) : (s.setForest f).host = s.host := rfl

/-! ## enterBody -/

@[simp] theorem State.enterBody_status (b : Body) (todo : List Body) : (s.enterBody b todo).status = s.status := rfl
@[simp] theorem State.enterBody_arg (b : Body) (todo : List Body) : (s.enterBody b todo).arg = s.arg := rfl
@[simp] theorem State.enterBody_result (b : Body) (todo : List Body) : (s.enterBody b todo).result = s.result := rfl
@[simp] theorem State.enterBody_faultOp (b : Body) (todo : List Body) : (s.enterBody b todo).faultOp = s.faultOp := rfl
@[simp] theorem State.enterBody_nNodes (b : Body) (todo : List Body) : (s.enterBody b todo).nNodes = s.nNodes := rfl
@[simp] theorem State.enterBody_nLeaves (b : Body) (todo : List Body) : (s.enterBody b todo).nLeaves = s.nLeaves := rfl
@[simp] theorem State.enterBody_codeWin (b : Body) (todo : List Body) : (s.enterBody b todo).codeWin = s.codeWin := rfl
@[simp] theorem State.enterBody_freq (b : Body) (todo : List Body) : (s.enterBody b todo).freq = s.freq := rfl
@[simp] theorem State.enterBody_tree (b : Body) (todo : List Body) : (s.enterBody b todo).tree = s.tree := rfl
@[simp] theorem State.enterBody_map (b : Body) (todo : List Body) : (s.enterBody b todo).map = s.map := rfl
@[simp] theorem State.enterBody_mapValid (b : Body) (todo : List Body) : (s.enterBody b todo).mapValid = s.mapValid := rfl
@[simp] theorem State.enterBody_hdrOutDone (b : Body) (todo : List Body) : (s.enterBody b todo).hdrOutDone = s.hdrOutDone := rfl
@[simp] theorem State.enterBody_hdrInDone (b : Body) (todo : List Body) : (s.enterBody b todo).hdrInDone = s.hdrInDone := rfl
@[simp] theorem State.enterBody_cur (b : Body) (todo : List Body) : (s.enterBody b todo).cur = { s.cur with prim := (bodyOpcode b).getD s.cur.prim } := rfl
@[simp] theorem State.enterBody_run (b : Body) (todo : List Body) : (s.enterBody b todo).run = { s.run with todo := todo } := rfl
@[simp] theorem State.enterBody_env (b : Body) (todo : List Body) : (s.enterBody b todo).env = s.env := rfl
@[simp] theorem State.enterBody_host (b : Body) (todo : List Body) : (s.enterBody b todo).host = s.host := rfl

/-! ## setAsking -/

@[simp] theorem State.setAsking_status (w : Wait) : (s.setAsking w).status = s.status := rfl
@[simp] theorem State.setAsking_arg (w : Wait) : (s.setAsking w).arg = s.arg := rfl
@[simp] theorem State.setAsking_result (w : Wait) : (s.setAsking w).result = s.result := rfl
@[simp] theorem State.setAsking_faultOp (w : Wait) : (s.setAsking w).faultOp = s.faultOp := rfl
@[simp] theorem State.setAsking_nNodes (w : Wait) : (s.setAsking w).nNodes = s.nNodes := rfl
@[simp] theorem State.setAsking_nLeaves (w : Wait) : (s.setAsking w).nLeaves = s.nLeaves := rfl
@[simp] theorem State.setAsking_codeWin (w : Wait) : (s.setAsking w).codeWin = s.codeWin := rfl
@[simp] theorem State.setAsking_freq (w : Wait) : (s.setAsking w).freq = s.freq := rfl
@[simp] theorem State.setAsking_tree (w : Wait) : (s.setAsking w).tree = s.tree := rfl
@[simp] theorem State.setAsking_map (w : Wait) : (s.setAsking w).map = s.map := rfl
@[simp] theorem State.setAsking_mapValid (w : Wait) : (s.setAsking w).mapValid = s.mapValid := rfl
@[simp] theorem State.setAsking_hdrOutDone (w : Wait) : (s.setAsking w).hdrOutDone = s.hdrOutDone := rfl
@[simp] theorem State.setAsking_hdrInDone (w : Wait) : (s.setAsking w).hdrInDone = s.hdrInDone := rfl
@[simp] theorem State.setAsking_cur (w : Wait) : (s.setAsking w).cur = s.cur := rfl
@[simp] theorem State.setAsking_run (w : Wait) : (s.setAsking w).run = { s.run with phase := .asking w } := rfl
@[simp] theorem State.setAsking_env (w : Wait) : (s.setAsking w).env = s.env := rfl
@[simp] theorem State.setAsking_host (w : Wait) : (s.setAsking w).host = s.host := rfl

/-! ## setReply -/

@[simp] theorem State.setReply_status (r : Reply) (e : Env) : (s.setReply r e).status = s.status := rfl
@[simp] theorem State.setReply_arg (r : Reply) (e : Env) : (s.setReply r e).arg = s.arg := rfl
@[simp] theorem State.setReply_result (r : Reply) (e : Env) : (s.setReply r e).result = s.result := rfl
@[simp] theorem State.setReply_faultOp (r : Reply) (e : Env) : (s.setReply r e).faultOp = s.faultOp := rfl
@[simp] theorem State.setReply_nNodes (r : Reply) (e : Env) : (s.setReply r e).nNodes = s.nNodes := rfl
@[simp] theorem State.setReply_nLeaves (r : Reply) (e : Env) : (s.setReply r e).nLeaves = s.nLeaves := rfl
@[simp] theorem State.setReply_codeWin (r : Reply) (e : Env) : (s.setReply r e).codeWin = s.codeWin := rfl
@[simp] theorem State.setReply_freq (r : Reply) (e : Env) : (s.setReply r e).freq = s.freq := rfl
@[simp] theorem State.setReply_tree (r : Reply) (e : Env) : (s.setReply r e).tree = s.tree := rfl
@[simp] theorem State.setReply_map (r : Reply) (e : Env) : (s.setReply r e).map = s.map := rfl
@[simp] theorem State.setReply_mapValid (r : Reply) (e : Env) : (s.setReply r e).mapValid = s.mapValid := rfl
@[simp] theorem State.setReply_hdrOutDone (r : Reply) (e : Env) : (s.setReply r e).hdrOutDone = s.hdrOutDone := rfl
@[simp] theorem State.setReply_hdrInDone (r : Reply) (e : Env) : (s.setReply r e).hdrInDone = s.hdrInDone := rfl
@[simp] theorem State.setReply_cur (r : Reply) (e : Env) : (s.setReply r e).cur = s.cur := rfl
@[simp] theorem State.setReply_run (r : Reply) (e : Env) : (s.setReply r e).run = { s.run with phase := .answered r } := rfl
@[simp] theorem State.setReply_env (r : Reply) (e : Env) : (s.setReply r e).env = e := rfl
@[simp] theorem State.setReply_host (r : Reply) (e : Env) : (s.setReply r e).host = s.host := rfl

/-! ## takeEvent -/

@[simp] theorem State.takeEvent_status (e : HostEvent) (rest : List HostEvent) : (s.takeEvent e rest).status = s.status := rfl
@[simp] theorem State.takeEvent_arg (e : HostEvent) (rest : List HostEvent) : (s.takeEvent e rest).arg = s.arg := rfl
@[simp] theorem State.takeEvent_result (e : HostEvent) (rest : List HostEvent) : (s.takeEvent e rest).result = s.result := rfl
@[simp] theorem State.takeEvent_faultOp (e : HostEvent) (rest : List HostEvent) : (s.takeEvent e rest).faultOp = s.faultOp := rfl
@[simp] theorem State.takeEvent_nNodes (e : HostEvent) (rest : List HostEvent) : (s.takeEvent e rest).nNodes = s.nNodes := rfl
@[simp] theorem State.takeEvent_nLeaves (e : HostEvent) (rest : List HostEvent) : (s.takeEvent e rest).nLeaves = s.nLeaves := rfl
@[simp] theorem State.takeEvent_codeWin (e : HostEvent) (rest : List HostEvent) : (s.takeEvent e rest).codeWin = s.codeWin := rfl
@[simp] theorem State.takeEvent_freq (e : HostEvent) (rest : List HostEvent) : (s.takeEvent e rest).freq = s.freq := rfl
@[simp] theorem State.takeEvent_tree (e : HostEvent) (rest : List HostEvent) : (s.takeEvent e rest).tree = s.tree := rfl
@[simp] theorem State.takeEvent_map (e : HostEvent) (rest : List HostEvent) : (s.takeEvent e rest).map = s.map := rfl
@[simp] theorem State.takeEvent_mapValid (e : HostEvent) (rest : List HostEvent) : (s.takeEvent e rest).mapValid = s.mapValid := rfl
@[simp] theorem State.takeEvent_hdrOutDone (e : HostEvent) (rest : List HostEvent) : (s.takeEvent e rest).hdrOutDone = s.hdrOutDone := rfl
@[simp] theorem State.takeEvent_hdrInDone (e : HostEvent) (rest : List HostEvent) : (s.takeEvent e rest).hdrInDone = s.hdrInDone := rfl
@[simp] theorem State.takeEvent_cur (e : HostEvent) (rest : List HostEvent) : (s.takeEvent e rest).cur = s.cur := rfl
@[simp] theorem State.takeEvent_run (e : HostEvent) (rest : List HostEvent) : (s.takeEvent e rest).run = s.run := rfl
@[simp] theorem State.takeEvent_env (e : HostEvent) (rest : List HostEvent) : (s.takeEvent e rest).env = s.env := rfl
@[simp] theorem State.takeEvent_host (e : HostEvent) (rest : List HostEvent) : (s.takeEvent e rest).host = { s.host with queue := rest, grant := e.grant } := rfl

/-! ## placeWord -/

@[simp] theorem State.placeWord_status (w : Word32) : (s.placeWord w).status = s.status := rfl
@[simp] theorem State.placeWord_run (w : Word32) : (s.placeWord w).run = s.run := rfl
@[simp] theorem State.placeWord_env (w : Word32) : (s.placeWord w).env = s.env := rfl
@[simp] theorem State.placeWord_queue (w : Word32) : (s.placeWord w).host.queue =
    { move := .write 32 0x00#8 w, grant := placedGrant } :: s.host.queue := rfl

/-! ## STATUS at a command's end -/

@[simp] theorem completedStatus_busy : (completedStatus s).busy = false := rfl
@[simp] theorem completedStatus_done : (completedStatus s).done = true := rfl
@[simp] theorem completedStatus_fault : (completedStatus s).fault = s.status.fault := rfl
@[simp] theorem completedStatus_dropped : (completedStatus s).dropped = s.status.dropped := rfl
@[simp] theorem completedStatus_faultCode : (completedStatus s).faultCode = s.status.faultCode := rfl
@[simp] theorem completedStatus_faultDetail : (completedStatus s).faultDetail = s.status.faultDetail := rfl
@[simp] theorem faultedStatus_busy (n : FaultName) (d : FaultByte) : (faultedStatus s n d).busy = false := rfl
@[simp] theorem faultedStatus_done (n : FaultName) (d : FaultByte) : (faultedStatus s n d).done = false := rfl
@[simp] theorem faultedStatus_fault (n : FaultName) (d : FaultByte) : (faultedStatus s n d).fault = true := rfl
@[simp] theorem faultedStatus_dropped (n : FaultName) (d : FaultByte) :
    (faultedStatus s n d).dropped = s.status.dropped := rfl
@[simp] theorem faultedStatus_faultCode (n : FaultName) (d : FaultByte) :
    (faultedStatus s n d).faultCode = faultCode n := rfl
@[simp] theorem faultedStatus_faultDetail (n : FaultName) (d : FaultByte) : (faultedStatus s n d).faultDetail = d := rfl

/-! ## The idle sequencer -/

@[simp] theorem Run.idle_phase : Run.idle.phase = .idle := rfl
@[simp] theorem Run.idle_todo : Run.idle.todo = [] := rfl
@[simp] theorem Run.idle_forest : Run.idle.forest = Forest.empty := rfl
@[simp] theorem Run.idle_decPos : Run.idle.decPos = none := rfl
@[simp] theorem Run.idle_nCount : Run.idle.nCount = 0#64 := rfl

end Sys2Proof.Machine
end

