-- ==== Sys2Proof/Laws/Ops.lean ====
section
/-! SUPPORT. What the shared operations do: tables, port requests, acceptance. -/

namespace Sys2Proof.Machine

/-! ## Tables indexed by a symbol -/

/-- A read after a write gives the value written to that symbol and the old one elsewhere. -/
theorem symGet_symSet {α : Type} (v : Vector α 256) (a b : Symbol) (x : α) :
    symGet (symSet v a x) b = if b = a then x else symGet v b := by
  unfold symGet symSet
  rw [Vector.getElem_set]
  by_cases h : b = a
  · subst h; simp
  · rw [if_neg h, if_neg fun hn => h (BitVec.eq_of_toNat_eq hn.symm)]

@[simp] theorem symGet_symSet_self {α : Type} (v : Vector α 256) (a : Symbol) (x : α) :
    symGet (symSet v a x) a = x := by simp [symGet_symSet]

@[simp] theorem symGet_replicate {α : Type} (x : α) (b : Symbol) : symGet (Vector.replicate 256 x) b = x := by
  simp [symGet]

@[simp] theorem symGet_zeroFreq (b : Symbol) : symGet zeroFreq b = 0#32 := symGet_replicate _ _

@[simp] theorem symGet_clearedMap (b : Symbol) : symGet clearedMap b = MapEntry.absent := symGet_replicate _ _

/-- Two tables are equal when they agree on every symbol. -/
theorem table_ext {α : Type} {v w : Vector α 256} (h : ∀ b : Symbol, symGet v b = symGet w b) : v = w := by
  ext i hi
  have e : i % 256 = i := Nat.mod_eq_of_lt hi
  simpa [symGet, e] using h (BitVec.ofNat 8 i)

/-! ## Port requests -/

/-- In the reference environment a request is answered by what the port does. -/
theorem Env.request_served {α : Type} (e : Env) (perform : Env → α × Env) (h : e.draws = []) :
    e.request perform = some (.value (perform e).1, (perform e).2) := by
  unfold Env.request; rw [h]

/-- A failing request answers IOERR, spends its draw, and has its effect on the environment only where carried out. -/
theorem Env.request_failed {α : Type} (e : Env) (perform : Env → α × Env) (c : Bool) (ds : List Draw)
    (h : e.draws = .failed c :: ds) :
    e.request perform = some (.ioerr, if c then (perform { e with draws := ds }).2 else { e with draws := ds }) := by
  unfold Env.request; rw [h]; cases c <;> rfl

/-- A request that is never answered has no result. -/
theorem Env.request_unanswered {α : Type} (e : Env) (perform : Env → α × Env) (ds : List Draw)
    (h : e.draws = .unanswered :: ds) : e.request perform = none := by
  unfold Env.request; rw [h]

/-- All that a request that is answered can do: it takes at most one draw, and it answers what the port gives, or IOERR,
the port then having done its work or not (R97, R331). -/
theorem Env.request_cases {α : Type} {e e' : Env} {perform : Env → α × Env} {a : Answer α}
    (h : e.request perform = some (a, e')) :
    ∃ ds, (a = .value (perform { e with draws := ds }).1 ∧ e' = (perform { e with draws := ds }).2) ∨
      (a = .ioerr ∧ (e' = (perform { e with draws := ds }).2 ∨ e' = { e with draws := ds })) := by
  unfold Env.request at h
  split at h
  · rename_i hd; cases h; exact ⟨[], .inl (by rw [← hd]; exact ⟨rfl, rfl⟩)⟩
  · rename_i ds _; cases h; exact ⟨ds, .inl ⟨rfl, rfl⟩⟩
  · rename_i ds _; cases h; exact ⟨ds, .inr ⟨rfl, .inl rfl⟩⟩
  · rename_i ds _; cases h; exact ⟨ds, .inr ⟨rfl, .inr rfl⟩⟩
  · cases h

/-! ## Acceptance -/

/-- A ready block drops no word. -/
theorem State.drops_of_ready {s : State} (h : s.Ready) (w : Word32) : s.drops w = false := by
  simp [State.drops, h.1, h.2]

/-- While no command runs, a word that passes a fault is not dropped. -/
theorem State.drops_of_passes {s : State} (h : s.status.busy = false) {w : Word32} (hw : passesFault w = true) :
    s.drops w = false := by
  simp [State.drops, h, hw]

@[simp] theorem wordOp_commandWord (op : BitVec 8) (sym : Symbol) : wordOp (commandWord op sym) = op := by
  apply BitVec.eq_of_getLsbD_eq
  intro i hi
  simp only [wordOp, commandWord, BitVec.getLsbD_extractLsb', BitVec.getLsbD_cast, BitVec.getLsbD_append, Nat.zero_add,
    hi, decide_true, Bool.true_and, if_true]

@[simp] theorem wordSym_commandWord (op : BitVec 8) (sym : Symbol) : wordSym (commandWord op sym) = sym := by
  apply BitVec.eq_of_getLsbD_eq
  intro i hi
  have h : ¬(8 + i < 8) := by omega
  simp only [wordSym, commandWord, BitVec.getLsbD_extractLsb', BitVec.getLsbD_cast, BitVec.getLsbD_append, h,
    Nat.add_sub_cancel_left, hi, decide_true, Bool.true_and, if_true, if_false]

@[simp] theorem wordRsv_commandWord (op : BitVec 8) (sym : Symbol) : wordRsv (commandWord op sym) = 0#16 := by
  apply BitVec.eq_of_getLsbD_eq
  intro i hi
  have h : ¬(16 + i < 8) := by omega
  have h' : ¬(16 + i - 8 < 8) := by omega
  simp only [wordRsv, commandWord, BitVec.getLsbD_extractLsb', BitVec.getLsbD_cast, BitVec.getLsbD_append, h, h',
    if_false, BitVec.getLsbD_zero, Bool.and_false]

end Sys2Proof.Machine
end

