-- ==== Sys2Proof/Laws/Sequencer.lean ====
section
/-! SUPPORT. How runs of the sequencer compose, and what a command comes to when it is accepted. -/

namespace Sys2Proof.Machine

@[simp] theorem seqRun_zero (s : State) : seqRun 0 s = s := rfl

/-- An idle block takes no step. -/
theorem seqRun_idle {s : State} (h : s.status.busy = false) (n : Nat) : seqRun n s = s := by
  cases n <;> simp [seqRun, h]

/-- A busy block takes a step, if one is granted. -/
theorem seqRun_busy {s : State} (h : s.status.busy = true) (n : Nat) : seqRun (n + 1) s = seqRun n (seqStep s) := by
  simp [seqRun, h]

/-- A run of `m + n` steps is a run of `m` and then one of `n`. -/
theorem seqRun_add (m n : Nat) (s : State) : seqRun (m + n) s = seqRun n (seqRun m s) := by
  induction m generalizing s with
  | zero => simp
  | succ m ih =>
    rw [Nat.succ_add]
    cases h : s.status.busy with
    | false => simp [seqRun_idle h]
    | true => rw [seqRun_busy h, seqRun_busy h, ih]

/-- Once a run has ended the command, more steps change nothing. -/
theorem seqRun_of_ended {m : Nat} {s t : State} (h : seqRun m s = t) (ht : t.status.busy = false) {n : Nat} (hn : m ≤ n) :
    seqRun n s = t := by
  obtain ⟨k, rfl⟩ := Nat.exists_eq_add_of_le hn
  rw [seqRun_add, h, seqRun_idle ht]

/-- What every step of a running command keeps, every run keeps. -/
theorem seqRun_keeps {P : State → Prop} (hstep : ∀ s, P s → s.status.busy = true → P (seqStep s)) (n : Nat) {s : State}
    (h : P s) : P (seqRun n s) := by
  induction n generalizing s with
  | zero => exact h
  | succ n ih =>
    cases hb : s.status.busy with
    | false => rwa [seqRun_idle hb]
    | true => rw [seqRun_busy hb]; exact ih (hstep s h hb)

/-- A step at a port request that is answered. -/
theorem seqStep_asking {s : State} {w : Wait} {r : Reply} {e : Env} (h : s.run.phase = .asking w)
    (hs : serve w s.env = some (r, e)) : seqStep s = s.setReply r e := by
  unfold seqStep; rw [h]; simp only [hs]

/-- A step at a port request that is not answered. -/
theorem seqStep_waiting {s : State} {w : Wait} (h : s.run.phase = .asking w) (hs : serve w s.env = none) :
    seqStep s = s := by
  unfold seqStep; rw [h]; simp only [hs]

/-- A step with a reply in hand. -/
theorem seqStep_answered {s : State} {r : Reply} (h : s.run.phase = .answered r) : seqStep s = settle (resume r s) := by
  unfold seqStep; rw [h]

/-- A step that begins a command. -/
theorem seqStep_begin {s : State} (h : s.run.phase = .begin) : seqStep s = runBodies s.run.todo s := by
  unfold seqStep; rw [h]

/-- A request and the computation after it, two steps. -/
theorem seqRun_request {s : State} {w : Wait} {r : Reply} {e : Env} (hb : s.status.busy = true)
    (h : s.run.phase = .asking w) (hs : serve w s.env = some (r, e)) (n : Nat) :
    seqRun (n + 2) s = seqRun n (settle (resume r (s.setReply r e))) := by
  rw [seqRun_busy hb, seqStep_asking h hs, seqRun_busy (by simpa using hb), seqStep_answered rfl]

/-- A word that is not dropped is accepted and run. -/
theorem command_accepted {s : State} {w : Word32} (h : s.drops w = false) (todo : List Body) :
    command w todo s = .next (seqRun s.host.grant (s.accept w todo)) := by
  simp [command, h]

/-- The first step of an accepted command runs its bodies up to the first port request, fault or completion. -/
theorem seqRun_accept (s : State) (w : Word32) (todo : List Body) (n : Nat) :
    seqRun (n + 1) (s.accept w todo) = seqRun n (runBodies todo (s.accept w todo)) := by
  rw [seqRun_busy (by rfl)]; rfl

/-- A command whose bodies end without a port request is over after one step. -/
theorem command_portless {s t : State} {w : Word32} {todo : List Body} (hd : s.drops w = false) (hg : 1 ≤ s.host.grant)
    (hr : runBodies todo (s.accept w todo) = t) (ht : t.status.busy = false) : command w todo s = .next t := by
  obtain ⟨n, hn⟩ := Nat.exists_eq_add_of_le' hg
  rw [command_accepted hd, hn, seqRun_accept, hr, seqRun_idle ht]

/-! ## The step of the machine -/

/-- A step takes the host's next move off its queue and makes it. -/
theorem step_event {s : State} {e : HostEvent} {rest : List HostEvent} (hq : s.host.queue = e :: rest) :
    step s = hostMove e (s.takeEvent e rest) := by
  unfold step advance; rw [hq]

/-- A whole aligned access goes on. -/
theorem checkedAccess_word {s : State} {off : BitVec 8} {access : State → Host.Outcome State Fault Refusal}
    (h : off.extractLsb' 0 2 = 0#2) : checkedAccess 32 off s access = access s := by
  simp [checkedAccess, widthOk, offsetOk, h]

/-- A step whose move is a whole aligned read. -/
theorem step_read {s : State} {off : BitVec 8} {g : Nat} {rest : List HostEvent}
    (hq : s.host.queue = { move := .read 32 off, grant := g } :: rest) (h : off.extractLsb' 0 2 = 0#2) :
    step s = (hostRead off (s.takeEvent { move := .read 32 off, grant := g } rest)).granted := by
  rw [step_event hq]; show checkedAccess _ _ _ _ = _; rw [checkedAccess_word h]

/-- A step whose move is a whole aligned write. -/
theorem step_write {s : State} {off : BitVec 8} {v : Word32} {g : Nat} {rest : List HostEvent}
    (hq : s.host.queue = { move := .write 32 off v, grant := g } :: rest) (h : off.extractLsb' 0 2 = 0#2) :
    step s = regWrite off v (s.takeEvent { move := .write 32 off v, grant := g } rest) := by
  rw [step_event hq]; show checkedAccess _ _ _ _ = _; rw [checkedAccess_word h]

end Sys2Proof.Machine
end

