-- ==== Sys2Proof/Laws/Flows.lean ====
section
/-! SUPPORT. What a computation of a body can come to, and how a property goes through the sequencer: said once, so that
no later proof unfolds the sequencer. -/

namespace Sys2Proof.Machine

/-- Every end a flow can have meets the condition for that kind of end. -/
def Flow.All (ask : Wait → State → Prop) (done : State → Prop) (raise : FaultName → FaultByte → State → Prop) :
    Flow → Prop
  | .ask w s => ask w s
  | .done s => done s
  | .raise name detail s => raise name detail s

section
variable {A A' : Wait → State → Prop} {D D' : State → Prop} {R R' : FaultName → FaultByte → State → Prop}

@[simp] theorem Flow.all_ask (w : Wait) (s : State) : (Flow.ask w s).All A D R ↔ A w s := Iff.rfl
@[simp] theorem Flow.all_done (s : State) : (Flow.done s).All A D R ↔ D s := Iff.rfl
@[simp] theorem Flow.all_raise (n : FaultName) (d : FaultByte) (s : State) :
    (Flow.raise n d s).All A D R ↔ R n d s := Iff.rfl

/-- A weaker condition holds where a stronger one does. -/
theorem Flow.All.imp {f : Flow} (h : f.All A D R) (ha : ∀ w s, A w s → A' w s) (hd : ∀ s, D s → D' s)
    (hr : ∀ n d s, R n d s → R' n d s) : f.All A' D' R' := by
  cases f with
  | ask w s => exact ha w s h
  | done s => exact hd s h
  | raise n d s => exact hr n d s h

end

/-! ## A property through a run of bodies -/

/-- What holds of the states a step leaves (`I`), if what holds between bodies (`M`, of the bodies still to start) leads
to it wherever a body stops. -/
theorem runBodies_keeps {I : State → Prop} {M : List Body → State → Prop}
    (hbody : ∀ b todo s, M (b :: todo) s →
      (startBody b (s.enterBody b todo)).All (fun w t => I (t.setAsking w)) (M todo) (fun n d t => I (t.raise n d)))
    (hend : ∀ s, M [] s → I s.complete) (todo : List Body) (s : State) (h : M todo s) : I (runBodies todo s) := by
  induction todo generalizing s with
  | nil => exact hend s h
  | cons b todo ih =>
    have hb := hbody b todo s h
    unfold runBodies
    cases hf : startBody b (s.enterBody b todo) with
    | ask w t => rw [hf] at hb; exact hb
    | done t => rw [hf] at hb; exact ih t hb
    | raise n d t => rw [hf] at hb; exact hb

/-- A property that every point of the sequencer keeps is kept by its step. -/
theorem seqStep_keeps {I : State → Prop} {M : List Body → State → Prop}
    (hbegin : ∀ s, I s → s.run.phase = .begin → M s.run.todo s)
    (hreply : ∀ s w r e, I s → s.run.phase = .asking w → serve w s.env = some (r, e) → I (s.setReply r e))
    (hresume : ∀ s r, I s → s.run.phase = .answered r →
      (resume r s).All (fun w t => I (t.setAsking w)) (fun t => M t.run.todo t) (fun n d t => I (t.raise n d)))
    (hbody : ∀ b todo s, M (b :: todo) s →
      (startBody b (s.enterBody b todo)).All (fun w t => I (t.setAsking w)) (M todo) (fun n d t => I (t.raise n d)))
    (hend : ∀ s, M [] s → I s.complete) (s : State) (h : I s) : I (seqStep s) := by
  cases hp : s.run.phase with
  | idle => unfold seqStep; rw [hp]; exact h
  | begin => rw [seqStep_begin hp]; exact runBodies_keeps hbody hend _ _ (hbegin s h hp)
  | asking w =>
    cases hs : serve w s.env with
    | none => rw [seqStep_waiting hp hs]; exact h
    | some re => rw [seqStep_asking hp (r := re.1) (e := re.2) hs]; exact hreply s w _ _ h hp hs
  | answered r =>
    rw [seqStep_answered hp]
    have hr := hresume s r h hp
    cases hf : resume r s with
    | ask w t => rw [hf] at hr; exact hr
    | done t => rw [hf] at hr; exact runBodies_keeps hbody hend _ _ hr
    | raise n d t => rw [hf] at hr; exact hr

end Sys2Proof.Machine
end

