-- ==== Sys2Proof/Laws/Step.lean ====
section
/-! SUPPORT. What one step of the machine can be: every command as one acceptance of its bodies, and the host's moves. -/

namespace Sys2Proof.Machine

/-- The bodies a command runs, in their order (R150, R300, R302). -/
def commandBodies : Instr → List Body
  | .nop _ => [.nop]
  | .softReset _ => [.softReset]
  | .clearFault _ => [.clearFault]
  | .newSession _ => [.session]
  | .freqClear _ => [.freqClear]
  | .freqCount _ => [.freqCount]
  | .freqWrite _ => [.freqWrite]
  | .freqRead _ => [.freqRead]
  | .inRewind _ => [.inRewind]
  | .treeBuild _ => [.treeBuild]
  | .hdrFlatten _ => [.hdrFlatten]
  | .hdrRecreate _ => [.hdrRecreate]
  | .mapBuild _ => [.mapBuild]
  | .mapRead _ => [.mapRead]
  | .encode _ => [.encode]
  | .decode _ => [.decode]
  | .compress _ => [.session, .freqCount, .inRewind, .treeBuild, .hdrFlatten, .mapBuild, .encode]
  | .decompress _ => [.session, .hdrRecreate, .decode]

/-- Every command is the acceptance of its word with its bodies to run. -/
theorem exec_eq (i : Instr) (s : State) : exec i s = command (encode i) (commandBodies i) s := by cases i <;> rfl

/-- A command that is not dropped runs from its acceptance on. -/
theorem exec_accepted {i : Instr} {s : State} (h : s.drops (encode i) = false) :
    exec i s = .next (seqRun s.host.grant (s.accept (encode i) (commandBodies i))) := by
  rw [exec_eq, command_accepted h]

/-- A command that is dropped only sets DROPPED. -/
theorem exec_dropped {i : Instr} {s : State} (h : s.drops (encode i) = true) :
    exec i s = .next (seqRun s.host.grant s.setDropped) := by
  rw [exec_eq]; simp [command, h]

/-- What a host move can do to the state before the sequencer's granted steps. -/
inductive Moved (s : State) : State → Prop where
  /-- A read, a poll, or a write that is ignored: nothing but the host changes. -/
  | host (h : HostAgent) : Moved s { s with host := h }
  /-- A write of ARG. -/
  | arg (v : Word32) : Moved s { s with arg := v }
  /-- A CMD write that is dropped. -/
  | dropped (w : Word32) (h : s.drops w = true) : Moved s s.setDropped
  /-- A CMD write of a command that is accepted. -/
  | accepted (i : Instr) (h : s.drops (encode i) = false) : Moved s (s.accept (encode i) (commandBodies i))
  /-- A CMD write of an illegal word that is accepted. -/
  | illegal (w : Word32) (d : FaultByte) (h : s.drops w = false) : Moved s ((s.accept w []).raise .illegalCmd d)
  /-- A hardware reset. -/
  | reset : Moved s s.hardReset
  /-- A port is attached while no command runs. -/
  | attached (p : Attachment) (h : s.status.busy = false) : Moved s { s with env := s.env.attach p }

/-- A command does what the host's move and the steps granted to the sequencer make of the state. -/
theorem exec_moved {i : Instr} {s t : State} (h : exec i s = .next t) :
    ∃ u, Moved s u ∧ t = seqRun s.host.grant u := by
  cases hd : s.drops (encode i) with
  | true => rw [exec_dropped hd] at h; exact ⟨_, .dropped _ hd, by injection h with h; exact h.symm⟩
  | false => rw [exec_accepted hd] at h; exact ⟨_, .accepted i hd, by injection h with h; exact h.symm⟩

/-- A CMD write of any word. -/
theorem presentWord_moved {w : Word32} {s t : State} (h : presentWord w s = .next t) :
    ∃ u, Moved s u ∧ t = seqRun s.host.grant u := by
  have ill : ∀ d, Host.Outcome.next (illegalCommand w d s) = (.next t : Host.Outcome State Fault Refusal) →
      ∃ u, Moved s u ∧ t = seqRun s.host.grant u := by
    intro d h
    injection h with h
    subst h
    cases hd : s.drops w with
    | true => exact ⟨_, .dropped w hd, by simp [illegalCommand, hd]⟩
    | false => exact ⟨_, .illegal w d hd, by simp [illegalCommand, hd]⟩
  unfold presentWord at h
  split at h
  · exact exec_moved h
  · exact ill _ h
  · exact ill _ h

/-- What a step that answers a next state did: nothing but one step of the sequencer when the host has no move to come,
else the host's move and then the steps it grants. -/
theorem step_cases {s t : State} (h : step s = .next t) :
    (s.host.queue = [] ∧ t = seqRun 1 s) ∨
    ∃ e rest u n, s.host.queue = e :: rest ∧ Moved (s.takeEvent e rest) u ∧ t = seqRun n u := by
  cases hq : s.host.queue with
  | nil =>
    refine .inl ⟨rfl, ?_⟩
    unfold step advance at h; rw [hq] at h
    injection h with h; exact h.symm
  | cons e rest =>
    refine .inr ⟨e, rest, ?_⟩
    rw [step_event hq] at h
    generalize hs : s.takeEvent e rest = s1 at h
    have keep : ∀ u, Moved s1 u → u.granted = .next t → ∃ u n, e :: rest = e :: rest ∧ Moved s1 u ∧ t = seqRun n u :=
      fun u hm hu => ⟨u, u.host.grant, rfl, hm, by unfold State.granted at hu; injection hu with hu; exact hu.symm⟩
    have checked : ∀ width off (f : State → Host.Outcome State Fault Refusal), checkedAccess width off s1 f = .next t →
        f s1 = .next t := by
      intro width off f hf
      unfold checkedAccess at hf
      split at hf
      · split at hf
        · exact hf
        · cases hf
      · cases hf
    have read : ∀ off, ∃ h, hostRead off s1 = { s1 with host := h } := by
      intro off; unfold hostRead; split
      · exact ⟨_, rfl⟩
      · exact ⟨_, rfl⟩
    unfold hostMove at h
    split at h
    · rename_i width off _
      obtain ⟨hh, e1⟩ := read off
      have := checked _ _ _ h
      rw [e1] at this
      exact keep _ (.host hh) this
    · rename_i width off v _
      have h2 := checked _ _ _ h
      unfold regWrite at h2
      split at h2
      · obtain ⟨u, hm, ht⟩ := presentWord_moved h2
        exact ⟨u, _, rfl, hm, ht⟩
      · unfold hostWrite at h2
        split at h2
        · exact keep _ (.arg v) h2
        · exact keep _ (.host s1.host) h2
    · obtain ⟨hh, e1⟩ := read statusOffset
      unfold pollMove at h
      split at h
      · rw [e1] at h; exact keep _ (.host _) h
      · rw [e1] at h; exact keep _ (.host _) h
    · exact keep _ .reset h
    · unfold attachPort at h
      split at h
      · cases h
      · rename_i hb
        exact keep _ (.attached _ (by simpa using hb)) h

/-- What every host move and every step of a running command keep, every step of the machine keeps. -/
theorem step_keeps {I : State → Prop} (hhost : ∀ s h, I s → I { s with host := h })
    (hmove : ∀ s u, I s → Moved s u → I u) (hseq : ∀ s, I s → s.status.busy = true → I (seqStep s)) {s t : State}
    (h : I s) (hst : step s = .next t) : I t := by
  rcases step_cases hst with ⟨_, rfl⟩ | ⟨e, rest, u, n, _, hm, rfl⟩
  · exact seqRun_keeps hseq 1 h
  · exact seqRun_keeps hseq n (hmove _ _ (hhost s _ h) hm)

end Sys2Proof.Machine
end

