-- ==== Sys2Proof/Laws/Frames.lean ====
section
/-! SUPPORT. What each body of the sequencer may write, and that it writes nothing else. -/

namespace Sys2Proof.Machine

/-- All parts but those of `ps` are the same in two states, and so is the host. -/
def FramedBy (ps : List Part) (s t : State) : Prop := (∀ p, p ∉ ps → samePart p s t) ∧ t.host = s.host

theorem samePart.refl (p : Part) (s : State) : samePart p s s := by cases p <;> simp [samePart]

theorem samePart.trans {p : Part} {s t u : State} (h : samePart p s t) (h' : samePart p t u) : samePart p s u := by
  cases p <;> simp_all [samePart]

theorem FramedBy.refl (ps : List Part) (s : State) : FramedBy ps s s := ⟨fun p _ => samePart.refl p s, rfl⟩

theorem FramedBy.trans {ps : List Part} {s t u : State} (h : FramedBy ps s t) (h' : FramedBy ps t u) : FramedBy ps s u :=
  ⟨fun p hp => (h.1 p hp).trans (h'.1 p hp), h'.2.trans h.2⟩

theorem FramedBy.mono {ps qs : List Part} {s t : State} (hsub : ps ⊆ qs) (h : FramedBy ps s t) : FramedBy qs s t :=
  ⟨fun p hp => h.1 p fun hq => hp (hsub hq), h.2⟩

/-- The parts a body's rule names as written. -/
def bodyParts : Body → List Part
  | .nop => []
  | .softReset => [.arg, .result, .codeWin, .freq, .tree, .map, .mapValid, .hdrOutDone, .hdrInDone]
  | .clearFault => []
  | .session => [.hdrOutDone, .hdrInDone]
  | .freqClear => [.freq]
  | .freqCount => [.freq, .result, .byteSource]
  | .freqWrite => [.freq]
  | .freqRead => [.result]
  | .inRewind => [.byteSource]
  | .treeBuild => [.tree, .mapValid, .result]
  | .hdrFlatten => [.hdrOutDone, .result, .bitSink]
  | .hdrRecreate => [.hdrInDone, .tree, .mapValid, .result]
  | .mapBuild => [.map, .mapValid, .result]
  | .mapRead => [.result, .codeWin]
  | .encode => [.result, .byteSource, .bitSink]
  | .decode => [.result, .byteSink, .bitSource]

/-- The body a request belongs to. -/
def waitBody : Wait → Body
  | .countByte => .freqCount
  | .rewind => .inRewind
  | .hdrWrite _ => .hdrFlatten
  | .hdrRead => .hdrRecreate
  | .encByte => .encode
  | .encBit _ _ => .encode
  | .leafWrite _ => .decode
  | .decBit => .decode
  | .symWrite _ => .decode

/-- The body a reply belongs to. -/
def replyBody : Reply → Body
  | .countByte _ => .freqCount
  | .rewind _ => .inRewind
  | .hdrWrite _ _ => .hdrFlatten
  | .hdrRead _ => .hdrRecreate
  | .encByte _ => .encode
  | .encBit _ _ => .encode
  | .leafWrite _ _ => .decode
  | .decBit _ => .decode
  | .symWrite _ => .decode

/-- STATUS's own fields, FAULTOP, the latched operands and the bodies still to start are the same in two states. -/
def Quiet (s t : State) : Prop :=
  t.status = s.status ∧ t.faultOp = s.faultOp ∧ t.cur = s.cur ∧ t.run.todo = s.run.todo

/-- A flow stays within what a body may write, asks only that body's requests, and leaves STATUS, FAULTOP,
the operands and the bodies to start alone, but for the two bodies that reset them. -/
def Flow.Within (b : Body) (s : State) (f : Flow) : Prop :=
  f.All (fun w t => waitBody w = b ∧ FramedBy (bodyParts b) s t ∧ Quiet s t)
    (fun t => FramedBy (bodyParts b) s t ∧ (b ≠ .softReset → b ≠ .clearFault → Quiet s t))
    (fun _ _ t => FramedBy (bodyParts b) s t ∧ Quiet s t)

/-- A frame, part by part. -/
theorem framedBy_iff {ps : List Part} {s t : State} : FramedBy ps s t ↔
    (Part.arg ∉ ps → t.arg = s.arg) ∧ (Part.result ∉ ps → t.result = s.result) ∧
    (Part.codeWin ∉ ps → t.codeWin = s.codeWin) ∧ (Part.freq ∉ ps → t.freq = s.freq) ∧
    (Part.tree ∉ ps → t.tree = s.tree ∧ t.nNodes = s.nNodes ∧ t.nLeaves = s.nLeaves) ∧
    (Part.map ∉ ps → t.map = s.map) ∧ (Part.mapValid ∉ ps → t.mapValid = s.mapValid) ∧
    (Part.hdrOutDone ∉ ps → t.hdrOutDone = s.hdrOutDone) ∧ (Part.hdrInDone ∉ ps → t.hdrInDone = s.hdrInDone) ∧
    (Part.byteSource ∉ ps → samePart .byteSource s t) ∧ (Part.byteSink ∉ ps → samePart .byteSink s t) ∧
    (Part.bitSink ∉ ps → samePart .bitSink s t) ∧ (Part.bitSource ∉ ps → samePart .bitSource s t) ∧ t.host = s.host := by
  constructor
  · rintro ⟨h, hh⟩
    exact ⟨h .arg, h .result, h .codeWin, h .freq, h .tree, h .map, h .mapValid, h .hdrOutDone, h .hdrInDone,
      h .byteSource, h .byteSink, h .bitSink, h .bitSource, hh⟩
  · rintro ⟨h1, h2, h3, h4, h5, h6, h7, h8, h9, h10, h11, h12, h13, hh⟩
    refine ⟨fun p => ?_, hh⟩
    cases p <;> assumption

/-! What the sequencer itself writes is no part: STATUS, FAULTOP, CUR_*, PRIM_OP and the running command. -/

theorem framedBy_setAsking (ps : List Part) (s : State) (w : Wait) : FramedBy ps s (s.setAsking w) := by
  simp [framedBy_iff, samePart]

theorem framedBy_raise (ps : List Part) (s : State) (n : FaultName) (d : FaultByte) : FramedBy ps s (s.raise n d) := by
  simp [framedBy_iff, samePart]

theorem framedBy_complete (ps : List Part) (s : State) : FramedBy ps s s.complete := by
  simp [framedBy_iff, samePart]

theorem framedBy_enterBody (ps : List Part) (s : State) (b : Body) (todo : List Body) :
    FramedBy ps s (s.enterBody b todo) := by
  simp [framedBy_iff, samePart]

theorem framedBy_accept (ps : List Part) (s : State) (w : Word32) (todo : List Body) :
    FramedBy ps s (s.accept w todo) := by
  simp [framedBy_iff, samePart]

theorem framedBy_setDropped (ps : List Part) (s : State) : FramedBy ps s s.setDropped := by
  simp [framedBy_iff, samePart]

theorem leafLoop_within (sym : Symbol) (s : State) : (leafLoop sym s).Within .decode s := by
  unfold leafLoop Flow.Within
  split <;> simp [waitBody, framedBy_iff, Quiet, samePart, bodyParts, State.resultCount]

theorem encodeBits_within (code : List Bit) (s : State) : (encodeBits code s).Within .encode s := by
  unfold encodeBits Flow.Within
  split <;> simp [waitBody, framedBy_iff, Quiet, samePart, bodyParts]

theorem descend_within (x : Bit) (s : State) : (descend x s).Within .decode s := by
  unfold descend Flow.Within
  split
  · simp [framedBy_iff, Quiet, samePart, bodyParts, State.resultCount]
  · simp [waitBody, framedBy_iff, Quiet, samePart, bodyParts]
  · split <;> simp [waitBody, framedBy_iff, Quiet, samePart, bodyParts, State.resultCount]

/-- A body from its start stays within what its rule names. -/
theorem startBody_within (b : Body) (s : State) : (startBody b s).Within b s := by
  unfold Flow.Within
  cases b <;> simp only [startBody]
  case nop => simp [bodyNop, framedBy_iff, Quiet, samePart]
  case softReset => simp [bodySoftReset, framedBy_iff, Quiet, samePart, bodyParts, State.resetBlock]
  case clearFault => simp [bodyClearFault, framedBy_iff, Quiet, samePart]
  case session => simp [bodySession, framedBy_iff, Quiet, samePart, bodyParts]
  case freqClear => simp [bodyFreqClear, framedBy_iff, Quiet, samePart, bodyParts]
  case freqCount => simp [bodyFreqCount, framedBy_iff, Quiet, samePart, bodyParts, waitBody]
  case freqWrite => simp [bodyFreqWrite, framedBy_iff, Quiet, samePart, bodyParts]
  case freqRead => simp [bodyFreqRead, framedBy_iff, Quiet, samePart, bodyParts]
  case inRewind => simp [bodyInRewind, framedBy_iff, Quiet, samePart, waitBody]
  case treeBuild =>
    unfold bodyTreeBuild
    dsimp only
    split <;> simp [framedBy_iff, Quiet, samePart, bodyParts]
  case hdrFlatten =>
    unfold bodyHdrFlatten
    repeat' split
    all_goals simp [framedBy_iff, Quiet, samePart, waitBody]
  case hdrRecreate =>
    unfold bodyHdrRecreate
    split <;> simp [framedBy_iff, Quiet, samePart, waitBody]
  case mapBuild =>
    unfold bodyMapBuild
    split
    · simp [framedBy_iff, Quiet, samePart]
    · dsimp only
      split <;> simp [framedBy_iff, Quiet, samePart, bodyParts]
  case mapRead =>
    unfold bodyMapRead
    split <;> simp [framedBy_iff, Quiet, samePart, bodyParts]
  case encode =>
    unfold bodyEncode
    repeat' split
    all_goals simp [framedBy_iff, Quiet, samePart, bodyParts, waitBody]
  case decode =>
    unfold bodyDecode
    split
    · simp [framedBy_iff, Quiet, samePart]
    · split <;> simp [framedBy_iff, Quiet, samePart, bodyParts]
    · split
      · simpa [Flow.Within, framedBy_iff, Quiet, samePart, bodyParts] using leafLoop_within _ (s.setCount 0#64)
      · simp [framedBy_iff, Quiet, samePart]
    · split <;> simp [framedBy_iff, Quiet, samePart, bodyParts, waitBody]

/-- A body from a reply on stays within what its rule names. -/
theorem resume_within (r : Reply) (s : State) : (resume r s).Within (replyBody r) s := by
  cases r <;> simp only [resume, replyBody]
  case countByte a =>
    unfold countByteReply Flow.Within
    split
    · simp [framedBy_iff, Quiet, samePart, bodyParts, State.resultCount]
    · simp [framedBy_iff, Quiet, samePart, bodyParts, State.resultCount]
    · split <;> simp [framedBy_iff, Quiet, samePart, bodyParts, State.resultCount, waitBody]
  case rewind a => unfold rewindReply Flow.Within; split <;> simp [framedBy_iff, Quiet, samePart]
  case hdrWrite h a =>
    unfold hdrWriteReply Flow.Within
    split <;> simp [framedBy_iff, Quiet, samePart, bodyParts]
  case hdrRead a =>
    unfold hdrReadReply Flow.Within
    split
    · simp [framedBy_iff, Quiet, samePart]
    · dsimp only
      split <;> simp [framedBy_iff, Quiet, samePart, bodyParts]
  case encByte a =>
    unfold encByteReply
    split
    · simp [Flow.Within, framedBy_iff, Quiet, samePart, bodyParts, State.resultCount]
    · simp [Flow.Within, framedBy_iff, Quiet, samePart, bodyParts, State.resultCount]
    · split
      · split
        · simp [Flow.Within, framedBy_iff, Quiet, samePart, bodyParts, State.resultCount]
        · exact encodeBits_within _ _
      · simp [Flow.Within, framedBy_iff, Quiet, samePart, bodyParts, State.resultCount]
  case encBit rest a =>
    unfold encBitReply
    split
    · simp [Flow.Within, framedBy_iff, Quiet, samePart, bodyParts, State.resultCount]
    · exact encodeBits_within _ _
  case leafWrite sym a =>
    unfold leafWriteReply
    split
    · simp [Flow.Within, framedBy_iff, Quiet, samePart, bodyParts, State.resultCount]
    · simpa [Flow.Within, framedBy_iff, Quiet, samePart, bodyParts] using leafLoop_within _ (s.setCount (s.run.nCount + 1#64))
  case decBit a =>
    unfold decBitReply
    split
    · simp [Flow.Within, framedBy_iff, Quiet, samePart, bodyParts, State.resultCount]
    · split
      · exact descend_within _ _
      · split <;> simp [Flow.Within, framedBy_iff, Quiet, samePart, bodyParts, State.resultCount]
  case symWrite a =>
    unfold symWriteReply Flow.Within
    split <;> simp [framedBy_iff, Quiet, samePart, bodyParts, State.resultCount, waitBody]

/-- An answered request writes no more than its body may, and its reply belongs to the same body. -/
theorem serve_within {w : Wait} {s : State} {r : Reply} {e : Env} (h : serve w s.env = some (r, e)) :
    replyBody r = waitBody w ∧ FramedBy (bodyParts (waitBody w)) s (s.setReply r e) := by
  cases w <;> simp only [serve, Env.request] at h <;> repeat' split at h
  all_goals simp only [Option.map_some, Option.map_none, Option.some.injEq, Prod.mk.injEq, reduceCtorEq] at h
  all_goals obtain ⟨rfl, rfl⟩ := h
  all_goals simp only [replyBody, waitBody, true_and]
  all_goals simp [framedBy_iff, samePart, bodyParts, Env.takeByte, Env.rewindBytes, Env.putByte, Env.putHeader, Env.putBit,
    Env.takeHeader, Env.takeBit]
  all_goals (try split) <;> simp

/-- The bodies of a command write no more than its rule names. -/
theorem commandBodies_parts (i : Instr) : ∀ b ∈ commandBodies i, bodyParts b ⊆ mayWrite i := by
  cases i <;> simp [commandBodies, bodyParts, mayWrite]

/-- Starting a body is settling what its start comes to. -/
theorem runBodies_cons {b : Body} (hb : b ≠ .softReset) (todo : List Body) (s : State) :
    runBodies (b :: todo) s = settle (startBody b (s.enterBody b todo)) := by
  have h := startBody_within b (s.enterBody b todo)
  unfold runBodies settle
  cases hf : startBody b (s.enterBody b todo) with
  | ask w t => rfl
  | raise n d t => rfl
  | done t =>
    have ht : t.run.todo = todo := by
      by_cases hc : b = .clearFault
      · subst hc
        cases hf
        rfl
      · rw [hf] at h
        exact (h.2 hb hc).2.2.2
    simp only [ht]

end Sys2Proof.Machine
end

