-- ==== Sys2Proof/Laws/Forest.lean ====
section
/-! SUPPORT. What the priority forest's operations do: a dequeue takes one entry and leaves the others, a merge keeps the
leaves and the weight, and the merge loop ends with one entry (42_tree_builder.md R190-R200). -/

namespace Sys2Proof.Machine

/-! ## Trees -/

theorem treeLeaves_length_pos (t : Tree) : 0 < (treeLeaves t).length := by
  induction t with
  | leaf s => simp [treeLeaves]
  | node z o hz ho => simp [treeLeaves]; omega

/-- A tree of `L` leaves has `2 L - 1` nodes (R46). -/
theorem treeSize_leaves (t : Tree) : treeSize t + 1 = 2 * (treeLeaves t).length := by
  induction t with
  | leaf s => rfl
  | node z o hz ho => simp only [treeSize, treeLeaves, List.length_append]; omega

/-! ## The leaves, weight and length of a forest -/

/-- The leaves of all entries. -/
def forestLeaves (l : List Entry) : List Symbol := l.flatMap fun e => treeLeaves e.tree

/-- The sum of all weights. -/
def forestWeight (l : List Entry) : Nat := (l.map fun e => e.weight.toNat).sum

@[simp] theorem forestLeaves_nil : forestLeaves [] = [] := rfl
@[simp] theorem forestLeaves_cons (e : Entry) (l : List Entry) :
    forestLeaves (e :: l) = treeLeaves e.tree ++ forestLeaves l := rfl
@[simp] theorem forestLeaves_append (l m : List Entry) : forestLeaves (l ++ m) = forestLeaves l ++ forestLeaves m := by
  simp [forestLeaves]
@[simp] theorem forestWeight_nil : forestWeight [] = 0 := rfl
@[simp] theorem forestWeight_cons (e : Entry) (l : List Entry) :
    forestWeight (e :: l) = e.weight.toNat + forestWeight l := rfl
@[simp] theorem forestWeight_append (l m : List Entry) : forestWeight (l ++ m) = forestWeight l + forestWeight m := by
  simp [forestWeight]

theorem forestLeaves_perm {l m : List Entry} (h : l.Perm m) : (forestLeaves l).Perm (forestLeaves m) :=
  h.flatMap_right _

theorem forestWeight_perm {l m : List Entry} (h : l.Perm m) : forestWeight l = forestWeight m :=
  (h.map _).sum_eq

/-! ## Dequeue -/

theorem extractMin_perm (e : Entry) (l : List Entry) : (e :: l).Perm ((extractMin e l).1 :: (extractMin e l).2) := by
  induction l generalizing e with
  | nil => exact .refl _
  | cons x l ih =>
    unfold extractMin
    split
    · have h := ih x
      calc (e :: x :: l).Perm (e :: (extractMin x l).1 :: (extractMin x l).2) := h.cons e
        _ |>.Perm ((extractMin x l).1 :: e :: (extractMin x l).2) := .swap _ _ _
    · have h := ih e
      calc (e :: x :: l).Perm (x :: e :: l) := .swap _ _ _
        _ |>.Perm (x :: (extractMin e l).1 :: (extractMin e l).2) := h.cons x
        _ |>.Perm ((extractMin e l).1 :: x :: (extractMin e l).2) := .swap _ _ _

/-- The priority order, on numbers (R191). -/
theorem precedes_iff (a b : Entry) :
    precedes a b = true ↔ a.weight.toNat < b.weight.toNat ∨ (a.weight = b.weight ∧ a.seq.toNat < b.seq.toNat) := by
  simp [precedes, BitVec.lt_def]

/-- A dequeue takes one entry and leaves the others. -/
theorem dequeueMin_perm {f f' : Forest} {m : Entry} (h : dequeueMin f = some (m, f')) :
    f.entries.Perm (m :: f'.entries) ∧ f'.next = f.next := by
  unfold dequeueMin at h
  split at h
  · cases h
  · rename_i e rest he
    injection h with h
    obtain ⟨rfl, rfl⟩ := Prod.mk.inj h
    rw [he]
    exact ⟨extractMin_perm e rest, rfl⟩

/-- A dequeue answers unless the forest is empty (R192). -/
theorem dequeueMin_some {f : Forest} (h : f.entries ≠ []) : ∃ m f', dequeueMin f = some (m, f') := by
  unfold dequeueMin
  split
  · contradiction
  · exact ⟨_, _, rfl⟩

/-! ## The merge loop (R200) -/

/-- What one merge leaves: one entry fewer, the same leaves, the same weight if the sum fits (R193). -/
theorem merge_keeps {f f1 f2 : Forest} {a b : Entry} (ha : dequeueMin f = some (a, f1))
    (hb : dequeueMin f1 = some (b, f2)) :
    (enqueueMerged f2 a b).entries.length + 1 = f.entries.length ∧
    (forestLeaves (enqueueMerged f2 a b).entries).Perm (forestLeaves f.entries) ∧
    (forestWeight f.entries < 2 ^ 40 → forestWeight (enqueueMerged f2 a b).entries = forestWeight f.entries) := by
  have h1 := (dequeueMin_perm ha).1
  have h2 := (dequeueMin_perm hb).1
  have h : f.entries.Perm (a :: b :: f2.entries) := h1.trans (h2.cons a)
  refine ⟨?_, ?_, ?_⟩
  · simpa [enqueueMerged, enqueue] using h.length_eq.symm
  · refine List.Perm.trans ?_ (forestLeaves_perm h).symm
    simp only [enqueueMerged, enqueue, forestLeaves_append, forestLeaves_cons, forestLeaves_nil, treeLeaves,
      List.append_nil]
    exact List.perm_append_comm.trans (by rw [List.append_assoc])
  · intro hw
    have := forestWeight_perm h
    simp only [forestWeight_cons] at this
    simp only [enqueueMerged, enqueue, forestWeight_append, forestWeight_cons, forestWeight_nil, BitVec.toNat_add]
    rw [Nat.mod_eq_of_lt (by omega)]
    omega

/-- The merge loop of a forest with at least one entry ends with exactly one, whose tree has all the leaves and whose
weight is the sum of all weights. -/
theorem mergeLoop_one (n : Nat) (f : Forest) (hne : f.entries ≠ []) (hn : f.entries.length ≤ n + 1) :
    ∃ e, (mergeLoop n f).entries = [e] ∧ (treeLeaves e.tree).Perm (forestLeaves f.entries) ∧
      (forestWeight f.entries < 2 ^ 40 → e.weight.toNat = forestWeight f.entries) := by
  induction n generalizing f with
  | zero =>
    obtain ⟨e, he⟩ := List.length_eq_one_iff.1 (Nat.le_antisymm hn (List.length_pos_iff.2 hne))
    exact ⟨e, he, by simp [he], fun _ => by simp [he]⟩
  | succ n ih =>
    obtain ⟨a, f1, ha⟩ := dequeueMin_some hne
    have h1 := (dequeueMin_perm ha).1
    by_cases hne1 : f1.entries = []
    · rw [hne1] at h1
      have h0 := List.perm_singleton.1 h1
      have hd : dequeueMin f1 = none := by unfold dequeueMin; rw [hne1]
      refine ⟨a, ?_, by simp [h0], fun _ => by simp [h0]⟩
      unfold mergeLoop
      simp only [ha, hd, h0]
    · obtain ⟨b, f2, hb⟩ := dequeueMin_some hne1
      obtain ⟨hl, hp, hw⟩ := merge_keeps ha hb
      have hm : mergeLoop (n + 1) f = mergeLoop n (enqueueMerged f2 a b) := by
        unfold mergeLoop
        simp only [ha, hb]
        cases n <;> rfl
      obtain ⟨e, he, hp', hw'⟩ := ih (enqueueMerged f2 a b) (by simp [enqueueMerged, enqueue]) (by omega)
      exact ⟨e, by rw [hm, he], hp'.trans hp, fun h => by rw [hw' (by rw [hw h]; exact h), hw h]⟩

/-! ## The leaves (R194, R195) -/

/-- Enqueuing leaves adds them at the end, in the order given, but for the symbols with count 0. -/
theorem foldl_enqueueLeaf (freq : Vector Count 256) (l : List Symbol) (f : Forest) :
    (l.foldl (enqueueLeaf freq) f).entries.map (fun e => (e.tree, e.weight)) =
      f.entries.map (fun e => (e.tree, e.weight)) ++
        (l.filter fun s => decide (symGet freq s ≠ 0#32)).map fun s => (Tree.leaf s, (symGet freq s).zeroExtend 40) := by
  induction l generalizing f with
  | nil => simp
  | cons s l ih =>
    rw [List.foldl_cons, ih]
    unfold enqueueLeaf
    by_cases h : symGet freq s = 0#32
    · simp [h]
    · simp [h, enqueue]

/-- The leaves of a table's forest are its present symbols. -/
theorem forestLeaves_leafForest (freq : Vector Count 256) :
    forestLeaves (leafForest freq).entries = presentSymbols freq := by
  have h := congrArg (List.flatMap fun x : Tree × Weight => treeLeaves x.1)
    (foldl_enqueueLeaf freq Config.leafOrder Forest.empty)
  simpa [List.flatMap_map, Forest.empty, forestLeaves, leafForest, presentSymbols, treeLeaves] using h

/-- There are as many leaves as present symbols. -/
theorem leafForest_length (freq : Vector Count 256) :
    (leafForest freq).entries.length = (presentSymbols freq).length := by
  have h := congrArg List.length (foldl_enqueueLeaf freq Config.leafOrder Forest.empty)
  simpa [Forest.empty, leafForest, presentSymbols] using h

/-- There are at most 256 present symbols. -/
theorem presentSymbols_length (freq : Vector Count 256) : (presentSymbols freq).length ≤ 256 := by
  refine (List.length_filter_le _ _).trans ?_
  simp [Config.leafOrder]

/-- Reading a table in the order of the symbols gives the table. -/
theorem map_symGet_leafOrder {α : Type} (v : Vector α 256) : Config.leafOrder.map (symGet v) = v.toList := by
  apply List.ext_getElem
  · simp [Config.leafOrder]
  · intro i h1 h2
    have hi : i % 256 = i := Nat.mod_eq_of_lt (by simpa [Config.leafOrder] using h1)
    simp [Config.leafOrder, symGet, hi]

/-- No sum of counters passes a weight's width (R12). -/
theorem freqSum_lt (freq : Vector Count 256) : freqSum freq < 2 ^ 40 := by
  have h : ∀ l : List Count, (l.map BitVec.toNat).sum ≤ l.length * (2 ^ 32 - 1) := by
    intro l
    induction l with
    | nil => simp
    | cons x l ih =>
      have := x.isLt
      simp only [List.map_cons, List.sum_cons, List.length_cons]
      omega
  have := h freq.toList
  rw [Vector.length_toList] at this
  unfold freqSum
  omega

@[simp] theorem freqSum_zeroFreq : freqSum zeroFreq = 0 := by
  simp only [freqSum, zeroFreq, Vector.toList_replicate, List.map_replicate, List.sum_replicate, BitVec.toNat_zero,
    smul_zero]

/-- Replacing one counter changes the sum by the difference. -/
theorem freqSum_symSet (freq : Vector Count 256) (b : Symbol) (x : Count) :
    freqSum (symSet freq b x) + (symGet freq b).toNat = freqSum freq + x.toNat := by
  have h : ∀ (l : List Count) (i : Nat) (hi : i < l.length),
      ((l.set i x).map BitVec.toNat).sum + l[i].toNat = (l.map BitVec.toNat).sum + x.toNat := by
    intro l
    induction l with
    | nil => intro i hi; simp at hi
    | cons y l ih =>
      intro i hi
      cases i with
      | zero => simp; omega
      | succ i =>
        have := ih i (by simpa using hi)
        simp only [List.set_cons_succ, List.map_cons, List.sum_cons, List.getElem_cons_succ]
        omega
  have := h freq.toList b.toNat (by rw [Vector.length_toList]; exact b.isLt)
  simpa [freqSum, symSet, symGet, Vector.toList_set] using this

/-- The leaves' weights sum to the table's counters. -/
theorem forestWeight_leafForest (freq : Vector Count 256) :
    forestWeight (leafForest freq).entries = freqSum freq := by
  have h := congrArg (fun l => (l.map fun x : Tree × Weight => x.2.toNat).sum)
    (foldl_enqueueLeaf freq Config.leafOrder Forest.empty)
  have hw : ∀ l : List Symbol, (((l.filter fun s => decide (symGet freq s ≠ 0#32)).map
      fun s => (Tree.leaf s, (symGet freq s).zeroExtend 40)).map fun x : Tree × Weight => x.2.toNat).sum =
      (l.map fun s => (symGet freq s).toNat).sum := by
    intro l
    induction l with
    | nil => rfl
    | cons s l ih =>
      by_cases h0 : symGet freq s = 0#32
      · simpa [h0] using ih
      · have := (symGet freq s).isLt
        have e : (symGet freq s).toNat % 1099511627776 = (symGet freq s).toNat := Nat.mod_eq_of_lt (by omega)
        simpa [h0, e] using ih
  simp only [List.map_append, List.sum_append, hw] at h
  have e : (Config.leafOrder.map fun s => (symGet freq s).toNat) = freq.toList.map BitVec.toNat := by
    rw [← map_symGet_leafOrder freq, List.map_map]; rfl
  rw [e] at h
  simpa [Forest.empty, forestWeight, leafForest, freqSum, Function.comp_def] using h

/-- The forest after the merges: empty when no symbol is present, else one entry with all present symbols as leaves and
the sum of all counters as weight. -/
theorem mergedForest_cases (freq : Vector Count 256) :
    (presentSymbols freq = [] ∧ (mergedForest freq).entries = []) ∨
    ∃ e, (mergedForest freq).entries = [e] ∧ (treeLeaves e.tree).Perm (presentSymbols freq) ∧
      e.weight.toNat = freqSum freq := by
  by_cases h : (leafForest freq).entries = []
  · left
    have h0 := leafForest_length freq
    rw [h] at h0
    exact ⟨List.length_eq_zero_iff.1 h0.symm, by unfold mergedForest; rw [h]; exact h⟩
  · right
    obtain ⟨e, he, hp, hw⟩ := mergeLoop_one (leafForest freq).entries.length (leafForest freq) h (by omega)
    refine ⟨e, he, by rwa [forestLeaves_leafForest] at hp, ?_⟩
    rw [hw (by rw [forestWeight_leafForest]; exact freqSum_lt freq), forestWeight_leafForest]

/-! ## TREE_BUILD's body (R200) -/

@[simp] theorem storeRoot_storeTree (t : Tree) : storeRoot (storeTree t) = some t := by cases t <;> rfl

@[simp] theorem storeNodes_storeTree (t : Tree) : storeNodes (storeTree t) = treeSize t := by cases t <;> rfl

@[simp] theorem storeLeaves_storeTree (t : Tree) : storeLeaves (storeTree t) = (treeLeaves t).length := by cases t <;> rfl

/-- The store TREE_BUILD makes, and the weight it has. -/
theorem mergedForest_store (freq : Vector Count 256) :
    (presentSymbols freq = [] ∧ dequeueMin (mergedForest freq) = none ∧ builtStore freq = .empty ∧ freqSum freq = 0) ∨
    ∃ e f, dequeueMin (mergedForest freq) = some (e, f) ∧ builtStore freq = storeTree e.tree ∧
      (treeLeaves e.tree).Perm (presentSymbols freq) ∧ e.weight.toNat = freqSum freq := by
  rcases mergedForest_cases freq with ⟨h, h1⟩ | ⟨e, h1, h2, h3⟩
  · have hd : dequeueMin (mergedForest freq) = none := by unfold dequeueMin; rw [h1]
    have hw := forestWeight_leafForest freq
    have hl := leafForest_length freq
    rw [h] at hl
    rw [List.length_eq_zero_iff.1 hl] at hw
    exact .inl ⟨h, hd, by unfold builtStore; rw [hd], hw.symm⟩
  · have hd : ∃ f, dequeueMin (mergedForest freq) = some (e, f) := by unfold dequeueMin; rw [h1]; exact ⟨_, rfl⟩
    obtain ⟨f, hf⟩ := hd
    exact .inr ⟨e, f, hf, by unfold builtStore; rw [hf], h2, h3⟩

/-- TREE_BUILD's body always ends, with the built store and the sum of all counters. -/
theorem bodyTreeBuild_eq (s : State) : ∃ f w, w.toNat = freqSum s.freq ∧
    bodyTreeBuild s =
      .done ((({ s with mapValid := false }.setForest f).setTree (builtStore s.freq)).setResult w) := by
  unfold bodyTreeBuild
  dsimp only
  rcases mergedForest_store s.freq with ⟨_, h1, h2, h3⟩ | ⟨e, f, h1, h2, _, h3⟩
  · refine ⟨mergedForest s.freq, 0#64, by simp [h3], ?_⟩
    rw [State.setForest_run]
    simp only [h1, h2]
  · refine ⟨f, e.weight.zeroExtend 64, ?_, ?_⟩
    · rw [← h3]
      have := e.weight.isLt
      simp only [BitVec.truncate_eq_setWidth, BitVec.toNat_setWidth]
      omega
    · rw [State.setForest_run]
      simp only [h1, h2]
      rfl

end Sys2Proof.Machine
end

