-- ==== Sys2Proof/Laws/Maps.lean ====
section
/-! SUPPORT. Positions in a tree, and what the walk that makes the code map does (44_code_map.md R250, 45_bitstream.md
R278). -/

namespace Sys2Proof.Machine

/-! ## Positions -/

@[simp] theorem treeAt_nil (t : Tree) : treeAt t [] = some t := by unfold treeAt; rfl

@[simp] theorem treeAt_node_cons (z o : Tree) (x : Bit) (p : List Bit) :
    treeAt (.node z o) (x :: p) = treeAt (if x then o else z) p := rfl

@[simp] theorem treeAt_leaf_cons (s : Symbol) (x : Bit) (p : List Bit) : treeAt (.leaf s) (x :: p) = none := rfl

/-- A path made of two is taken one after the other. -/
theorem treeAt_append (t : Tree) (p q : List Bit) : treeAt t (p ++ q) = (treeAt t p).bind fun u => treeAt u q := by
  induction p generalizing t with
  | nil => simp
  | cons x p ih =>
    cases t with
    | leaf s => simp
    | node z o => exact ih _

/-- A symbol is a leaf exactly when some path leads to it. -/
theorem mem_treeLeaves_iff (t : Tree) (b : Symbol) : b ∈ treeLeaves t ↔ ∃ p, treeAt t p = some (.leaf b) := by
  induction t with
  | leaf s =>
    constructor
    · intro h
      rw [List.mem_singleton.1 h]
      exact ⟨[], rfl⟩
    · rintro ⟨p, hp⟩
      cases p with
      | nil => simp at hp; simp [treeLeaves, hp]
      | cons x p => simp at hp
  | node z o hz ho =>
    simp only [treeLeaves, List.mem_append, hz, ho]
    constructor
    · rintro (⟨p, hp⟩ | ⟨p, hp⟩)
      · exact ⟨false :: p, by simpa using hp⟩
      · exact ⟨true :: p, by simpa using hp⟩
    · rintro ⟨p, hp⟩
      cases p with
      | nil => simp at hp
      | cons x p => cases x <;> simp at hp <;> [exact .inl ⟨p, hp⟩; exact .inr ⟨p, hp⟩]

/-- A path is no longer than half the nodes it leaves behind. -/
theorem treeAt_length {t u : Tree} {p : List Bit} (h : treeAt t p = some u) :
    2 * p.length + treeSize u ≤ treeSize t := by
  induction p generalizing t with
  | nil => simp at h; simp [h]
  | cons x p ih =>
    cases t with
    | leaf s => simp at h
    | node z o =>
      have hz := treeSize_leaves z
      have ho := treeSize_leaves o
      have hz' := treeLeaves_length_pos z
      have ho' := treeLeaves_length_pos o
      have := ih h
      cases x <;> simp [treeSize] at this ⊢ <;> omega

/-- Of two paths to leaves, neither begins with the other unless they are the same. -/
theorem treeAt_prefix {t : Tree} {p q : List Bit} {a b : Symbol} (hp : treeAt t p = some (.leaf a))
    (hq : treeAt t q = some (.leaf b)) (h : p <+: q) : p = q := by
  obtain ⟨r, rfl⟩ := h
  rw [treeAt_append, hp] at hq
  cases r with
  | nil => simp
  | cons x r => simp at hq

/-- In a tree with distinct leaves, one path leads to a symbol. -/
theorem treeAt_unique {t : Tree} (hd : (treeLeaves t).Nodup) {p q : List Bit} {b : Symbol}
    (hp : treeAt t p = some (.leaf b)) (hq : treeAt t q = some (.leaf b)) : p = q := by
  induction t generalizing p q with
  | leaf s =>
    cases p <;> cases q <;> simp at hp hq
    rfl
  | node z o hz ho =>
    rw [treeLeaves, List.nodup_append'] at hd
    obtain ⟨hdz, hdo, hdis⟩ := hd
    cases p with
    | nil => simp at hp
    | cons x p =>
      cases q with
      | nil => simp at hq
      | cons y q =>
        rw [treeAt_node_cons] at hp hq
        cases x <;> cases y <;> simp only [Bool.false_eq_true, if_false, if_true] at hp hq
        · rw [hz hdz hp hq]
        · exact (hdis ((mem_treeLeaves_iff z b).2 ⟨p, hp⟩) ((mem_treeLeaves_iff o b).2 ⟨q, hq⟩)).elim
        · exact (hdis ((mem_treeLeaves_iff z b).2 ⟨q, hq⟩) ((mem_treeLeaves_iff o b).2 ⟨p, hp⟩)).elim
        · rw [ho hdo hp hq]

/-! ## The walk -/

/-- A walk that meets only new symbols writes each leaf's path under its symbol and touches no other entry. -/
theorem walk_new (t : Tree) (p : List Bit) (m : Vector MapEntry 256) (hd : (treeLeaves t).Nodup)
    (hm : ∀ b ∈ treeLeaves t, (symGet m b).present = false) :
    (walk t p m).2 = none ∧
    (∀ b q, treeAt t q = some (.leaf b) → symGet (walk t p m).1 b = { present := true, code := p ++ q }) ∧
    (∀ b, b ∉ treeLeaves t → symGet (walk t p m).1 b = symGet m b) := by
  induction t generalizing p m with
  | leaf s =>
    have hs : (symGet m s).present = false := hm s (by simp [treeLeaves])
    simp only [walk, hs, Bool.false_eq_true, if_false, true_and]
    refine ⟨?_, ?_⟩
    · intro b q hq
      cases q with
      | nil => simp at hq; simp [hq]
      | cons x q => simp at hq
    · intro b hb
      simp only [treeLeaves, List.mem_singleton] at hb
      rw [symGet_symSet, if_neg hb]
  | node z o hz ho =>
    rw [treeLeaves, List.nodup_append'] at hd
    obtain ⟨hdz, hdo, hdis⟩ := hd
    obtain ⟨z1, z2, z3⟩ := hz (p ++ [false]) m hdz fun b hb => hm b (by simp [treeLeaves, hb])
    obtain ⟨o1, o2, o3⟩ := ho (p ++ [true]) (walk z (p ++ [false]) m).1 hdo fun b hb => by
      rw [z3 b fun hzb => hdis hzb hb]
      exact hm b (by simp [treeLeaves, hb])
    have hw : walk (.node z o) p m = walk o (p ++ [true]) (walk z (p ++ [false]) m).1 := by
      rw [walk]
      generalize hg : walk z (p ++ [false]) m = r at z1
      obtain ⟨m1, d⟩ := r
      simp only at z1
      rw [z1]
    rw [hw]
    refine ⟨o1, ?_, ?_⟩
    · intro b q hq
      cases q with
      | nil => simp at hq
      | cons x q =>
        rw [treeAt_node_cons] at hq
        cases x
        · simp only [Bool.false_eq_true, if_false] at hq
          rw [o3 b fun hob => hdis ((mem_treeLeaves_iff z b).2 ⟨q, hq⟩) hob, z2 b q hq]
          simp
        · simp only [if_true] at hq
          rw [o2 b q hq]
          simp
    · intro b hb
      simp only [treeLeaves, List.mem_append, not_or] at hb
      rw [o3 b hb.2, z3 b hb.1]

/-- A walk that meets no symbol twice had distinct leaves, none of them written before, and writes exactly those. -/
theorem walk_none {t : Tree} {p : List Bit} {m : Vector MapEntry 256} (h : (walk t p m).2 = none) :
    (treeLeaves t).Nodup ∧ (∀ b ∈ treeLeaves t, (symGet m b).present = false) ∧
    (∀ b, (symGet (walk t p m).1 b).present = true ↔ (symGet m b).present = true ∨ b ∈ treeLeaves t) := by
  induction t generalizing p m with
  | leaf s =>
    cases hs : (symGet m s).present with
    | true => simp [walk, hs] at h
    | false =>
      refine ⟨by simp [treeLeaves], by simp [treeLeaves, hs], fun b => ?_⟩
      simp only [walk, hs, Bool.false_eq_true, if_false, symGet_symSet, treeLeaves, List.mem_singleton]
      by_cases hb : b = s <;> simp [hb]
  | node z o hz ho =>
    rw [walk] at h
    generalize hg : walk z (p ++ [false]) m = r at h
    obtain ⟨m1, d⟩ := r
    cases d with
    | some d => simp at h
    | none =>
      simp only at h
      obtain ⟨z1, z2, z3⟩ := hz (p := p ++ [false]) (m := m) (by rw [hg])
      obtain ⟨o1, o2, o3⟩ := ho h
      rw [hg] at z3
      have hdis : ∀ b ∈ treeLeaves o, b ∉ treeLeaves z := fun b hb hzb => by
        have h1 := o2 b hb
        have h2 := (z3 b).2 (.inr hzb)
        simp only at h2
        rw [h2] at h1
        cases h1
      refine ⟨?_, ?_, ?_⟩
      · rw [treeLeaves, List.nodup_append']
        exact ⟨z1, o1, fun b hzb hob => hdis b hob hzb⟩
      · intro b hb
        simp only [treeLeaves, List.mem_append] at hb
        rcases hb with hb | hb
        · exact z2 b hb
        · have h1 := o2 b hb
          cases h2 : (symGet m b).present with
          | false => rfl
          | true => rw [(z3 b).2 (.inl h2)] at h1; cases h1
      · intro b
        have hw : (walk (.node z o) p m).1 = (walk o (p ++ [true]) m1).1 := by rw [walk, hg]
        rw [hw, o3 b, z3 b]
        simp [treeLeaves, or_assoc]

/-- The symbol a walk stops at was met before, in the map or in the tree. -/
theorem walk_some {t : Tree} {p : List Bit} {m : Vector MapEntry 256} {d : Symbol} (h : (walk t p m).2 = some d) :
    d ∈ treeLeaves t ∧ ((symGet m d).present = true ∨ 2 ≤ (treeLeaves t).count d) := by
  induction t generalizing p m with
  | leaf s =>
    cases hs : (symGet m s).present with
    | true => simp [walk, hs] at h; subst h; exact ⟨by simp [treeLeaves], .inl hs⟩
    | false => simp [walk, hs] at h
  | node z o hz ho =>
    rw [walk] at h
    simp only [treeLeaves, List.mem_append, List.count_append]
    generalize hg : walk z (p ++ [false]) m = r at h
    obtain ⟨m1, d'⟩ := r
    cases d' with
    | some d' =>
      simp only [Option.some.injEq] at h
      subst h
      obtain ⟨h1, h2⟩ := hz (p := p ++ [false]) (m := m) (by rw [hg])
      exact ⟨.inl h1, h2.imp id fun h => by omega⟩
    | none =>
      simp only at h
      obtain ⟨h1, h2⟩ := ho h
      refine ⟨.inr h1, ?_⟩
      rcases h2 with h2 | h2
      · obtain ⟨-, -, h3⟩ := walk_none (t := z) (p := p ++ [false]) (m := m) (by rw [hg])
        rw [hg] at h3
        rcases (h3 d).1 h2 with h3 | h3
        · exact .inl h3
        · have a := List.count_pos_iff.2 h1
          have b := List.count_pos_iff.2 h3
          exact .inr (by omega)
      · exact .inr (by omega)

/-- The symbols in LEAF_ORDER are all symbols, each once. -/
theorem leafOrder_nodup : Config.leafOrder.Nodup := by
  refine List.Nodup.map_on ?_ List.nodup_range
  intro x hx y hy h
  have := congrArg BitVec.toNat h
  simp only [List.mem_range] at hx hy
  simpa [Nat.mod_eq_of_lt hx, Nat.mod_eq_of_lt hy] using this

theorem mem_leafOrder (b : Symbol) : b ∈ Config.leafOrder := by
  simp only [Config.leafOrder, List.mem_map, List.mem_range]
  exact ⟨b.toNat, b.isLt, by simp⟩

/-- A map whose present entries are the symbols of a list without repeats has as many as the list is long. -/
theorem presentCount_eq {m : Vector MapEntry 256} {l : List Symbol} (hd : l.Nodup)
    (h : ∀ b, (symGet m b).present = true ↔ b ∈ l) : presentCount m = l.length := by
  unfold presentCount
  rw [← map_symGet_leafOrder m, List.countP_map, List.countP_eq_length_filter]
  refine List.Perm.length_eq ((List.perm_ext_iff_of_nodup (leafOrder_nodup.filter _) hd).2 fun b => ?_)
  simp [mem_leafOrder, h]

end Sys2Proof.Machine
end

