-- ==== Sys2Proof/Laws/Streams.lean ====
section
/-! SUPPORT. The loops over the ports, when every request is answered: what they leave when they end, and after how many
steps (41_frequency.md R171, 45_bitstream.md R272, R280). -/

namespace Sys2Proof.Machine

/-! ## What the ports answer -/

/-- ByteRead gives the first of the bytes left, and there is one fewer. -/
theorem Env.takeByte_cons {e : Env} {b : Byte} {l : List Byte} (h : e.bytesLeft = b :: l) :
    e.takeByte = (.byte b, { e with inCursor := e.inCursor + 1 }) ∧
      ({ e with inCursor := e.inCursor + 1 } : Env).bytesLeft = l := by
  unfold Env.bytesLeft at h ⊢
  have hg : e.inBytes[e.inCursor]? = some b := by
    rw [← List.head?_drop, h]; rfl
  refine ⟨by unfold Env.takeByte sourceByte; rw [hg], ?_⟩
  have := congrArg List.tail h
  rwa [List.tail_drop] at this

/-- ByteRead gives EOF when no byte is left of a source that ends. -/
theorem Env.takeByte_nil {e : Env} (h : e.bytesLeft = []) (he : e.inEnding = .ends) : e.takeByte = (.eof, e) := by
  unfold Env.bytesLeft at h
  have hg : e.inBytes[e.inCursor]? = none := by rw [← List.head?_drop, h]; rfl
  unfold Env.takeByte sourceByte; rw [hg, he]

/-- ByteRead gives a byte, and never EOF, of a source without an end (R99). -/
theorem Env.takeByte_endless {e : Env} {k : Nat} (he : e.inEnding = .endless k) :
    ∃ b, e.takeByte = (.byte b, { e with inCursor := e.inCursor + 1 }) := by
  unfold Env.takeByte sourceByte
  rw [he]
  cases e.inBytes[e.inCursor]? with
  | some b => exact ⟨b, rfl⟩
  | none => exact ⟨_, rfl⟩

/-- BitRead gives the first of the answers left, and there is one fewer. -/
theorem Env.takeBit_cons {e : Env} {r : BitVec 2} {l : List (BitVec 2)} (h : e.bitsLeft = r :: l) :
    e.takeBit = (r, { e with bitCursor := e.bitCursor + 1 }) ∧
      ({ e with bitCursor := e.bitCursor + 1 } : Env).bitsLeft = l := by
  unfold Env.bitsLeft at h ⊢
  have hg : e.bitsIn[e.bitCursor]? = some r := by
    rw [← List.head?_drop, h]; rfl
  refine ⟨by unfold Env.takeBit sourceAnswer; rw [hg], ?_⟩
  have := congrArg List.tail h
  rwa [List.tail_drop] at this

/-- BitRead gives END when no answer is left of a source that ends. -/
theorem Env.takeBit_nil {e : Env} (h : e.bitsLeft = []) (he : e.bitsEnding = .ends) : e.takeBit = (0b10#2, e) := by
  unfold Env.bitsLeft at h
  have hg : e.bitsIn[e.bitCursor]? = none := by rw [← List.head?_drop, h]; rfl
  unfold Env.takeBit sourceAnswer; rw [hg, he]

/-- The answer that stands for a bit reads as that bit (R134). -/
@[simp] theorem bitOf_bitAnswer (x : Bit) : bitOf (bitAnswer x) = some x := by cases x <;> rfl

/-- BitRead gives a bit, and never END, of a source without an end whose listed answers are bits (R99). -/
theorem Env.takeBit_endless {e : Env} {k : Nat} (he : e.bitsEnding = .endless k)
    (hbits : ∀ r ∈ e.bitsLeft, bitOf r ≠ none) :
    ∃ r, e.takeBit = (r, { e with bitCursor := e.bitCursor + 1 }) ∧ bitOf r ≠ none ∧
      ∀ q ∈ ({ e with bitCursor := e.bitCursor + 1 } : Env).bitsLeft, bitOf q ≠ none := by
  cases hl : e.bitsLeft with
  | cons r l =>
    obtain ⟨h1, h2⟩ := Env.takeBit_cons hl
    rw [hl] at hbits
    exact ⟨r, h1, hbits r List.mem_cons_self, fun q hq => hbits q (List.mem_cons_of_mem _ (h2 ▸ hq))⟩
  | nil =>
    have hg : e.bitsIn[e.bitCursor]? = none := by
      unfold Env.bitsLeft at hl
      rw [← List.head?_drop, hl]; rfl
    refine ⟨bitAnswer (Config.endlessBit k e.bitCursor), by unfold Env.takeBit sourceAnswer; rw [hg, he], by simp, ?_⟩
    intro q hq
    have : q ∈ e.bitsLeft.tail := by unfold Env.bitsLeft at hq ⊢; rwa [List.tail_drop]
    rw [hl] at this
    cases this

/-! ## FREQ_COUNT's loop -/

/-- The table after the bytes `l` are counted into it. -/
def countInto (freq : Vector Count 256) (l : List Byte) : Vector Count 256 :=
  l.foldl (fun f b => symSet f b (symGet f b + 1#32)) freq

/-- Counting adds to each symbol's counter how often it occurs. -/
theorem symGet_countInto (freq : Vector Count 256) (l : List Byte) (b : Symbol) :
    symGet (countInto freq l) b = symGet freq b + BitVec.ofNat 32 (l.count b) := by
  induction l generalizing freq with
  | nil => simp [countInto]
  | cons x l ih =>
    show symGet (countInto _ l) b = _
    rw [ih, symGet_symSet]
    by_cases h : b = x
    · subst h
      rw [if_pos rfl, List.count_cons_self, BitVec.add_assoc]
      congr 1
      rw [← BitVec.ofNat_add, Nat.add_comm]
    · rw [if_neg h, List.count_cons_of_ne (Ne.symm h)]

/-- Counting `l` adds its length to the sum of all counters, if no counter is passed. -/
theorem freqSum_countInto {freq : Vector Count 256} {l : List Byte}
    (h : ∀ b, (symGet freq b).toNat + l.count b < 2 ^ 32) : freqSum (countInto freq l) = freqSum freq + l.length := by
  induction l generalizing freq with
  | nil => rfl
  | cons x l ih =>
    have hx := h x
    rw [List.count_cons_self] at hx
    have hone : (1#32).toNat = 1 := rfl
    have hadd : (symGet freq x + 1#32).toNat = (symGet freq x).toNat + 1 := by
      rw [BitVec.toNat_add, hone, Nat.mod_eq_of_lt (by omega)]
    show freqSum (countInto (symSet freq x (symGet freq x + 1#32)) l) = _
    rw [ih]
    · have := freqSum_symSet freq x (symGet freq x + 1#32)
      simp only [List.length_cons]
      omega
    · intro b
      have hb := h b
      rw [symGet_symSet]
      by_cases hbx : b = x
      · subst hbx
        rw [List.count_cons_self] at hb
        rw [if_pos rfl]
        omega
      · rw [if_neg hbx]
        rwa [List.count_cons_of_ne (Ne.symm hbx)] at hb

/-- FREQ_COUNT's loop over the bytes left, from a ByteRead on: it counts them and goes on to the bodies that follow. -/
theorem countLoop {s : State} {l : List Byte} (n : Nat) (hb : s.status.busy = true) (hp : s.run.phase = .asking .countByte)
    (hd : s.env.draws = []) (he : s.env.inEnding = .ends) (hl : s.env.bytesLeft = l)
    (hfit : ∀ b, (symGet s.freq b).toNat + l.count b < 2 ^ 32) :
    seqRun (n + (2 * l.length + 2)) s = seqRun n (runBodies s.run.todo
      { s with
        freq := countInto s.freq l
        result := s.run.nCount + BitVec.ofNat 64 l.length
        run := { s.run with phase := .answered (.countByte (.value .eof)), nCount := s.run.nCount + BitVec.ofNat 64 l.length }
        env := { s.env with inCursor := s.env.inCursor + l.length } }) := by
  induction l generalizing s with
  | nil =>
    have hs : serve .countByte s.env = some (.countByte (.value .eof), s.env) := by
      simp only [serve, Env.request_served _ _ hd, Env.takeByte_nil hl he, Option.map_some]
    rw [show n + (2 * [].length + 2) = n + 2 by simp, seqRun_request hb hp hs]
    simp only [resume, countByteReply, settle, State.resultCount, State.setResult, State.setReply, List.length_nil,
      BitVec.add_zero, Nat.add_zero]
    rfl
  | cons x l ih =>
    obtain ⟨ht, hl'⟩ := Env.takeByte_cons hl
    have hs : serve .countByte s.env =
        some (.countByte (.value (.byte x)), { s.env with inCursor := s.env.inCursor + 1 }) := by
      simp only [serve, Env.request_served _ _ hd, ht, Option.map_some]
    have hx := hfit x
    rw [List.count_cons_self] at hx
    have hne : symGet s.freq x ≠ maxCount := fun h => by rw [h] at hx; simp [maxCount] at hx; omega
    rw [show n + (2 * (x :: l).length + 2) = (n + (2 * l.length + 2)) + 2 by simp; omega, seqRun_request hb hp hs]
    have hfr : (s.setReply (.countByte (.value (.byte x))) { s.env with inCursor := s.env.inCursor + 1 }).freq = s.freq :=
      rfl
    simp only [resume, countByteReply, hfr, if_neg hne, settle]
    rw [ih (s := ((_ : State).setCount _).setAsking _) (by exact hb) rfl (by exact hd) (by exact he) (by exact hl')]
    · have e : s.run.nCount + 1#64 + BitVec.ofNat 64 l.length = s.run.nCount + BitVec.ofNat 64 (x :: l).length := by
        rw [BitVec.add_assoc]
        congr 1
        rw [← BitVec.ofNat_add, List.length_cons, Nat.add_comm]
      simp only [State.setAsking, State.setCount, State.setReply, e]
      have e2 : s.env.inCursor + 1 + l.length = s.env.inCursor + (x :: l).length := by simp; omega
      rw [e2]
      rfl
    · intro b
      show (symGet (symSet s.freq x (symGet s.freq x + 1#32)) b).toNat + _ < _
      rw [symGet_symSet]
      have hfb := hfit b
      by_cases h : b = x
      · subst h
        rw [if_pos rfl, BitVec.toNat_add]
        rw [List.count_cons_self] at hfb
        have : (1#32).toNat = 1 := rfl
        rw [this, Nat.mod_eq_of_lt (by omega)]
        omega
      · rw [if_neg h]
        rwa [List.count_cons_of_ne (Ne.symm h)] at hfb

/-! ## ENCODE's loop -/

/-- A byte's code, bit by bit: the sink takes the bits and the next byte is asked for. -/
theorem encodeCode {s : State} (code : List Bit) (n : Nat) (hb : s.status.busy = true) (hd : s.env.draws = []) :
    seqRun (n + 2 * code.length) (settle (encodeBits code s)) = seqRun n
      { s with
        run := { s.run with phase := .asking .encByte, nCount := s.run.nCount + 1#64 }
        env := { s.env with bitsOut := s.env.bitsOut ++ code } } := by
  induction code generalizing s with
  | nil => simp only [encodeBits, settle, List.length_nil, List.append_nil]; rfl
  | cons x code ih =>
    have hs : serve (.encBit x code) s.env =
        some (.encBit code (.value ()), { s.env with bitsOut := s.env.bitsOut ++ [x] }) := by
      simp only [serve, Env.request_served _ _ hd, Option.map_some, Env.putBit]
    rw [show n + 2 * (x :: code).length = (n + 2 * code.length) + 2 by simp; omega]
    simp only [encodeBits, settle]
    rw [seqRun_request (s := s.setAsking (.encBit x code)) hb rfl hs]
    simp only [resume, encBitReply]
    rw [ih (by exact hb) (by exact hd)]
    simp only [State.setReply, State.setAsking, List.append_assoc, List.singleton_append]

/-- ENCODE's loop over the bytes left, from a ByteRead on, when every byte has a code. -/
theorem encodeLoop {s : State} {l : List Byte} (n : Nat) (hb : s.status.busy = true) (hp : s.run.phase = .asking .encByte)
    (hd : s.env.draws = []) (he : s.env.inEnding = .ends) (hl : s.env.bytesLeft = l) (hpr : ∀ b ∈ l, (symGet s.map b).present = true)
    (hfit : s.run.nCount.toNat + l.length < 2 ^ 64) :
    seqRun (n + (2 * l.length + 2 + 2 * (payload s.map l).length)) s = seqRun n (runBodies s.run.todo
      { s with
        result := s.run.nCount + BitVec.ofNat 64 l.length
        run := { s.run with phase := .answered (.encByte (.value .eof)), nCount := s.run.nCount + BitVec.ofNat 64 l.length }
        env := { s.env with inCursor := s.env.inCursor + l.length, bitsOut := s.env.bitsOut ++ payload s.map l } }) := by
  induction l generalizing s with
  | nil =>
    have hs : serve .encByte s.env = some (.encByte (.value .eof), s.env) := by
      simp only [serve, Env.request_served _ _ hd, Env.takeByte_nil hl he, Option.map_some]
    rw [show n + (2 * [].length + 2 + 2 * (payload s.map []).length) = n + 2 by simp [payload], seqRun_request hb hp hs]
    simp only [resume, encByteReply, settle, State.resultCount, State.setResult, State.setReply, List.length_nil,
      BitVec.add_zero, Nat.add_zero, payload, List.flatMap_nil, List.append_nil]
  | cons x l ih =>
    obtain ⟨ht, hl'⟩ := Env.takeByte_cons hl
    have hs : serve .encByte s.env =
        some (.encByte (.value (.byte x)), { s.env with inCursor := s.env.inCursor + 1 }) := by
      simp only [serve, Env.request_served _ _ hd, ht, Option.map_some]
    have hx : (symGet s.map x).present = true := hpr x (by simp)
    have hne : s.run.nCount ≠ maxItems := fun h => by rw [h] at hfit; simp [maxItems] at hfit; omega
    have hpay : payload s.map (x :: l) = (symGet s.map x).code ++ payload s.map l := by simp [payload]
    rw [show n + (2 * (x :: l).length + 2 + 2 * (payload s.map (x :: l)).length) =
        (n + (2 * l.length + 2 + 2 * (payload s.map l).length) + 2 * (symGet s.map x).code.length) + 2 by
      rw [hpay]; simp; omega, seqRun_request hb hp hs]
    have hm : (s.setReply (.encByte (.value (.byte x))) { s.env with inCursor := s.env.inCursor + 1 }).map = s.map := rfl
    have hc : (s.setReply (.encByte (.value (.byte x))) { s.env with inCursor := s.env.inCursor + 1 }).run.nCount =
        s.run.nCount := rfl
    simp only [resume, encByteReply, hm, hc, hx, if_true, if_neg hne]
    rw [encodeCode _ _ (by exact hb) (by exact hd)]
    have h := ih (s := { s with
        run := { s.run with phase := .asking .encByte, nCount := s.run.nCount + 1#64 }
        env := { s.env with inCursor := s.env.inCursor + 1, bitsOut := s.env.bitsOut ++ (symGet s.map x).code } })
      hb rfl hd he hl' (fun b h => hpr b (List.mem_cons_of_mem _ h)) (by
        show (s.run.nCount + 1#64).toNat + l.length < 2 ^ 64
        rw [BitVec.toNat_add]
        simp only [List.length_cons] at hfit
        have : (1#64).toNat = 1 := rfl
        rw [this, Nat.mod_eq_of_lt (by omega)]
        omega)
    refine Eq.trans h ?_
    have e : s.run.nCount + 1#64 + BitVec.ofNat 64 l.length = s.run.nCount + BitVec.ofNat 64 (x :: l).length := by
      rw [BitVec.add_assoc]
      congr 1
      rw [← BitVec.ofNat_add, List.length_cons, Nat.add_comm]
    have e2 : s.env.inCursor + 1 + l.length = s.env.inCursor + (x :: l).length := by simp; omega
    simp only [e, e2, hpay, List.append_assoc]

/-! ## DECODE's loops -/

/-- A single-leaf tree's loop, before a ByteWrite: the symbol is written `k` more times. -/
theorem leafLoop_run {s : State} (sym : Symbol) (k n : Nat) (hb : s.status.busy = true) (hd : s.env.draws = [])
    (hk : s.run.nCount.toNat + k = s.cur.arg.toNat) :
    ∃ ph, seqRun (n + 2 * k) (settle (leafLoop sym s)) = seqRun n (runBodies s.run.todo
      { s with
        result := s.cur.arg.zeroExtend 64
        run := { s.run with phase := ph, nCount := s.cur.arg.zeroExtend 64 }
        env := { s.env with outBytes := s.env.outBytes ++ List.replicate k sym } }) := by
  have harg := s.cur.arg.isLt
  have hz : (s.cur.arg.zeroExtend 64).toNat = s.cur.arg.toNat := by
    simp only [BitVec.truncate_eq_setWidth, BitVec.toNat_setWidth]; omega
  induction k generalizing s with
  | zero =>
    have hlt : ¬(s.run.nCount < s.countOperand.zeroExtend 64) := by
      rw [BitVec.lt_def, State.countOperand, hz]; omega
    have he : s.run.nCount = s.cur.arg.zeroExtend 64 := BitVec.eq_of_toNat_eq (by rw [hz]; omega)
    refine ⟨s.run.phase, ?_⟩
    simp only [leafLoop, if_neg hlt, settle, State.resultCount, State.setResult, Nat.mul_zero, Nat.add_zero,
      List.replicate_zero, List.append_nil, ← he]
  | succ k ih =>
    have hlt : s.run.nCount < s.countOperand.zeroExtend 64 := by
      rw [BitVec.lt_def, State.countOperand, hz]; omega
    have hs : serve (.leafWrite sym) s.env =
        some (.leafWrite sym (.value ()), { s.env with outBytes := s.env.outBytes ++ [sym] }) := by
      simp only [serve, Env.request_served _ _ hd, Option.map_some, Env.putByte]
    simp only [leafLoop, if_pos hlt, settle]
    rw [show n + 2 * (k + 1) = (n + 2 * k) + 2 by omega,
      seqRun_request (s := s.setAsking (.leafWrite sym)) hb rfl hs]
    simp only [resume, leafWriteReply]
    obtain ⟨ph, h⟩ := ih (s := ((s.setAsking (.leafWrite sym)).setReply (.leafWrite sym (.value ()))
      { s.env with outBytes := s.env.outBytes ++ [sym] }).setCount (s.run.nCount + 1#64)) hb hd (by
        show (s.run.nCount + 1#64).toNat + k = s.cur.arg.toNat
        rw [BitVec.toNat_add]
        have : (1#64).toNat = 1 := rfl
        rw [this, Nat.mod_eq_of_lt (by omega)]
        omega) (by exact harg) (by exact hz)
    refine ⟨ph, ?_⟩
    refine Eq.trans h ?_
    simp only [State.setCount, State.setReply, State.setAsking, List.append_assoc, List.singleton_append,
      List.replicate_succ]

/-- The bits of one code, from a BitRead at an internal node on: the leaf's symbol is written and the position is the
root again. -/
theorem decodeCode {s : State} {z o : Tree} {p q : List Bit} {sym : Symbol} {l : List (BitVec 2)} (n : Nat)
    (hb : s.status.busy = true) (hp : s.run.phase = .asking .decBit) (hd : s.env.draws = []) (ht : s.tree = .full z o)
    (hpos : s.run.decPos = some p) (hq : q ≠ []) (hleaf : treeAt (.node z o) (p ++ q) = some (.leaf sym))
    (hl : s.env.bitsLeft = q.map bitAnswer ++ l) (hc : s.run.nCount ≠ maxItems) :
    seqRun (n + (2 * q.length + 2)) s = seqRun n
      { s with
        run := { s.run with phase := .asking .decBit, decPos := some [], nCount := s.run.nCount + 1#64 }
        env := { s.env with bitCursor := s.env.bitCursor + q.length, outBytes := s.env.outBytes ++ [sym] } } := by
  induction q generalizing s p with
  | nil => exact absurd rfl hq
  | cons x q ih =>
    obtain ⟨htb, hl'⟩ := Env.takeBit_cons (r := bitAnswer x) (l := q.map bitAnswer ++ l) (by simpa using hl)
    have hs : serve .decBit s.env =
        some (.decBit (.value (bitAnswer x)), { s.env with bitCursor := s.env.bitCursor + 1 }) := by
      simp only [serve, Env.request_served _ _ hd, htb, Option.map_some]
    have happ : p ++ x :: q = (p ++ [x]) ++ q := by simp
    generalize hs1 : s.setReply (.decBit (.value (bitAnswer x))) { s.env with bitCursor := s.env.bitCursor + 1 } = s1
    have hpath : s1.decPath = p := by subst hs1; show s.run.decPos.getD [] = p; rw [hpos]; rfl
    have hsub : s1.subtree (p ++ [x]) = treeAt (.node z o) (p ++ [x]) := by
      subst hs1; show (storeRoot s.tree).bind _ = _; rw [ht]; rfl
    have hcount : s1.run.nCount = s.run.nCount := by subst hs1; rfl
    rw [show n + (2 * (x :: q).length + 2) = (n + (2 * q.length + 2)) + 2 by simp; omega, seqRun_request hb hp hs, hs1]
    simp only [resume, decBitReply, bitOf_bitAnswer, descend, hpath, hsub]
    cases q with
    | nil =>
      have hw : serve (.symWrite sym) { s.env with bitCursor := s.env.bitCursor + 1 } =
          some (.symWrite (.value ()), { s.env with bitCursor := s.env.bitCursor + 1,
                                                    outBytes := s.env.outBytes ++ [sym] }) := by
        simp only [serve, Env.request_served _ _ (show ({ s.env with bitCursor := s.env.bitCursor + 1 } : Env).draws = []
          from hd), Option.map_some, Env.putByte]
      rw [hleaf]
      simp only [hcount, if_neg hc, settle]
      rw [show n + (2 * [].length + 2) = n + 2 by simp,
        seqRun_request (s := (s1.setDecPos (p ++ [x])).setAsking (.symWrite sym)) (by subst hs1; exact hb) rfl
          (by subst hs1; exact hw)]
      subst hs1
      simp only [resume, symWriteReply, settle, State.setReply, State.setAsking, State.setDecPos, State.setCount,
        List.length_cons, List.length_nil, Nat.zero_add]
    | cons y q =>
      rw [happ, treeAt_append] at hleaf
      cases hmid : treeAt (.node z o) (p ++ [x]) with
      | none => rw [hmid] at hleaf; simp at hleaf
      | some u =>
        cases u with
        | leaf s' => rw [hmid] at hleaf; simp at hleaf
        | node z' o' =>
          simp only [settle]
          rw [ih (s := (s1.setDecPos (p ++ [x])).setAsking .decBit) (p := p ++ [x]) (by subst hs1; exact hb) rfl
            (by subst hs1; exact hd) (by subst hs1; exact ht) rfl (by simp)
            (by rw [treeAt_append]; exact hleaf) (by subst hs1; exact hl') (by rw [← hcount] at hc; exact hc)]
          subst hs1
          have e : s.env.bitCursor + 1 + (y :: q).length = s.env.bitCursor + (x :: y :: q).length := by simp; omega
          simp only [State.setReply, State.setAsking, State.setDecPos, e]

/-- A full tree's loop over the codes left and the END after them, from a BitRead at the root on. -/
theorem decodeLoop {s : State} {z o : Tree} {codes : List (Symbol × List Bit)} {tail : List (BitVec 2)} (n : Nat)
    (hb : s.status.busy = true) (hp : s.run.phase = .asking .decBit) (hd : s.env.draws = []) (ht : s.tree = .full z o)
    (hpos : s.run.decPos = some []) (hleaf : ∀ c ∈ codes, treeAt (.node z o) c.2 = some (.leaf c.1))
    (hl : s.env.bitsLeft = (codes.flatMap (·.2)).map bitAnswer ++ tail) (htail : ∀ r, tail.head? = some r → bitOf r = none)
    (he : tail = [] → s.env.bitsEnding = .ends) (hfit : s.run.nCount.toNat + codes.length < 2 ^ 64) :
    ∃ ph, seqRun (n + (2 * (codes.flatMap (·.2)).length + 2 * codes.length + 2)) s = seqRun n (runBodies s.run.todo
      { s with
        result := s.run.nCount + BitVec.ofNat 64 codes.length
        run := { s.run with phase := ph, nCount := s.run.nCount + BitVec.ofNat 64 codes.length }
        env := { s.env with bitCursor := s.env.bitCursor + (codes.flatMap (·.2)).length + (tail.take 1).length,
                            outBytes := s.env.outBytes ++ codes.map (·.1) } }) := by
  induction codes generalizing s with
  | nil =>
    have key : ∀ r e, serve .decBit s.env = some (.decBit (.value r), e) → bitOf r = none →
        seqRun (n + 2) s = seqRun n (runBodies s.run.todo
          ({ s with env := e, run := { s.run with phase := .answered (.decBit (.value r)) }, result := s.run.nCount })) := by
      intro r e hs hr
      have hroot : (s.setReply (.decBit (.value r)) e).decPath = [] := by
        show s.run.decPos.getD [] = []; rw [hpos]; rfl
      rw [seqRun_request hb hp hs]
      simp only [resume, decBitReply, hr, hroot, if_true, settle]
      rfl
    cases tail with
    | nil =>
      have hs : serve .decBit s.env = some (.decBit (.value 0b10#2), s.env) := by
        simp only [serve, Env.request_served _ _ hd, Env.takeBit_nil (by simpa using hl) (he rfl), Option.map_some]
      refine ⟨.answered (.decBit (.value 0b10#2)), (key _ _ hs rfl).trans ?_⟩
      simp
    | cons r tail =>
      obtain ⟨htb, -⟩ := Env.takeBit_cons (r := r) (l := tail) (by simpa using hl)
      have hs : serve .decBit s.env = some (.decBit (.value r), { s.env with bitCursor := s.env.bitCursor + 1 }) := by
        simp only [serve, Env.request_served _ _ hd, htb, Option.map_some]
      refine ⟨.answered (.decBit (.value r)), (key _ _ hs (htail r rfl)).trans ?_⟩
      simp
  | cons c codes ih =>
    have hne : s.run.nCount ≠ maxItems := fun h => by rw [h] at hfit; simp [maxItems] at hfit; omega
    have hcl := hleaf c (by simp)
    have hq : c.2 ≠ [] := fun h => by rw [h] at hcl; simp at hcl
    have e0 : n + (2 * ((c :: codes).flatMap (·.2)).length + 2 * (c :: codes).length + 2) =
        (n + (2 * (codes.flatMap (·.2)).length + 2 * codes.length + 2)) + (2 * c.2.length + 2) := by
      simp; omega
    rw [e0, decodeCode (p := []) (l := (codes.flatMap (·.2)).map bitAnswer ++ tail) _ hb hp hd ht hpos hq
      (by simpa using hcl) (by simpa using hl) hne]
    obtain ⟨ph, h⟩ := ih (s := { s with
        run := { s.run with phase := .asking .decBit, decPos := some [], nCount := s.run.nCount + 1#64 }
        env := { s.env with bitCursor := s.env.bitCursor + c.2.length, outBytes := s.env.outBytes ++ [c.1] } }) hb rfl hd ht
      rfl (fun d hd => hleaf d (List.mem_cons_of_mem _ hd)) (by
        unfold Env.bitsLeft at hl ⊢
        have := congrArg (List.drop c.2.length) hl
        rw [List.drop_drop] at this
        simp only [List.flatMap_cons, List.map_append, List.append_assoc] at this
        rw [show c.2.length = (c.2.map bitAnswer).length by simp, List.drop_left] at this
        simpa [Nat.add_comm] using this) he (by
        show (s.run.nCount + 1#64).toNat + codes.length < 2 ^ 64
        rw [BitVec.toNat_add]
        simp only [List.length_cons] at hfit
        have : (1#64).toNat = 1 := rfl
        rw [this, Nat.mod_eq_of_lt (by omega)]
        omega)
    refine ⟨ph, h.trans ?_⟩
    have e1 : s.run.nCount + 1#64 + BitVec.ofNat 64 codes.length = s.run.nCount + BitVec.ofNat 64 (c :: codes).length := by
      rw [BitVec.add_assoc]
      congr 1
      rw [← BitVec.ofNat_add, List.length_cons, Nat.add_comm]
    have e2 : s.env.bitCursor + c.2.length + (codes.flatMap (·.2)).length + (tail.take 1).length =
        s.env.bitCursor + ((c :: codes).flatMap (·.2)).length + (tail.take 1).length := by simp; omega
    simp only [e1, e2, List.map_cons, List.append_assoc, List.singleton_append, hpos]

end Sys2Proof.Machine
end

