-- ==== Sys2Proof/Laws/Bodies.lean ====
section
/-! SUPPORT. What each body comes to when it completes: the state its followers start from, and the steps it took. The
sequencer's own bookkeeping (`run`) is left open: the next body, or the command's end, replaces it. -/

namespace Sys2Proof.Machine

/-- A port request that is answered, and the end of its body after it. -/
theorem seqRun_lastRequest {s u : State} {w : Wait} {r : Reply} {e : Env} (n : Nat) (hb : s.status.busy = true)
    (hp : s.run.phase = .asking w) (hs : serve w s.env = some (r, e)) (hd : resume r (s.setReply r e) = .done u) :
    seqRun (n + 2) s = seqRun n (runBodies u.run.todo u) := by
  rw [seqRun_request hb hp hs, hd]; rfl

theorem run_session (todo : List Body) (s : State) : ∃ r, runBodies (.session :: todo) s =
    runBodies todo { s with hdrOutDone := false, hdrInDone := false, run := r } :=
  ⟨{ s.run with todo := todo }, rfl⟩

theorem run_freqCount (todo : List Body) {s : State} (n : Nat) (hb : s.status.busy = true) (hd : s.env.draws = [])
    (he : s.env.inEnding = .ends) (hfit : ∀ b, s.env.bytesLeft.count b < 2 ^ 32) :
    ∃ r, seqRun (n + (2 * s.env.bytesLeft.length + 2)) (runBodies (.freqCount :: todo) s) = seqRun n (runBodies todo
      { s with
        cur.prim := 0x11#8
        freq := countInto zeroFreq s.env.bytesLeft
        result := BitVec.ofNat 64 s.env.bytesLeft.length
        run := r
        env := { s.env with inCursor := s.env.inCursor + s.env.bytesLeft.length } }) := by
  have h := countLoop (s := (({ s.enterBody .freqCount todo with freq := zeroFreq } : State).setCount 0#64).setAsking
    .countByte) (l := s.env.bytesLeft) n hb rfl hd he rfl fun b => by
      show (symGet zeroFreq b).toNat + _ < _
      simpa using hfit b
  refine ⟨{ s.run with todo := todo, phase := .answered (.countByte (.value .eof)),
                       nCount := 0#64 + BitVec.ofNat 64 s.env.bytesLeft.length }, Eq.trans h ?_⟩
  simp only [State.setAsking, State.setCount, State.enterBody, BitVec.zero_add]
  rfl

theorem run_inRewind (todo : List Body) {s : State} (n : Nat) (hb : s.status.busy = true) (hd : s.env.draws = []) :
    ∃ r, seqRun (n + 2) (runBodies (.inRewind :: todo) s) = seqRun n (runBodies todo
      { s with cur.prim := 0x14#8, run := r, env := s.env.rewindBytes.2 }) := by
  have hs : serve .rewind s.env = some (.rewind (.value ()), s.env.rewindBytes.2) := by
    simp only [serve, Env.request_served _ _ hd, Option.map_some]
  exact ⟨_, seqRun_lastRequest (s := (s.enterBody .inRewind todo).setAsking .rewind) n hb rfl hs rfl⟩

theorem run_treeBuild (todo : List Body) (s : State) : ∃ r w, w.toNat = freqSum s.freq ∧
    runBodies (.treeBuild :: todo) s = runBodies todo
      { s with
        cur.prim := 0x20#8
        mapValid := false
        tree := builtStore s.freq
        nNodes := BitVec.ofNat 10 (storeNodes (builtStore s.freq))
        nLeaves := BitVec.ofNat 9 (storeLeaves (builtStore s.freq))
        result := w
        run := r } := by
  obtain ⟨f, w, hw, h⟩ := bodyTreeBuild_eq (s.enterBody .treeBuild todo)
  refine ⟨{ s.run with todo := todo, forest := f }, w, hw, ?_⟩
  have h' : startBody .treeBuild (s.enterBody .treeBuild todo) = _ := h
  simp only [runBodies, h']
  rfl

theorem run_hdrFlatten (todo : List Body) {s : State} (n : Nat) (hb : s.status.busy = true) (hd : s.env.draws = [])
    (ht : storeState s.tree ≠ .none) (ho : s.hdrOutDone = false) :
    ∃ r, seqRun (n + 2) (runBodies (.hdrFlatten :: todo) s) = seqRun n (runBodies todo
      { s with
        cur.prim := 0x30#8
        hdrOutDone := true
        result := BitVec.ofNat 64 (headerOf s.tree).length
        run := r
        env := { s.env with hdrOut := some (headerOf s.tree) } }) := by
  have hst : runBodies (.hdrFlatten :: todo) s =
      (s.enterBody .hdrFlatten todo).setAsking (.hdrWrite (headerOf s.tree)) := by
    have h : startBody .hdrFlatten (s.enterBody .hdrFlatten todo) =
        .ask (.hdrWrite (headerOf s.tree)) (s.enterBody .hdrFlatten todo) := by
      simp only [startBody, bodyHdrFlatten, State.enterBody_tree, State.enterBody_hdrOutDone, if_neg ht, ho,
        Bool.false_eq_true, if_false]
    simp only [runBodies, h]
  have hs : serve (.hdrWrite (headerOf s.tree)) s.env =
      some (.hdrWrite (headerOf s.tree) (.value ()), { s.env with hdrOut := some (headerOf s.tree) }) := by
    simp only [serve, Env.request_served _ _ hd, Option.map_some, Env.putHeader]
  rw [hst]
  exact ⟨_, seqRun_lastRequest (s := (s.enterBody .hdrFlatten todo).setAsking (.hdrWrite (headerOf s.tree))) n hb rfl hs
    rfl⟩

theorem run_hdrRecreate (todo : List Body) {s : State} {t : TreeStore} (n : Nat) (hb : s.status.busy = true)
    (hd : s.env.draws = []) (hi : s.hdrInDone = false) (hp : parse s.env.hdrIn = .ok t) :
    ∃ r, seqRun (n + 2) (runBodies (.hdrRecreate :: todo) s) = seqRun n (runBodies todo
      { s with
        cur.prim := 0x31#8
        hdrInDone := true
        mapValid := false
        tree := t
        nNodes := BitVec.ofNat 10 (storeNodes t)
        nLeaves := BitVec.ofNat 9 (storeLeaves t)
        result := BitVec.ofNat 64 s.env.hdrIn.length
        run := r }) := by
  have hst : runBodies (.hdrRecreate :: todo) s = (s.enterBody .hdrRecreate todo).setAsking .hdrRead := by
    have h : startBody .hdrRecreate (s.enterBody .hdrRecreate todo) = .ask .hdrRead (s.enterBody .hdrRecreate todo) := by
      simp only [startBody, bodyHdrRecreate, State.enterBody_hdrInDone, hi, Bool.false_eq_true, if_false]
    simp only [runBodies, h]
  have hs : serve .hdrRead s.env = some (.hdrRead (.value s.env.hdrIn), s.env) := by
    simp only [serve, Env.request_served _ _ hd, Option.map_some, Env.takeHeader]
  have hr : ∀ u : State, resume (.hdrRead (.value s.env.hdrIn)) u =
      .done ((({ u with hdrInDone := true, mapValid := false } : State).setTree t).setResult
        (BitVec.ofNat 64 s.env.hdrIn.length)) := fun u => by
    simp only [resume, hdrReadReply, hp]
  rw [hst]
  exact ⟨_, seqRun_lastRequest (s := (s.enterBody .hdrRecreate todo).setAsking .hdrRead) n hb rfl hs (hr _)⟩

theorem run_mapBuild (todo : List Body) {s : State} (ht : storeState s.tree ≠ .none) (hm : (mapOf s.tree).2 = none) :
    ∃ r, runBodies (.mapBuild :: todo) s = runBodies todo
      { s with
        cur.prim := 0x40#8
        mapValid := true
        map := (mapOf s.tree).1
        result := BitVec.ofNat 64 (presentCount (mapOf s.tree).1)
        run := r } := by
  refine ⟨{ s.run with todo := todo }, ?_⟩
  simp only [runBodies, startBody, bodyMapBuild, State.enterBody_tree, if_neg ht, hm]
  rfl

theorem run_encode (todo : List Body) {s : State} (n : Nat) (hb : s.status.busy = true) (hd : s.env.draws = [])
    (he : s.env.inEnding = .ends) (hm : s.mapValid = true) (ho : s.hdrOutDone = true)
    (hpr : ∀ b ∈ s.env.bytesLeft, (symGet s.map b).present = true)
    (hfit : s.env.bytesLeft.length < 2 ^ 64) :
    ∃ r, seqRun (n + (2 * s.env.bytesLeft.length + 2 + 2 * (payload s.map s.env.bytesLeft).length))
        (runBodies (.encode :: todo) s) = seqRun n (runBodies todo
      { s with
        cur.prim := 0x50#8
        result := BitVec.ofNat 64 s.env.bytesLeft.length
        run := r
        env := { s.env with inCursor := s.env.inCursor + s.env.bytesLeft.length
                            bitsOut := s.env.bitsOut ++ payload s.map s.env.bytesLeft } }) := by
  have hst : runBodies (.encode :: todo) s = ((s.enterBody .encode todo).setCount 0#64).setAsking .encByte := by
    have h : startBody .encode (s.enterBody .encode todo) = .ask .encByte ((s.enterBody .encode todo).setCount 0#64) := by
      simp only [startBody, bodyEncode, State.enterBody_mapValid, State.enterBody_hdrOutDone, hm, ho, if_true]
    simp only [runBodies, h]
  rw [hst]
  have h := encodeLoop (s := ((s.enterBody .encode todo).setCount 0#64).setAsking .encByte) (l := s.env.bytesLeft) n hb
    rfl hd he rfl hpr (by show 0 + s.env.bytesLeft.length < 2 ^ 64; omega)
  refine ⟨{ s.run with todo := todo, phase := .answered (.encByte (.value .eof)),
                       nCount := 0#64 + BitVec.ofNat 64 s.env.bytesLeft.length }, Eq.trans h ?_⟩
  simp only [State.setAsking, State.setCount, State.enterBody, BitVec.zero_add]
  rfl

theorem run_decodeEmpty (todo : List Body) {s : State} (ht : s.tree = .empty) (hi : s.hdrInDone = true) :
    ∃ r, runBodies (.decode :: todo) s = runBodies todo
      { s with cur.prim := 0x51#8, result := 0#64, run := r } := by
  refine ⟨{ s.run with todo := todo, nCount := 0#64 }, ?_⟩
  have h : startBody .decode (s.enterBody .decode todo) =
      .done (((s.enterBody .decode todo).setCount 0#64).setResult 0#64) := by
    simp only [startBody, bodyDecode, State.enterBody_tree, State.enterBody_hdrInDone, ht, hi, if_true]
  simp only [runBodies, h]
  rfl

theorem run_decodeLeaf (todo : List Body) {s : State} {b : Symbol} (n : Nat) (hb : s.status.busy = true)
    (hd : s.env.draws = []) (ht : s.tree = .leaf b) (hi : s.hdrInDone = true) :
    ∃ r, seqRun (n + 2 * s.cur.arg.toNat) (runBodies (.decode :: todo) s) = seqRun n (runBodies todo
      { s with
        cur.prim := 0x51#8
        result := s.cur.arg.zeroExtend 64
        run := r
        env := { s.env with outBytes := s.env.outBytes ++ List.replicate s.cur.arg.toNat b } }) := by
  have hst : runBodies (.decode :: todo) s = settle (leafLoop b ((s.enterBody .decode todo).setCount 0#64)) := by
    rw [runBodies_cons (by simp)]
    simp only [startBody, bodyDecode, State.enterBody_tree, State.enterBody_hdrInDone, ht, hi, if_true]
  rw [hst]
  obtain ⟨ph, h⟩ := leafLoop_run (s := (s.enterBody .decode todo).setCount 0#64) b s.cur.arg.toNat n hb hd
    (Nat.zero_add _)
  exact ⟨{ s.run with todo := todo, phase := ph, nCount := s.cur.arg.zeroExtend 64 }, h⟩

theorem run_decodeFull (todo : List Body) {s : State} {z o : Tree} {codes : List (Symbol × List Bit)}
    {tail : List (BitVec 2)} (n : Nat) (hb : s.status.busy = true) (hd : s.env.draws = []) (ht : s.tree = .full z o)
    (hi : s.hdrInDone = true) (hleaf : ∀ c ∈ codes, treeAt (.node z o) c.2 = some (.leaf c.1))
    (hl : s.env.bitsLeft = (codes.flatMap (·.2)).map bitAnswer ++ tail) (htail : ∀ r, tail.head? = some r → bitOf r = none)
    (he : tail = [] → s.env.bitsEnding = .ends) (hfit : codes.length < 2 ^ 64) :
    ∃ r, seqRun (n + (2 * (codes.flatMap (·.2)).length + 2 * codes.length + 2)) (runBodies (.decode :: todo) s) =
      seqRun n (runBodies todo
        { s with
          cur.prim := 0x51#8
          result := BitVec.ofNat 64 codes.length
          run := r
          env := { s.env with bitCursor := s.env.bitCursor + (codes.flatMap (·.2)).length + (tail.take 1).length
                              outBytes := s.env.outBytes ++ codes.map (·.1) } }) := by
  have hst : runBodies (.decode :: todo) s =
      (((s.enterBody .decode todo).setCount 0#64).setDecPos []).setAsking .decBit := by
    have h : startBody .decode (s.enterBody .decode todo) =
        .ask .decBit (((s.enterBody .decode todo).setCount 0#64).setDecPos []) := by
      simp only [startBody, bodyDecode, State.enterBody_tree, State.enterBody_hdrInDone, ht, hi, if_true]
    simp only [runBodies, h]
  rw [hst]
  obtain ⟨ph, h⟩ := decodeLoop (s := (((s.enterBody .decode todo).setCount 0#64).setDecPos []).setAsking .decBit) n hb rfl
    hd ht rfl hleaf hl htail he (by show 0 + codes.length < 2 ^ 64; omega)
  refine ⟨{ s.run with todo := todo, phase := ph, decPos := some [], nCount := 0#64 + BitVec.ofNat 64 codes.length },
    Eq.trans h ?_⟩
  simp only [State.setAsking, State.setCount, State.setDecPos, State.enterBody, BitVec.zero_add]
  rfl

end Sys2Proof.Machine
end

