-- ==== Sys2Proof/Laws/Built.lean ====
section
/-! SUPPORT. What the map of a store with distinct leaves is, what the tree built from a table holds, the table of a byte
string, COMPRESS's two passes, and a command that makes exactly one port request. -/

namespace Sys2Proof.Machine

/-- The map of a store whose leaves are distinct: no symbol is met twice, and the entries are the leaves' paths. -/
theorem mapOf_distinct (t : TreeStore) (hd : ∀ r, storeRoot t = some r → (treeLeaves r).Nodup) :
    (mapOf t).2 = none ∧
    (∀ b p, (symGet (mapOf t).1 b = { present := true, code := p }) ↔
      ∃ r, storeRoot t = some r ∧ treeAt r p = some (.leaf b)) ∧
    (∀ b, (symGet (mapOf t).1 b).present = false → symGet (mapOf t).1 b = { present := false, code := [] }) ∧
    presentCount (mapOf t).1 = storeLeaves t := by
  unfold mapOf storeLeaves
  cases hr : storeRoot t with
  | none =>
    refine ⟨rfl, ?_, ?_, ?_⟩
    · intro b p; simp [MapEntry.absent]
    · intro b _; simp [MapEntry.absent]
    · exact presentCount_eq (l := []) List.nodup_nil (by simp [MapEntry.absent])
  | some r =>
    obtain ⟨h1, h2, h3⟩ := walk_new r [] clearedMap (hd r hr) (by simp [MapEntry.absent])
    refine ⟨h1, ?_, ?_, ?_⟩
    · intro b p
      constructor
      · intro h
        by_cases hb : b ∈ treeLeaves r
        · obtain ⟨q, hq⟩ := (mem_treeLeaves_iff r b).1 hb
          have := h2 b q hq
          simp only [] at h this
          rw [this] at h
          simp at h; subst h
          exact ⟨r, rfl, hq⟩
        · have := h3 b hb; simp only [] at h; rw [this] at h; simp [MapEntry.absent] at h
      · rintro ⟨r', hr', hp⟩
        injection hr' with hr'; subst hr'
        exact h2 b p hp
    · intro b hp
      by_cases hb : b ∈ treeLeaves r
      · obtain ⟨q, hq⟩ := (mem_treeLeaves_iff r b).1 hb
        have := h2 b q hq
        simp only [] at hp
        rw [this] at hp; cases hp
      · have := h3 b hb; simp only []; rw [this]; simp [MapEntry.absent]
    · refine presentCount_eq (hd r hr) ?_
      intro b
      have := (walk_none h1).2.2 b
      simpa [MapEntry.absent] using this

/-- The table that counts a byte string in which no symbol occurs too often. -/
theorem countInto_zeroFreq (l : List Byte) : countInto zeroFreq l = countTable l := by
  apply table_ext
  intro b
  rw [symGet_countInto, symGet_zeroFreq]
  simp [countTable, symGet, countOf]

theorem symGet_countTable (l : List Byte) (b : Symbol) : symGet (countTable l) b = countOf l b := by
  simp [countTable, symGet]

theorem freqSum_countTable {l : List Byte} (h : ∀ b, l.count b < 2 ^ 32) : freqSum (countTable l) = l.length := by
  rw [← countInto_zeroFreq l, freqSum_countInto]
  · simp
  · intro b; simpa using h b

/-- A byte string whose symbols fit their counters is far shorter than an item count reaches. -/
theorem length_of_counts {l : List Byte} (h : ∀ b, l.count b < 2 ^ 32) : l.length < 2 ^ 64 := by
  have := freqSum_lt (countTable l)
  rw [freqSum_countTable h] at this
  omega

/-- The leaves of a built tree are the present symbols, each once. -/
theorem builtStore_leaves {freq : Vector Count 256} {r : Tree} (h : storeRoot (builtStore freq) = some r) :
    (treeLeaves r).Nodup ∧ ∀ b, b ∈ treeLeaves r ↔ symGet freq b ≠ 0#32 := by
  rcases mergedForest_store freq with ⟨_, h1, h2, h3⟩ | ⟨e, f, h1, h2, h3, _⟩
  · rw [h2] at h; cases h
  · rw [h2, storeRoot_storeTree] at h
    injection h with h
    subst h
    refine ⟨h3.nodup_iff.2 (leafOrder_nodup.filter _), fun b => ?_⟩
    rw [h3.mem_iff]
    simp [presentSymbols, mem_leafOrder]

/-- The map of a built tree meets no symbol twice and has every present symbol. -/
theorem mapOf_builtStore (freq : Vector Count 256) : (mapOf (builtStore freq)).2 = none ∧
    ∀ b, symGet freq b ≠ 0#32 → (symGet (mapOf (builtStore freq)).1 b).present = true := by
  obtain ⟨h1, h2, -, -⟩ := mapOf_distinct (builtStore freq) (fun r hr => (builtStore_leaves hr).1)
  refine ⟨h1, fun b hb => ?_⟩
  rcases mergedForest_store freq with ⟨hp, _, _, _⟩ | ⟨e, f, _, h4, h3, _⟩
  · have : b ∈ presentSymbols freq := by simp [presentSymbols, mem_leafOrder, hb]
    rw [hp] at this; cases this
  · have hr : storeRoot (builtStore freq) = some e.tree := by rw [h4]; simp
    obtain ⟨q, hq⟩ := (mem_treeLeaves_iff _ b).1 (((builtStore_leaves hr).2 b).2 hb)
    rw [(h2 b q).2 ⟨_, hr, hq⟩]

/-- A built tree is never TSTATE NONE. -/
theorem builtStore_state (freq : Vector Count 256) : storeState (builtStore freq) ≠ .none := by
  rcases mergedForest_store freq with ⟨_, _, h2, _⟩ | ⟨e, f, _, h2, _, _⟩ <;> rw [h2]
  · simp [storeState]
  · cases e.tree <;> simp [storeTree, storeState]

/-- COMPRESS's first pass: the session, the count, the rewind and the tree. -/
theorem run_firstPass (todo : List Body) {s : State} {l : List Byte} (n : Nat) (hb : s.status.busy = true)
    (hd : s.env.draws = []) (he : s.env.inEnding = .ends) (hl : s.env.bytesLeft = l)
    (hlater : s.env.inLater = []) (hfit : ∀ b, l.count b < 2 ^ 32) :
    ∃ r w, seqRun (n + 2 + (2 * l.length + 2))
        (runBodies (.session :: .freqCount :: .inRewind :: .treeBuild :: todo) s) = seqRun n (runBodies todo
      { s with
        hdrOutDone := false
        hdrInDone := false
        run := r
        freq := countTable l
        result := w
        cur.prim := 0x20#8
        mapValid := false
        tree := builtStore (countTable l)
        nNodes := BitVec.ofNat 10 (storeNodes (builtStore (countTable l)))
        nLeaves := BitVec.ofNat 9 (storeLeaves (builtStore (countTable l)))
        env := { s.env with inCursor := 0 } }) := by
  obtain ⟨r1, h1⟩ := run_session (.freqCount :: .inRewind :: .treeBuild :: todo) s
  rw [h1]
  obtain ⟨r2, h2⟩ := run_freqCount (.inRewind :: .treeBuild :: todo)
    (s := { s with hdrOutDone := false, hdrInDone := false, run := r1 }) (n + 2) hb hd he
    (by show ∀ b, List.count b s.env.bytesLeft < _; rw [hl]; exact hfit)
  have e0 : ({ s with hdrOutDone := false, hdrInDone := false, run := r1 } : State).env.bytesLeft = l := hl
  rw [e0, countInto_zeroFreq l] at h2
  rw [h2]
  obtain ⟨r3, h3⟩ := run_inRewind (.treeBuild :: todo)
    (s := { s with hdrOutDone := false, hdrInDone := false, run := r2, freq := countTable l,
                   result := BitVec.ofNat 64 l.length, cur.prim := 0x11#8,
                   env := { s.env with inCursor := s.env.inCursor + l.length } }) n hb hd
  have e1 : ({ s.env with inCursor := s.env.inCursor + l.length } : Env).rewindBytes.2 = { s.env with inCursor := 0 } := by
    unfold Env.rewindBytes; simp only [hlater]
  obtain ⟨r4, w, -, h4⟩ := run_treeBuild todo
    { s with hdrOutDone := false, hdrInDone := false, run := r3, freq := countTable l,
             result := BitVec.ofNat 64 l.length, cur.prim := 0x14#8, env := { s.env with inCursor := 0 } }
  refine ⟨r4, w, h3.trans ?_⟩
  dsimp only at e1
  rw [e1]
  exact congrArg (seqRun n) h4

/-- COMPRESS's second pass: the header, the map and the payload. -/
theorem run_secondPass {s : State} {l : List Byte} (n : Nat) (hb : s.status.busy = true) (hd : s.env.draws = [])
    (he : s.env.inEnding = .ends) (hl : s.env.bytesLeft = l) (ho : s.hdrOutDone = false) (ht : storeState s.tree ≠ .none)
    (hm : (mapOf s.tree).2 = none) (hpr : ∀ b ∈ l, (symGet (mapOf s.tree).1 b).present = true)
    (hfit : l.length < 2 ^ 64) :
    ∃ r, seqRun (n + (2 * l.length + 2 + 2 * (payload (mapOf s.tree).1 l).length) + 2)
        (runBodies [.hdrFlatten, .mapBuild, .encode] s) = seqRun n (runBodies []
      { s with
        hdrOutDone := true
        map := (mapOf s.tree).1
        mapValid := true
        run := r
        result := BitVec.ofNat 64 l.length
        cur.prim := 0x50#8
        env := { s.env with hdrOut := some (headerOf s.tree), inCursor := s.env.inCursor + l.length,
                            bitsOut := s.env.bitsOut ++ payload (mapOf s.tree).1 l } }) := by
  obtain ⟨r1, h1⟩ := run_hdrFlatten [.mapBuild, .encode]
    (n + (2 * l.length + 2 + 2 * (payload (mapOf s.tree).1 l).length)) hb hd ht ho
  rw [h1]
  obtain ⟨r2, h2⟩ := run_mapBuild [.encode]
    (s := { s with cur.prim := 0x30#8, hdrOutDone := true, result := BitVec.ofNat 64 (headerOf s.tree).length,
                   run := r1, env := { s.env with hdrOut := some (headerOf s.tree) } }) ht hm
  have hl' : ({ s.env with hdrOut := some (headerOf s.tree) } : Env).bytesLeft = l := hl
  have h3 := run_encode []
    (s := { s with cur.prim := 0x40#8, hdrOutDone := true, result := BitVec.ofNat 64 (presentCount (mapOf s.tree).1),
                   run := r2, env := { s.env with hdrOut := some (headerOf s.tree) }, map := (mapOf s.tree).1,
                   mapValid := true }) n hb hd he rfl rfl (by rw [hl']; exact hpr) (by rw [hl']; exact hfit)
  simp only [hl'] at h3
  obtain ⟨r3, h3⟩ := h3
  exact ⟨r3, (congrArg (seqRun _) h2).trans h3⟩

/-- A command that makes one port request, which is answered, has ended after three steps. -/
theorem exec_oneRequest {s t u : State} {i : Instr} {w : Wait} {r : Reply} {e : Env} (h : s.Ready)
    (hg : 3 ≤ s.host.grant) (hb : runBodies (commandBodies i) (s.accept (encode i) (commandBodies i)) = t)
    (hbusy : t.status.busy = true) (hp : t.run.phase = .asking w) (hs : serve w t.env = some (r, e))
    (hu : settle (resume r (t.setReply r e)) = u) (hended : u.status.busy = false) : exec i s = .next u := by
  obtain ⟨n, hn⟩ := Nat.exists_eq_add_of_le' hg
  rw [exec_accepted (State.drops_of_ready h _), hn, show n + 3 = (n + 2) + 1 from rfl, seqRun_accept, hb,
    seqRun_request hbusy hp hs, hu, seqRun_idle hended]

end Sys2Proof.Machine
end

