-- ==== Sys2Proof/Laws/Headers.lean ====
section
/-! SUPPORT. What the parser's inner procedure does: it takes exactly one serialized tree off the front of the header,
and it takes every serialized tree that fits the store (43_header_codec.md R230). -/

namespace Sys2Proof.Machine

/-- What `node(p)` answers is a tree whose serialization stood at the front; offset and node counter have moved on by
that tree's bytes and nodes, and the counter is within the store's capacity. -/
theorem parseNode_sound {fuel : Nat} {h : List Byte} {p n : Nat} {r : Parsed} (hp : parseNode fuel h p n = .ok r) :
    h = ser r.tree ++ r.rest ∧ r.off = p + (ser r.tree).length ∧ r.count = n + treeSize r.tree ∧
      r.count ≤ Config.nodeCap := by
  induction fuel generalizing h p n r with
  | zero => simp [parseNode] at hp
  | succ fuel ih =>
    cases h with
    | nil => simp [parseNode] at hp
    | cons c rest =>
      unfold parseNode at hp
      split at hp
      · rename_i hc
        split at hp
        · cases hp
        · split at hp
          · cases hp
          · injection hp with hp; subst hp
            simp only [ser, treeSize, hc]
            exact ⟨by simp, rfl, by simp, by omega⟩
      · split at hp
        · rename_i hc
          split at hp
          · cases hp
          · split at hp
            · cases hp
            · rename_i z hz
              split at hp
              · cases hp
              · rename_i o ho
                obtain ⟨z1, z2, z3, -⟩ := ih hz
                obtain ⟨o1, o2, o3, o4⟩ := ih ho
                unfold parseClose at hp
                split at hp
                · cases hp
                · rename_i c' rest' hr
                  split at hp
                  · rename_i hc'
                    injection hp with hp; subst hp
                    refine ⟨?_, ?_, ?_, o4⟩
                    · simp only [ser, hc, z1, o1, hr, hc']; simp
                    · simp only [ser, o2, z2]; simp; omega
                    · simp only [treeSize, o3, z3]; omega
                  · cases hp
        · cases hp

/-- `node(p)` takes every serialized tree whose nodes still fit. -/
theorem parseNode_ser (t : Tree) (fuel : Nat) (rest : List Byte) (p n : Nat) (hf : (ser t).length ≤ fuel)
    (hn : n + treeSize t ≤ Config.nodeCap) :
    parseNode fuel (ser t ++ rest) p n =
      .ok { tree := t, rest := rest, off := p + (ser t).length, count := n + treeSize t } := by
  induction t generalizing fuel rest p n with
  | leaf s =>
    obtain ⟨fuel, rfl⟩ := Nat.exists_eq_add_of_le' (show 1 ≤ fuel by simp [ser] at hf; omega)
    have h1 : ¬(n + 1 > Config.nodeCap) := by simpa [treeSize] using hn
    simp [ser, parseNode, treeSize, h1]
  | node z o hz ho =>
    simp only [ser, List.length_cons, List.length_append, List.length_nil] at hf
    simp only [treeSize] at hn
    obtain ⟨fuel, rfl⟩ := Nat.exists_eq_add_of_le' (show 1 ≤ fuel by omega)
    have h1 : ¬(n + 1 > Config.nodeCap) := by omega
    have hne : ¬(openByte = dotByte) := by decide
    have ez := hz fuel (ser o ++ closeByte :: rest) (p + 1) (n + 1) (by omega) (by omega)
    have eo := ho fuel (closeByte :: rest) (p + 1 + (ser z).length) (n + 1 + treeSize z) (by omega) (by omega)
    simp only [ser, List.cons_append, List.append_assoc, List.nil_append, parseNode, if_neg hne, if_true, if_neg h1, ez,
      eo, parseClose, treeSize]
    congr 2
    · simp; omega
    · omega

end Sys2Proof.Machine
end

