-- ==== Sys2Proof/Laws/Optimal.lean ====
section
/-! SUPPORT. Why the merges give codes of least cost (42_tree_builder.md R200, R201): Kraft's inequality of a prefix code,
one merge of two least weights, and the merge loop. Lengths and weights are plain numbers here. -/

namespace Sys2Proof.Machine

/-! ## Kraft's inequality -/

/-- Kraft's sum of code lengths, on the scale `2 ^ n`, where no length is above `n`. -/
def kraftSum (n : Nat) (lens : List Nat) : Nat := (lens.map fun l => 2 ^ (n - l)).sum

@[simp] theorem kraftSum_nil (n : Nat) : kraftSum n [] = 0 := rfl
@[simp] theorem kraftSum_cons (n l : Nat) (ls : List Nat) : kraftSum n (l :: ls) = 2 ^ (n - l) + kraftSum n ls := rfl

theorem kraftSum_perm (n : Nat) {l m : List Nat} (h : l.Perm m) : kraftSum n l = kraftSum n m := (h.map _).sum_eq

/-- No code of the list is a prefix of one that stands elsewhere in it. -/
def PrefixCode (codes : List (List Bit)) : Prop := codes.Pairwise fun c d => ¬ c <+: d ∧ ¬ d <+: c

/-- The codes that begin with a bit, without it. -/
def tailsOf (x : Bit) (codes : List (List Bit)) : List (List Bit) :=
  codes.filterMap fun c => if c.head? = some x then some c.tail else none

theorem prefixCode_tailsOf {codes : List (List Bit)} (x : Bit) (h : PrefixCode codes) : PrefixCode (tailsOf x codes) := by
  refine List.Pairwise.filterMap _ ?_ h
  intro c d ⟨h1, h2⟩ c' hc d' hd
  cases c with
  | nil => simp at hc
  | cons y c =>
    cases d with
    | nil => simp at hd
    | cons z d =>
      simp only [List.head?_cons, Option.some.injEq, List.tail_cons, Option.ite_none_right_eq_some] at hc hd
      obtain ⟨rfl, rfl⟩ := hc
      obtain ⟨rfl, rfl⟩ := hd
      exact ⟨fun h => h1 (List.prefix_cons_inj _ |>.2 h), fun h => h2 (List.prefix_cons_inj _ |>.2 h)⟩

theorem kraftSum_tailsOf (n : Nat) (codes : List (List Bit)) (h : ∀ c ∈ codes, c ≠ [] ∧ c.length ≤ n + 1) :
    kraftSum (n + 1) (codes.map (·.length)) =
      kraftSum n ((tailsOf false codes).map (·.length)) + kraftSum n ((tailsOf true codes).map (·.length)) := by
  induction codes with
  | nil => rfl
  | cons c codes ih =>
    have ih := ih fun d hd => h d (List.mem_cons_of_mem _ hd)
    obtain ⟨hne, hl⟩ := h c List.mem_cons_self
    cases c with
    | nil => contradiction
    | cons y c =>
      have e : n + 1 - (c.length + 1) = n - c.length := by omega
      cases y <;> simp [tailsOf, e] <;> simp [tailsOf] at ih <;> omega

/-- The empty code is alone in a prefix code. -/
theorem prefixCode_nil {codes : List (List Bit)} (hp : PrefixCode codes) (h : [] ∈ codes) : codes = [[]] := by
  obtain ⟨s, t, rfl⟩ := List.append_of_mem h
  have h1 := List.pairwise_append.1 hp
  have hs : s = [] := by
    cases s with
    | nil => rfl
    | cons c s => exact absurd List.nil_prefix (h1.2.2 c List.mem_cons_self [] List.mem_cons_self).2
  have ht : t = [] := by
    cases t with
    | nil => rfl
    | cons c t => exact absurd List.nil_prefix ((List.pairwise_cons.1 h1.2.1).1 c List.mem_cons_self).1
  rw [hs, ht]; rfl

/-- Kraft's inequality of a prefix code. -/
theorem kraft_of_prefixCode (n : Nat) (codes : List (List Bit)) (hp : PrefixCode codes) (hl : ∀ c ∈ codes, c.length ≤ n) :
    kraftSum n (codes.map (·.length)) ≤ 2 ^ n := by
  induction n generalizing codes with
  | zero =>
    cases codes with
    | nil => simp
    | cons c codes =>
      have : c = [] := List.length_eq_zero_iff.1 (Nat.le_zero.1 (hl c List.mem_cons_self))
      rw [prefixCode_nil hp (by rw [this]; exact List.mem_cons_self)]
      simp
  | succ n ih =>
    by_cases hn : [] ∈ codes
    · rw [prefixCode_nil hp hn]; simp
    · have ht : ∀ x, ∀ c ∈ tailsOf x codes, c.length ≤ n := by
        intro x c hc
        obtain ⟨d, hd, h⟩ := List.mem_filterMap.1 hc
        have := hl d hd
        split at h
        · cases h; rw [List.length_tail]; omega
        · cases h
      rw [kraftSum_tailsOf n codes fun c hc => ⟨fun h => hn (h ▸ hc), hl c hc⟩, Nat.pow_succ]
      have h0 := ih _ (prefixCode_tailsOf false hp) (ht false)
      have h1 := ih _ (prefixCode_tailsOf true hp) (ht true)
      omega

/-! ## One merge of two least weights -/

/-- The cost of lengths under weights, `(weight, length)` pairs. -/
def costOf (l : List (Nat × Nat)) : Nat := (l.map fun p => p.1 * p.2).sum

@[simp] theorem costOf_nil : costOf [] = 0 := rfl
@[simp] theorem costOf_cons (p : Nat × Nat) (l : List (Nat × Nat)) : costOf (p :: l) = p.1 * p.2 + costOf l := rfl

theorem costOf_perm {l m : List (Nat × Nat)} (h : l.Perm m) : costOf l = costOf m := (h.map _).sum_eq

/-- Swapping the lengths of a lighter and a heavier entry, so that the lighter has the longer, costs no more. -/
theorem swap_cost {w v l m : Nat} (h : w ≤ v) (hl : l ≤ m) : w * m + v * l ≤ w * l + v * m := by
  obtain ⟨a, rfl⟩ := Nat.exists_eq_add_of_le h
  obtain ⟨b, rfl⟩ := Nat.exists_eq_add_of_le hl
  have : (w + a) * (l + b) = w * l + w * b + a * l + a * b := by ring
  have : w * (l + b) = w * l + w * b := by ring
  have : (w + a) * l = w * l + a * l := by ring
  omega

/-- A least weight can be given the greatest length, at no more cost. -/
theorem least_takes_longest (w l : Nat) (r : List (Nat × Nat)) (hw : ∀ p ∈ r, w ≤ p.1) :
    ∃ m r', r'.map (·.1) = r.map (·.1) ∧ (m :: r'.map (·.2)).Perm (l :: r.map (·.2)) ∧ (∀ p ∈ r', p.2 ≤ m) ∧
      w * m + costOf r' ≤ w * l + costOf r := by
  induction r generalizing l with
  | nil => exact ⟨l, [], rfl, .refl _, by simp, Nat.le_refl _⟩
  | cons p r ih =>
    obtain ⟨v, k⟩ := p
    have hv : w ≤ v := hw (v, k) List.mem_cons_self
    have hr := fun q hq => hw q (List.mem_cons_of_mem _ hq)
    rcases Nat.le_total k l with hk | hk
    · obtain ⟨m, r', h1, h2, h3, h4⟩ := ih l hr
      have hm : l ≤ m := by
        rcases List.mem_cons.1 (h2.mem_iff.2 List.mem_cons_self) with h | h
        · exact Nat.le_of_eq h
        · obtain ⟨q, hq, e⟩ := List.mem_map.1 h; exact e ▸ h3 q hq
      refine ⟨m, (v, k) :: r', by simp [h1], ?_, ?_, ?_⟩
      · simp only [List.map_cons]
        exact (List.Perm.swap _ _ _).trans ((h2.cons k).trans (List.Perm.swap _ _ _))
      · intro q hq
        rcases List.mem_cons.1 hq with rfl | hq
        · exact Nat.le_trans hk hm
        · exact h3 q hq
      · simp only [costOf_cons]; omega
    · obtain ⟨m, r', h1, h2, h3, h4⟩ := ih k hr
      have hm : k ≤ m := by
        rcases List.mem_cons.1 (h2.mem_iff.2 List.mem_cons_self) with h | h
        · exact Nat.le_of_eq h
        · obtain ⟨q, hq, e⟩ := List.mem_map.1 h; exact e ▸ h3 q hq
      refine ⟨m, (v, l) :: r', by simp [h1], ?_, ?_, ?_⟩
      · simp only [List.map_cons]
        exact (List.Perm.swap _ _ _).trans ((h2.cons l))
      · intro q hq
        rcases List.mem_cons.1 hq with rfl | hq
        · exact Nat.le_trans hk hm
        · exact h3 q hq
      · have := swap_cost hv hk
        simp only [costOf_cons]; omega

/-- A sum of powers of two with exponents no smaller than `k` is a multiple of `2 ^ k`. -/
theorem kraftSum_dvd (n m : Nat) (ls : List Nat) (h : ∀ l ∈ ls, l ≤ m) : 2 ^ (n - m) ∣ kraftSum n ls := by
  induction ls with
  | nil => simp
  | cons l ls ih =>
    have := h l List.mem_cons_self
    exact Dvd.dvd.add (Nat.pow_dvd_pow 2 (by omega)) (ih fun k hk => h k (List.mem_cons_of_mem _ hk))

/-- ONE MERGE: lengths that satisfy Kraft's inequality for a forest, whose two first weights are its least, give lengths
for the forest after the merge that do, and that cost the merged weight less. -/
theorem merge_cost (n a b : Nat) (la lb : Nat) (r : List (Nat × Nat)) (hab : a ≤ b) (hb : ∀ p ∈ r, b ≤ p.1)
    (hk : kraftSum n (la :: lb :: r.map (·.2)) ≤ 2 ^ n) (hn : ∀ l ∈ la :: lb :: r.map (·.2), l ≤ n) :
    ∃ m r', r'.map (·.1) = r.map (·.1) ∧ kraftSum n (m :: r'.map (·.2)) ≤ 2 ^ n ∧
      (∀ l ∈ m :: r'.map (·.2), l ≤ n) ∧
      (a + b) * m + costOf r' + (a + b) ≤ a * la + (b * lb + costOf r) := by
  obtain ⟨ma, r1, h1, p1, g1, c1⟩ := least_takes_longest a la ((b, lb) :: r) (by
    intro p hp
    rcases List.mem_cons.1 hp with rfl | hp
    · exact hab
    · exact Nat.le_trans hab (hb p hp))
  obtain ⟨⟨b', lb'⟩, r2, rfl⟩ : ∃ p r2, r1 = p :: r2 := by
    cases r1 with
    | nil => simp at h1
    | cons p r2 => exact ⟨p, r2, rfl⟩
  simp only [List.map_cons, List.cons.injEq] at h1
  obtain ⟨rfl, h1⟩ := h1
  have hb2 : ∀ p ∈ r2, b' ≤ p.1 := by
    intro p hp
    have : p.1 ∈ r.map (·.1) := h1 ▸ List.mem_map_of_mem hp
    obtain ⟨q, hq, e⟩ := List.mem_map.1 this
    exact e ▸ hb q hq
  obtain ⟨mb, r3, h3, p3, g3, c3⟩ := least_takes_longest b' lb' r2 hb2
  have hp : (ma :: mb :: r3.map (·.2)).Perm (la :: lb :: r.map (·.2)) := (p3.cons ma).trans p1
  have hk3 : kraftSum n (ma :: mb :: r3.map (·.2)) ≤ 2 ^ n := by rw [kraftSum_perm n hp]; exact hk
  have hn3 : ∀ l ∈ ma :: mb :: r3.map (·.2), l ≤ n := fun l hl => hn l (hp.mem_iff.1 hl)
  have hma : ma ≤ n := hn3 ma (by simp)
  have hmb : mb ≤ n := hn3 mb (by simp)
  have hle : mb ≤ ma := by
    rcases List.mem_cons.1 (p3.mem_iff.1 List.mem_cons_self : mb ∈ lb' :: r2.map (·.2)) with h | h
    · exact h ▸ g1 (b', lb') List.mem_cons_self
    · obtain ⟨q, hq, e⟩ := List.mem_map.1 h; exact e ▸ g1 q (List.mem_cons_of_mem _ hq)
  have hrest : ∀ l ∈ r3.map (·.2), l ≤ mb := by
    intro l hl
    obtain ⟨q, hq, e⟩ := List.mem_map.1 hl
    exact e ▸ g3 q hq
  -- the longest length can be cut down to the second longest
  have hk' : 2 ^ (n - mb) + (2 ^ (n - mb) + kraftSum n (r3.map (·.2))) ≤ 2 ^ n := by
    simp only [kraftSum_cons] at hk3
    obtain ⟨c, hc⟩ := kraftSum_dvd n mb _ hrest
    obtain ⟨d, hd⟩ : 2 ^ (n - mb) ∣ 2 ^ n := Nat.pow_dvd_pow 2 (by omega)
    have hpos : 0 < 2 ^ (n - ma) := Nat.two_pow_pos _
    rw [hc] at hk3 ⊢
    rw [hd] at hk3 ⊢
    have : 2 ^ (n - mb) * (1 + c) < 2 ^ (n - mb) * d := by rw [Nat.mul_add]; omega
    have := Nat.lt_of_mul_lt_mul_left this
    calc _ = 2 ^ (n - mb) * (2 + c) := by ring
      _ ≤ _ := Nat.mul_le_mul_left _ (by omega)
  have hpos : 1 ≤ mb := by
    rcases Nat.eq_zero_or_pos mb with h | h
    · rw [h, Nat.sub_zero] at hk'
      have := Nat.two_pow_pos n
      omega
    · exact h
  obtain ⟨m, rfl⟩ : ∃ m, mb = m + 1 := ⟨mb - 1, by omega⟩
  refine ⟨m, r3, h3.trans h1, ?_, ?_, ?_⟩
  · have e : n - m = (n - (m + 1)) + 1 := by omega
    rw [kraftSum_cons, e, Nat.pow_succ]
    omega
  · intro l hl
    rcases List.mem_cons.1 hl with rfl | hl
    · omega
    · exact hn3 l (by simp [hl])
  · simp only [costOf_cons] at c1
    have h5 : a * (m + 1) ≤ a * ma := Nat.mul_le_mul_left _ hle
    have h6 : (a + b') * m + (a + b') = a * (m + 1) + b' * (m + 1) := by ring
    omega

/-! ## The merge loop -/

/-- The counts of a tree's leaves. -/
def leafCount (count : Symbol → Nat) : Tree → Nat
  | .leaf s => count s
  | .node z o => leafCount count z + leafCount count o

/-- The counts of all merged subtrees: what a tree's codes cost. -/
def treeCost (count : Symbol → Nat) : Tree → Nat
  | .leaf _ => 0
  | .node z o => treeCost count z + treeCost count o + (leafCount count z + leafCount count o)

/-- What the trees of a forest cost. -/
def forestCost (count : Symbol → Nat) (l : List Entry) : Nat := (l.map fun e => treeCost count e.tree).sum

theorem forestCost_perm (count : Symbol → Nat) {l m : List Entry} (h : l.Perm m) : forestCost count l = forestCost count m :=
  (h.map _).sum_eq

/-- A dequeue by weight alone: no entry left is lighter. -/
theorem extractMin_weight (e : Entry) (l : List Entry) :
    (extractMin e l).1.weight.toNat ≤ e.weight.toNat ∧
    ∀ x ∈ (extractMin e l).2, (extractMin e l).1.weight.toNat ≤ x.weight.toNat := by
  induction l generalizing e with
  | nil => simp [extractMin]
  | cons x l ih =>
    unfold extractMin
    split
    · rename_i h
      have hx : x.weight.toNat ≤ e.weight.toNat := by
        rcases (precedes_iff x e).1 h with h | ⟨h, _⟩
        · omega
        · rw [h]
      obtain ⟨h1, h2⟩ := ih x
      refine ⟨Nat.le_trans h1 hx, fun y hy => ?_⟩
      rcases List.mem_cons.1 hy with rfl | hy
      · exact Nat.le_trans h1 hx
      · exact h2 y hy
    · rename_i h
      have hx : e.weight.toNat ≤ x.weight.toNat := by
        exact Nat.le_of_not_lt fun h' => h ((precedes_iff x e).2 (.inl h'))
      obtain ⟨h1, h2⟩ := ih e
      refine ⟨h1, fun y hy => ?_⟩
      rcases List.mem_cons.1 hy with rfl | hy
      · exact Nat.le_trans h1 hx
      · exact h2 y hy

theorem dequeueMin_weight {f f' : Forest} {m : Entry} (h : dequeueMin f = some (m, f')) :
    ∀ x ∈ f'.entries, m.weight.toNat ≤ x.weight.toNat := by
  unfold dequeueMin at h
  split at h
  · cases h
  · rename_i e rest _
    injection h with h
    obtain ⟨rfl, rfl⟩ := Prod.mk.inj h
    exact (extractMin_weight e rest).2

/-- Pairs can be put in the order of their first parts. -/
theorem pairs_in_order {l : List (Nat × Nat)} {ws : List Nat} (h : (l.map (·.1)).Perm ws) :
    ∃ m : List (Nat × Nat), m.Perm l ∧ m.map (·.1) = ws := by
  induction ws generalizing l with
  | nil => exact ⟨[], by rw [List.map_eq_nil_iff.1 (List.perm_nil.1 h)], rfl⟩
  | cons w ws ih =>
    obtain ⟨p, hp, rfl⟩ := List.mem_map.1 (h.mem_iff.2 List.mem_cons_self)
    have hl := List.perm_cons_erase hp
    obtain ⟨m, hm, e⟩ := ih ((List.perm_cons p.1).1 ((hl.map (fun q : Nat × Nat => q.1)).symm.trans h))
    exact ⟨p :: m, (hm.cons p).trans hl.symm, by simp [e]⟩

/-- THE MERGE LOOP: no lengths that satisfy Kraft's inequality for a forest's weights cost less than what the loop adds. -/
theorem mergeLoop_cost (count : Symbol → Nat) (n k : Nat) (f : Forest) (l : List (Nat × Nat)) (hne : f.entries ≠ [])
    (hk : f.entries.length ≤ k + 1) (hw : forestWeight f.entries < 2 ^ 40)
    (hs : ∀ e ∈ f.entries, e.weight.toNat = leafCount count e.tree)
    (hl : (l.map (·.1)).Perm (f.entries.map fun e => e.weight.toNat)) (hkraft : kraftSum n (l.map (·.2)) ≤ 2 ^ n)
    (hn : ∀ m ∈ l.map (·.2), m ≤ n) :
    ∃ e, (mergeLoop k f).entries = [e] ∧ treeCost count e.tree ≤ forestCost count f.entries + costOf l := by
  induction k generalizing f l with
  | zero =>
    obtain ⟨e, he⟩ := List.length_eq_one_iff.1 (Nat.le_antisymm hk (List.length_pos_iff.2 hne))
    exact ⟨e, he, by simp [he, forestCost]⟩
  | succ k ih =>
    obtain ⟨a, f1, ha⟩ := dequeueMin_some hne
    have h1 := (dequeueMin_perm ha).1
    by_cases hne1 : f1.entries = []
    · rw [hne1] at h1
      have h0 := List.perm_singleton.1 h1
      have hd : dequeueMin f1 = none := by unfold dequeueMin; rw [hne1]
      refine ⟨a, ?_, by simp [h0, forestCost]⟩
      unfold mergeLoop
      simp only [ha, hd, h0]
    · obtain ⟨b, f2, hb⟩ := dequeueMin_some hne1
      have h2 := (dequeueMin_perm hb).1
      have h : f.entries.Perm (a :: b :: f2.entries) := h1.trans (h2.cons a)
      obtain ⟨hlen, -, hwm⟩ := merge_keeps ha hb
      have hm : mergeLoop (k + 1) f = mergeLoop k (enqueueMerged f2 a b) := by
        unfold mergeLoop
        simp only [ha, hb]
        cases k <;> rfl
      obtain ⟨l', hl', e'⟩ := pairs_in_order (hl.trans (h.map _))
      obtain ⟨⟨wa, la⟩, ⟨wb, lb⟩, r, rfl⟩ : ∃ p q r, l' = p :: q :: r := by
        cases l' with
        | nil => simp at e'
        | cons p l' => cases l' with
          | nil => simp at e'
          | cons q r => exact ⟨p, q, r, rfl⟩
      simp only [List.map_cons, List.cons.injEq] at e'
      obtain ⟨rfl, rfl, e'⟩ := e'
      have hsum : (a.weight + b.weight).toNat = a.weight.toNat + b.weight.toNat := by
        have := forestWeight_perm h
        simp only [forestWeight_cons] at this
        rw [BitVec.toNat_add, Nat.mod_eq_of_lt (by omega)]
      have hsa := hs a (h.mem_iff.2 (by simp))
      have hsb := hs b (h.mem_iff.2 (by simp))
      obtain ⟨m, r', g1, g2, g3, g4⟩ := merge_cost n a.weight.toNat b.weight.toNat la lb r
        (dequeueMin_weight ha b (h2.mem_iff.2 List.mem_cons_self))
        (fun p hp => by
          have : p.1 ∈ f2.entries.map (fun e => e.weight.toNat) := e' ▸ List.mem_map_of_mem hp
          obtain ⟨x, hx, e⟩ := List.mem_map.1 this
          exact e ▸ dequeueMin_weight hb x hx)
        (by rw [← kraftSum_perm n (hl'.map (·.2))] at hkraft; exact hkraft)
        (fun j hj => hn j ((hl'.map (·.2)).mem_iff.1 hj))
      have hent : (enqueueMerged f2 a b).entries =
          f2.entries ++ [{ tree := .node a.tree b.tree, weight := a.weight + b.weight, seq := f2.next }] := rfl
      obtain ⟨e, he, hc⟩ := ih (enqueueMerged f2 a b) ((a.weight.toNat + b.weight.toNat, m) :: r')
        (by simp [hent]) (by omega) (by rw [hwm hw]; exact hw)
        (by
          intro x hx
          rw [hent] at hx
          rcases List.mem_append.1 hx with hx | hx
          · exact hs x (h.mem_iff.2 (by simp [hx]))
          · rw [List.mem_singleton.1 hx]
            simp only [leafCount]
            rw [hsum, hsa, hsb])
        (by
          rw [hent, List.map_append]
          simp only [List.map_cons, List.map_nil, hsum, g1, e']
          exact (List.perm_append_comm (l₁ := [_])).trans (.refl _))
        g2 g3
      refine ⟨e, by rw [hm, he], hc.trans ?_⟩
      have c1 := forestCost_perm count h
      have c2 := costOf_perm hl'
      simp only [costOf_cons] at c2 ⊢
      rw [hent]
      simp only [forestCost, List.map_append, List.map_cons, List.map_nil, List.sum_append, List.sum_cons,
        List.sum_nil, treeCost] at c1 ⊢
      omega

/-! ## What codes cost -/

/-- A tree's cost is that of its leaves' paths. -/
theorem treeCost_paths (count : Symbol → Nat) (t : Tree) (hd : (treeLeaves t).Nodup) (c : Symbol → List Bit)
    (hc : ∀ b ∈ treeLeaves t, treeAt t (c b) = some (.leaf b)) :
    treeCost count t = ((treeLeaves t).map fun b => count b * (c b).length).sum := by
  have hcount : ∀ u, leafCount count u = ((treeLeaves u).map count).sum := by
    intro u
    induction u with
    | leaf s => simp [leafCount, treeLeaves]
    | node z o hz ho => simp [leafCount, treeLeaves, hz, ho]
  induction t generalizing c with
  | leaf s =>
    have := hc s (by simp [treeLeaves])
    cases h : c s with
    | nil => simp [treeCost, treeLeaves, h]
    | cons x p => rw [h] at this; simp at this
  | node z o hz ho =>
    obtain ⟨hdz, hdo, hdisj⟩ := List.nodup_append.1 hd
    have hcz : ∀ b ∈ treeLeaves z, ∃ p, c b = false :: p ∧ treeAt z p = some (.leaf b) := by
      intro b hb
      have h := hc b (List.mem_append_left _ hb)
      cases hcb : c b with
      | nil => rw [hcb] at h; simp at h
      | cons x p =>
        rw [hcb, treeAt_node_cons] at h
        cases x with
        | false => exact ⟨p, rfl, by simpa using h⟩
        | true => exact absurd rfl (hdisj b hb b ((mem_treeLeaves_iff o b).2 ⟨p, by simpa using h⟩))
    have hco : ∀ b ∈ treeLeaves o, ∃ p, c b = true :: p ∧ treeAt o p = some (.leaf b) := by
      intro b hb
      have h := hc b (List.mem_append_right _ hb)
      cases hcb : c b with
      | nil => rw [hcb] at h; simp at h
      | cons x p =>
        rw [hcb, treeAt_node_cons] at h
        cases x with
        | true => exact ⟨p, rfl, by simpa using h⟩
        | false => exact absurd rfl (hdisj b ((mem_treeLeaves_iff z b).2 ⟨p, by simpa using h⟩) b hb)
    have split : ∀ (u : Tree), (∀ b ∈ treeLeaves u, ∃ x p, c b = x :: p) →
        ((treeLeaves u).map fun b => count b * (c b).length).sum =
          ((treeLeaves u).map fun b => count b * (c b).tail.length).sum + leafCount count u := by
      intro u hu
      rw [hcount u]
      generalize treeLeaves u = bs at hu
      induction bs with
      | nil => rfl
      | cons b bs ih =>
        obtain ⟨x, p, hxp⟩ := hu b List.mem_cons_self
        have := ih fun d hd => hu d (List.mem_cons_of_mem _ hd)
        have e : count b * (p.length + 1) = count b * p.length + count b := by ring
        simp only [List.map_cons, List.sum_cons, this, hxp, List.length_cons, List.tail_cons, e]
        omega
    have ez := hz hdz (fun b => (c b).tail) (fun b hb => by obtain ⟨p, e, h⟩ := hcz b hb; rw [e]; exact h)
    have eo := ho hdo (fun b => (c b).tail) (fun b hb => by obtain ⟨p, e, h⟩ := hco b hb; rw [e]; exact h)
    simp only [treeLeaves, List.map_append, List.sum_append, treeCost]
    rw [split z fun b hb => by obtain ⟨p, e, _⟩ := hcz b hb; exact ⟨_, p, e⟩,
      split o fun b hb => by obtain ⟨p, e, _⟩ := hco b hb; exact ⟨_, p, e⟩, ← ez, ← eo]
    omega

end Sys2Proof.Machine
end

