-- ==== Sys2Proof/Laws/PerInstr.lean ====
section
/-! SUPPORT. The family CommandWord: what the word of each command looks like, field by field (30_encoding.md R110,
R112). -/

namespace Sys2Proof.Laws.CommandWord

open Sys2Proof.Machine

/-- A command's word has RSV 0, its opcode in OP and its symbol operand in SYM, and its opcode is in the opcode map for
that symbol (R110, R112). -/
def Statement (i : Instr) : Prop :=
  wordRsv (encode i) = 0#16 ∧ wordOp (encode i) = i.opcode ∧ wordSym (encode i) = i.sym ∧
    opcodeMap i.opcode i.sym = some i

/-- The fields of every command's word; the opcode map is left to each command. -/
theorem of_opcodeMap {i : Instr} (h : opcodeMap i.opcode i.sym = some i) : Statement i :=
  ⟨wordRsv_commandWord _ _, wordOp_commandWord _ _, wordSym_commandWord _ _, h⟩

theorem nop (sym : Symbol) : Statement (.nop sym) := of_opcodeMap rfl
theorem softReset (sym : Symbol) : Statement (.softReset sym) := of_opcodeMap rfl
theorem clearFault (sym : Symbol) : Statement (.clearFault sym) := of_opcodeMap rfl
theorem newSession (sym : Symbol) : Statement (.newSession sym) := of_opcodeMap rfl
theorem freqClear (sym : Symbol) : Statement (.freqClear sym) := of_opcodeMap rfl
theorem freqCount (sym : Symbol) : Statement (.freqCount sym) := of_opcodeMap rfl
theorem freqWrite (sym : Symbol) : Statement (.freqWrite sym) := of_opcodeMap rfl
theorem freqRead (sym : Symbol) : Statement (.freqRead sym) := of_opcodeMap rfl
theorem inRewind (sym : Symbol) : Statement (.inRewind sym) := of_opcodeMap rfl
theorem treeBuild (sym : Symbol) : Statement (.treeBuild sym) := of_opcodeMap rfl
theorem hdrFlatten (sym : Symbol) : Statement (.hdrFlatten sym) := of_opcodeMap rfl
theorem hdrRecreate (sym : Symbol) : Statement (.hdrRecreate sym) := of_opcodeMap rfl
theorem mapBuild (sym : Symbol) : Statement (.mapBuild sym) := of_opcodeMap rfl
theorem mapRead (sym : Symbol) : Statement (.mapRead sym) := of_opcodeMap rfl
theorem encode (sym : Symbol) : Statement (.encode sym) := of_opcodeMap rfl
theorem decode (sym : Symbol) : Statement (.decode sym) := of_opcodeMap rfl
theorem compress (sym : Symbol) : Statement (.compress sym) := of_opcodeMap rfl
theorem decompress (sym : Symbol) : Statement (.decompress sym) := of_opcodeMap rfl

end Sys2Proof.Laws.CommandWord
end

