-- ==== Sys2Proof/Laws/Registers.lean ====
section
/-! SUPPORT. The fields of the registers that are put together from fields, and the code window's bits. -/

namespace Sys2Proof.Machine

/-- A field of a word put together by append, below the last piece. -/
theorem extract_append_high {m n : Nat} (x : BitVec m) (y : BitVec n) (k len : Nat) (h : n ≤ k) :
    (x ++ y).extractLsb' k len = x.extractLsb' (k - n) len := by
  apply BitVec.eq_of_getLsbD_eq
  intro i hi
  have h1 : ¬(k + i < n) := by omega
  simp only [BitVec.getLsbD_extractLsb', BitVec.getLsbD_append, h1, if_false]
  rw [show k + i - n = k - n + i by omega]

/-- The last piece of a word put together by append. -/
theorem extract_append_low {m n : Nat} (x : BitVec m) (y : BitVec n) (k len : Nat) (h : k + len ≤ n) :
    (x ++ y).extractLsb' k len = y.extractLsb' k len := by
  apply BitVec.eq_of_getLsbD_eq
  intro i hi
  have h1 : k + i < n := by omega
  simp only [BitVec.getLsbD_extractLsb', BitVec.getLsbD_append, h1, if_true]

/-- Bit `i` of a number made of bits. -/
theorem testBit_bitsToNat (l : List Bit) (i : Nat) : (bitsToNat l).testBit i = l.getD i false := by
  induction l generalizing i with
  | nil => simp [bitsToNat]
  | cons x rest ih =>
    cases i with
    | zero => cases x <;> simp [bitsToNat, Nat.testBit_zero]
    | succ i =>
      rw [Nat.testBit_succ]
      have : (bitsToNat (x :: rest)) / 2 = bitsToNat rest := by cases x <;> simp [bitsToNat]; omega
      rw [this, ih]; simp

/-- Bit `j` of CODE`k` is `code[32 k + j]` (R48). -/
theorem windowWord_bit (code : List Bit) (k j : Nat) (hj : j < 32) :
    (windowWord code k).getLsbD j = code.getD (32 * k + j) false := by
  simp only [windowWord, BitVec.getLsbD_ofNat, hj, decide_true, Bool.true_and, testBit_bitsToNat]
  simp only [List.getD_eq_getElem?_getD, List.getElem?_take, hj, if_true, List.getElem?_drop]

end Sys2Proof.Machine
end

