-- ==== Sys2Proof/Tests/Slice0.lean ====
section
/-! SUPPORT. Tests: what the shape checks refuse, words written out from the encoding, one step per command with the
expected values of 95_test_vectors.md, and for each statement with hypotheses a state that meets them. -/

namespace Sys2Proof.Tests

-- One theorem is checked after the other: many of them evaluate a run in the kernel, each in a thread of its own otherwise.
set_option Elab.async false

open Sys2Proof.Machine

/-! ## Helpers -/

/-- The byte of an ASCII character (R22). -/
def chr (c : Char) : Byte := BitVec.ofNat 8 c.toNat

/-- The bytes of a text. -/
def text (l : List Char) : List Byte := l.map chr

/-- Bits from digits, first bit first (R19). -/
def bits (l : List Nat) : List Bit := l.map (· == 1)

/-- The state right after reset, with enough steps granted to end any command of these tests. -/
def ready : State := { State.reset with host.grant := 400 }

/-- As `ready`, with a byte source. -/
def source (l : List Char) : State := { ready with env.inBytes := text l }

/-- The state an outcome goes on in. -/
def goesTo : Host.Outcome State Fault Refusal → State
  | .next t => t
  | .fault _ => State.reset
  | .refused _ => State.reset

/-- A state whose host writes `w` to CMD next. -/
def presents (w : Word32) (s : State) : State :=
  { s with host.queue := [{ move := .write 32 0x00#8 w, grant := 400 }] }

/-- A state whose host reads or writes as told next, with no step granted. -/
def moves (m : HostMove) (s : State) : State := { s with host.queue := [{ move := m, grant := 0 }] }

/-- A state with a tree, and TREEINFO accordingly. -/
def holding (t : TreeStore) (s : State) : State := s.setTree t

/-- A state whose map is its tree's. -/
def mapped (s : State) : State := { s with map := (mapOf s.tree).1, mapValid := true }

/-- The tree of V-T4, `(.a((.c.d)(.b.r)))`. -/
def treeT4 : TreeStore :=
  .full (.leaf (chr 'a')) (.node (.node (.leaf (chr 'c')) (.leaf (chr 'd'))) (.node (.leaf (chr 'b')) (.leaf (chr 'r'))))

/-- The text of V-T4's header. -/
def headerT4 : List Byte :=
  text ['(', '.', 'a', '(', '(', '.', 'c', '.', 'd', ')', '(', '.', 'b', '.', 'r', ')', ')', ')']

/-- `abracadabra`. -/
def abracadabra : List Char := ['a', 'b', 'r', 'a', 'c', 'a', 'd', 'a', 'b', 'r', 'a']

/-- The payload of V-E1. -/
def payloadE1 : List Bit := bits [0, 1, 1, 0, 1, 1, 1, 0, 1, 0, 0, 0, 1, 0, 1, 0, 1, 1, 0, 1, 1, 1, 0]

/-- The table of `abracadabra` (V-F1). -/
def freqF1 : Vector Count 256 :=
  symSet (symSet (symSet (symSet (symSet zeroFreq (chr 'a') 5#32) (chr 'b') 2#32) (chr 'c') 1#32) (chr 'd') 1#32)
    (chr 'r') 2#32

/-- A state in which STATUS shows V-C3's fault. -/
def faulted : State :=
  { ready with status := { Status.reset with fault := true, faultCode := 0x01#8, faultDetail := 2#8 }, faultOp := 0x05#8 }

/-- A state in which FREQ_COUNT waits for a byte. -/
def counting : State :=
  { source ['a', 'b'] with
    status.busy := true
    cur := { op := 0x11#8, sym := 0#8, arg := 0#32, prim := 0x11#8 }
    run := { Run.idle with phase := .asking .countByte } }

/-! ## Shapes (R83, U2) -/

theorem test_wellFormed_width : (HostMove.read 16 0x04#8).wellFormed = false := by decide
theorem test_wellFormed_offset : (HostMove.write 32 0x02#8 0#32).wellFormed = false := by decide
theorem test_wellFormed_access : (HostMove.read 32 0x3C#8).wellFormed = true := by decide
theorem test_step_width : step (moves (.read 16 0x04#8) ready) = .refused .accessWidth := rfl
theorem test_step_offset : step (moves (.read 32 0x06#8) ready) = .refused .accessMisaligned := rfl

/-! ## Words (R110, R112, R122) -/

theorem test_decode_control : decode 0b0000000000000000_00000000_00000011#32 = .instr (.newSession 0x00#8) := by decide
theorem test_decode_frequency : decode 0b0000000000000000_01100001_00010011#32 = .instr (.freqRead 0x61#8) := by decide
theorem test_decode_tree : decode 0b0000000000000000_00000000_00100000#32 = .instr (.treeBuild 0x00#8) := by decide
theorem test_decode_header : decode 0b0000000000000000_00000000_00110001#32 = .instr (.hdrRecreate 0x00#8) := by decide
theorem test_decode_map : decode 0b0000000000000000_00101000_01000001#32 = .instr (.mapRead 0x28#8) := by decide
theorem test_decode_bits : decode 0b0000000000000000_00000000_01010001#32 = .instr (.decode 0x00#8) := by decide
theorem test_decode_sequence : decode 0b0000000000000000_00000000_01100000#32 = .instr (.compress 0x00#8) := by decide
theorem test_decode_reservedBits : decode 0b0000000000000001_00000000_01100000#32 = .reservedBits := by decide
theorem test_decode_reservedOpcode : decode 0b0000000000000000_00000000_00010101#32 = .reservedOpcode := by decide
theorem test_tableWord : decodeTableWord 32 0x7812 = some (.freqWrite 0x78#8) := by decide

/-! ## The host's moves -/

/-- P3: `LOADFREQ 'a', 5` is `WR ARG, 5`, CMD 0x00006112 and a POLL. -/
theorem test_loadFreq : stmtMoves (.loadFreq (chr 'a') 5#32) =
    [.write 32 0x08#8 5#32, .write 32 0x00#8 0x00006112#32, .poll] := by decide
/-- V-C2. -/
theorem test_step_reservedBits : statusWord (goesTo (step (presents 0x00010060#32 ready))) = 0x01010004#32 := by
  decide +kernel
/-- V-C4. -/
theorem test_step_reservedOpcode : statusWord (goesTo (step (presents 0x000000FF#32 ready))) = 0x02010004#32 := by
  decide +kernel
/-- V-C7. -/
theorem test_step_clearFaultWithRsv : statusWord (goesTo (step (presents 0x00010002#32 faulted))) = 0x0201000C#32 := by
  decide +kernel
/-- V-C10: the write is dropped and the running command goes on. -/
theorem test_step_droppedWhileBusy : (goesTo (step (presents 0x00000001#32 counting))).status.dropped = true ∧
    (goesTo (step (presents 0x00000001#32 counting))).env.inCursor = 2 := by decide +kernel
/-- R362: the POLL of a block that is idle reads STATUS once. -/
theorem test_step_poll : (goesTo (step (moves .poll ready))).host.noted = [0#32] := by decide +kernel
/-- R360: hardware reset ends a command that waits. -/
theorem test_step_hardReset : (goesTo (step (moves .hardReset counting))).run = Run.idle := by decide +kernel
/-- R99: beyond its listed bytes a source without an end answers a byte, not EOF. -/
theorem test_freqCount_endless : (goesTo (exec (.freqCount 0#8)
    { ready with host.grant := 2, env.inEnding := .endless 0 })).run.phase =
      .answered (.countByte (.value (.byte (Config.endlessByte 0 0)))) := rfl
/-- R376: no port moves while a command runs. -/
theorem test_step_attach : step (moves (.attach .byteSink) counting) = .refused .portMovedWhileBusy := rfl
/-- A placed word is the first instruction after reset: V-C1. -/
theorem test_step_placed : statusWord (goesTo (step (State.reset.withFetchWord 32 0))) = 0x00000002#32 := by decide +kernel

/-! ## One command each -/

/-- V-C1. -/
theorem test_nop : statusWord (goesTo (exec (.nop 0#8) ready)) = 0x00000002#32 := by decide +kernel
/-- V-C8, V-C12. -/
theorem test_softReset : statusWord (goesTo (exec (.softReset 0#8) { faulted with arg := 9#32 })) = 0x00000002#32 ∧
    (goesTo (exec (.softReset 0#8) { faulted with arg := 9#32 })).arg = 0#32 := by decide +kernel
/-- V-C6. -/
theorem test_clearFault : statusWord (goesTo (exec (.clearFault 0#8) { faulted with status.dropped := true })) =
      0x00000002#32 ∧ (goesTo (exec (.clearFault 0#8) faulted)).faultOp = 0#8 := by decide +kernel
/-- V-C11. -/
theorem test_newSession : (goesTo (exec (.newSession 0#8) { ready with hdrOutDone := true })).hdrOutDone = false := by
  decide +kernel
/-- V-F10. -/
theorem test_freqClear : symGet (goesTo (exec (.freqClear 0#8) { ready with freq := freqF1 })).freq (chr 'a') = 0#32 := by
  decide +kernel
/-- V-F1. -/
theorem test_freqCount : symGet (goesTo (exec (.freqCount 0#8) (source abracadabra))).freq (chr 'a') = 5#32 ∧
    (goesTo (exec (.freqCount 0#8) (source abracadabra))).result = 11#64 := by decide +kernel
/-- V-F11: the third ByteRead answers IOERR. -/
theorem test_freqCount_ioError : statusWord (goesTo (exec (.freqCount 0#8)
    { source abracadabra with env.draws := [.served, .served, .failed false] })) = 0x010B0004#32 := by decide +kernel
/-- V-F9. -/
theorem test_freqWrite : symGet (goesTo (exec (.freqWrite 0xFF#8) { ready with arg := 0xFFFFFFFF#32 })).freq 0xFF#8 =
    0xFFFFFFFF#32 := by decide +kernel
/-- V-F9. -/
theorem test_freqRead : (goesTo (exec (.freqRead 0xFF#8) { ready with freq := symSet zeroFreq 0xFF#8 0xFFFFFFFF#32 })).result
    = 0x00000000FFFFFFFF#64 := by decide +kernel
/-- V-F3. -/
theorem test_inRewind : (goesTo (exec (.inRewind 0#8) { source abracadabra with env.inCursor := 11 })).env.inCursor = 0 := by
  decide +kernel
/-- V-F12. -/
theorem test_inRewind_ioError : statusWord (goesTo (exec (.inRewind 0#8) { ready with env.draws := [.failed false] })) =
    0x020B0004#32 := by decide +kernel
/-- V-T8: a leaf ties with a merged node and was enqueued first. -/
theorem test_treeBuild_tie : (dequeueMin (mergeLoop 3 (enqueue (enqueue (enqueue Forest.empty (.leaf (chr 'a')) 1#40)
      (.leaf (chr 'b')) 2#40) (.leaf (chr 'c')) 1#40))).map (·.1.tree) =
    some (.node (.leaf (chr 'b')) (.node (.leaf (chr 'a')) (.leaf (chr 'c')))) := by decide
/-- V-H3. -/
theorem test_hdrFlatten : (goesTo (exec (.hdrFlatten 0#8) (holding treeT4 ready))).env.hdrOut = some headerT4 ∧
    statusWord (goesTo (exec (.hdrFlatten 0#8) (holding treeT4 ready))) = 0x000000B2#32 := by decide +kernel
/-- V-H7. -/
theorem test_hdrFlatten_twice : statusWord (goesTo (exec (.hdrFlatten 0#8)
    { holding treeT4 ready with hdrOutDone := true })) = 0x010400B4#32 := by decide +kernel
/-- V-P7: duplicate leaves are accepted. -/
theorem test_hdrRecreate : statusWord (goesTo (exec (.hdrRecreate 0#8)
    { ready with env.hdrIn := text ['(', '.', 'a', '.', 'a', ')'] })) = 0x00000132#32 := by decide +kernel
/-- V-P19: leaf `.`, then `)` where the one-branch must start. -/
theorem test_hdrRecreate_malformed : (goesTo (exec (.hdrRecreate 0#8)
      { ready with env.hdrIn := text ['(', '.', '.', ')'] })).result = 3#64 ∧
    statusWord (goesTo (exec (.hdrRecreate 0#8) { ready with env.hdrIn := text ['(', '.', '.', ')'] })) =
      0x02060104#32 := by decide +kernel
/-- V-M1 to V-M6. -/
theorem test_mapBuild : (goesTo (exec (.mapBuild 0#8) (holding treeT4 ready))).result = 5#64 ∧
    symGet (goesTo (exec (.mapBuild 0#8) (holding treeT4 ready))).map (chr 'b') =
      { present := true, code := bits [1, 1, 0] } := by decide +kernel
/-- V-M14. -/
theorem test_mapBuild_duplicate : statusWord (goesTo (exec (.mapBuild 0#8)
    { holding (.full (.leaf (chr 'a')) (.leaf (chr 'a'))) ready with hdrInDone := true })) = 0x610A0134#32 := by
  decide +kernel
/-- V-M4. -/
theorem test_mapRead : (goesTo (exec (.mapRead (chr 'd')) (mapped (holding treeT4 ready)))).result = 0x80000003#64 ∧
    (goesTo (exec (.mapRead (chr 'd')) (mapped (holding treeT4 ready)))).codeWin[0] = 0x5#32 := by decide +kernel
/-- V-M12: 254 ones, then 0. -/
theorem test_mapRead_longest : (goesTo (exec (.mapRead 0xFE#8) { ready with
      mapValid := true, map := symSet clearedMap 0xFE#8 { present := true, code := List.replicate 254 true ++ [false] } })
      ).codeWin[7] = 0x3FFFFFFF#32 := by decide +kernel
/-- V-E1. -/
theorem test_encode : (goesTo (exec (.encode 0#8) { mapped (holding treeT4 (source abracadabra)) with hdrOutDone := true })
    ).env.bitsOut = payloadE1 := by decide +kernel
/-- V-E11. -/
theorem test_encode_noCode : (goesTo (exec (.encode 0#8)
      { mapped (holding treeT4 (source ['a', 'b', 'z'])) with hdrOutDone := true })).result = 2#64 ∧
    statusWord (goesTo (exec (.encode 0#8) { mapped (holding treeT4 (source ['a', 'b', 'z'])) with hdrOutDone := true })) =
      0x7A0900F4#32 := by decide +kernel
/-- V-D1. -/
theorem test_decode : (goesTo (exec (.decode 0#8) { holding treeT4 ready with
    hdrInDone := true, env.bitsIn := payloadE1.map bitAnswer })).env.outBytes = text abracadabra := by decide +kernel
/-- V-D4. -/
theorem test_decode_truncated : statusWord (goesTo (exec (.decode 0#8) { holding treeT4 ready with
    hdrInDone := true, env.bitsIn := (bits [0, 1, 1]).map bitAnswer })) = 0x00070134#32 := by decide +kernel
/-- V-S2. -/
theorem test_decompress : (goesTo (exec (.decompress 0#8) { ready with
      env.hdrIn := headerT4, env.bitsIn := payloadE1.map bitAnswer })).env.outBytes = text abracadabra := by decide +kernel
/-- V-S7. -/
theorem test_decompress_malformed : (goesTo (exec (.decompress 0#8)
    { ready with env.hdrIn := text ['(', '.', 'a', '.', 'b'] })).faultOp = 0x31#8 := by decide +kernel

/-! ## A state for each statement's hypotheses

Each theorem names its statement after `witness_`. -/

/-- A state as `ready` that holds a tree and its map, with the header written. -/
def encoding : State := { mapped (holding treeT4 (source abracadabra)) with hdrOutDone := true }

/-- A state as `ready` that holds a tree whose header was read, and the bits of a payload. -/
def decoding : State :=
  { holding treeT4 ready with hdrInDone := true, env.bitsIn := payloadE1.map bitAnswer }

/-- A state whose grant is just what COMPRESS of `abracadabra` needs. -/
def compressing : State :=
  { source abracadabra with
    host.grant := countSteps (text abracadabra).length +
      encodeSteps (mapOf (builtStore (countTable (text abracadabra)))).1 (text abracadabra) + 3 }

/-- A state in which a request stands at `w` and its answer is drawn. -/
def waits (w : Wait) (d : Draw) : State :=
  { counting with run := { Run.idle with phase := .asking w }, env := { Env.initial with draws := [d] } }

/-- A state with a reply in hand. -/
def holds (r : Reply) : State := { counting with run := { Run.idle with phase := .answered r } }

theorem ready_accepts : ready.Ready := ⟨rfl, rfl⟩

theorem witness_StepRunsDecodedCommand :
    (presents 0x00000060#32 counting).host.queue = { move := .write 32 0x00#8 0x00000060#32, grant := 400 } :: [] ∧
    decode 0x00000060#32 = .instr (.compress 0#8) := by decide
theorem witness_IllegalWordFaults_bits : (presents 0x00010060#32 ready).Ready ∧
    (0x00010060#32).extractLsb' 16 16 ≠ 0#16 := ⟨⟨rfl, rfl⟩, by decide⟩
theorem witness_IllegalWordFaults_opcode : (presents 0x00000005#32 ready).Ready ∧
    (0x00000005#32).extractLsb' 0 8 ∉ listedOpcodes := ⟨⟨rfl, rfl⟩, by decide⟩
theorem witness_BlockedWriteIsDropped_busy : (presents 0x00000001#32 counting).status.busy = true := rfl
theorem witness_BlockedWriteIsDropped_fault : (presents 0x00010002#32 faulted).status.fault = true ∧
    ¬((0x00010002#32).extractLsb' 16 16 = 0#16 ∧
      ((0x00010002#32).extractLsb' 0 8 = 0x01#8 ∨ (0x00010002#32).extractLsb' 0 8 = 0x02#8)) := by decide
theorem witness_IdleBlockWaits : ready.host.queue = [] ∧ ready.status.busy = false := by decide
theorem witness_MisshapenAccessRefused_width :
    (moves (.read 31 0x04#8) ready).host.queue = { move := .read 31 0x04#8, grant := 0 } :: [] ∧ 31 ≠ 32 := by decide
theorem witness_MisshapenAccessRefused_offset :
    (moves (.write 32 0x07#8 0#32) ready).host.queue = { move := .write 32 0x07#8 0#32, grant := 0 } :: [] ∧
    (0x07#8).extractLsb' 0 2 ≠ 0#2 := by decide
theorem witness_StatusReadShowsFields : (moves (.read 32 0x04#8) faulted).status.busy = false ∧
    (moves (.read 32 0x04#8) faulted).host.queue = { move := .read 32 0x04#8, grant := 0 } :: [] := by decide
theorem witness_RegisterReadsShowState_result : (moves (.read 32 0x14#8) ready).status.busy = false ∧
    (moves (.read 32 0x14#8) ready).host.queue = { move := .read 32 0x14#8, grant := 0 } :: [] ∧
    (0x14#8).extractLsb' 0 2 = 0#2 := by decide
theorem witness_RegisterReadsShowState_arg : (moves (.read 32 0x08#8) ready).status.busy = false ∧
    (0x08#8).extractLsb' 0 2 = 0#2 ∧ (0x10#8).extractLsb' 0 2 = 0#2 := by decide
theorem witness_RegisterReadsShowState_info : (moves (.read 32 0x18#8) ready).status.busy = false ∧
    (0x18#8).extractLsb' 0 2 = 0#2 ∧ (0x1C#8).extractLsb' 0 2 = 0#2 := by decide
theorem witness_RegisterReadsShowState_firstCode : (0x20#8).extractLsb' 0 2 = 0#2 ∧
    (0x20#8).toNat = 0x20 + 4 * (0 : Fin 8).val := by decide
theorem witness_RegisterReadsShowState_lastCode : (0x3C#8).extractLsb' 0 2 = 0#2 ∧
    (0x3C#8).toNat = 0x20 + 4 * (7 : Fin 8).val := by decide
theorem witness_RegisterWritesAndReservedReads_first : (moves (.read 32 0x40#8) ready).status.busy = false ∧
    (0x40#8).extractLsb' 0 2 = 0#2 ∧ 0x40 ≤ (0x40#8).toNat := by decide
theorem witness_RegisterWritesAndReservedReads_last : (moves (.read 32 0xFC#8) ready).status.busy = false ∧
    (0xFC#8).extractLsb' 0 2 = 0#2 ∧ 0x40 ≤ (0xFC#8).toNat := by decide
theorem witness_RegisterWritesAndReservedReads_arg : (moves (.write 32 0x08#8 7#32) ready).status.busy = false ∧
    (0x08#8).extractLsb' 0 2 = 0#2 ∧
    (moves (.write 32 0x08#8 7#32) ready).host.queue = { move := .write 32 0x08#8 7#32, grant := 0 } :: [] := by decide
theorem witness_RegisterWritesAndReservedReads_write : 0x04#8 ≠ 0x00#8 ∧ 0x04#8 ≠ 0x08#8 ∧
    (moves (.write 32 0x04#8 7#32) ready).host.queue = { move := .write 32 0x04#8 7#32, grant := 0 } :: [] := by decide
theorem witness_BusyReadIsFree : (moves (.read 32 0x04#8) counting).status.busy = true ∧
    (moves (.read 32 0x04#8) counting).host.queue = { move := .read 32 0x04#8, grant := 0 } :: [] := by decide
theorem witness_BusyReadIsFree_other : (moves (.read 32 0x10#8) counting).status.busy = true ∧
    (0x10#8).extractLsb' 0 2 = 0#2 ∧ 0x10#8 ≠ 0x04#8 := by decide
theorem witness_ArgWriteLeavesRunningCommand : (moves (.write 32 0x08#8 9#32) counting).status.busy = true ∧
    (moves (.write 32 0x08#8 9#32) counting).host.queue = { move := .write 32 0x08#8 9#32, grant := 0 } :: [] ∧
    Body.softReset ∉ (moves (.write 32 0x08#8 9#32) counting).run.todo := by decide
theorem witness_HardResetAbandonsCommand_unanswered :
    (moves .hardReset (waits .decBit .unanswered)).run.phase = .asking .decBit ∧
    (moves .hardReset (waits .decBit .unanswered)).env.draws = .unanswered :: [] := by decide
theorem witness_HardResetAbandonsCommand :
    (moves .hardReset counting).host.queue = { move := .hardReset, grant := 0 } :: [] := by decide
theorem witness_NopAndNewSessionComplete : encoding.Ready ∧ 1 ≤ encoding.host.grant := ⟨⟨rfl, rfl⟩, by decide⟩
theorem witness_SoftResetCompletes : faulted.status.busy = false ∧ 1 ≤ faulted.host.grant := by decide
theorem witness_ClearFaultCompletes : faulted.status.busy = false ∧ 1 ≤ faulted.host.grant := by decide
theorem witness_FreqClearCompletes : ready.Ready ∧ 1 ≤ ready.host.grant := ⟨ready_accepts, by decide⟩
theorem witness_FreqWriteCompletes : ready.Ready ∧ 1 ≤ ready.host.grant := ⟨ready_accepts, by decide⟩
theorem witness_FreqReadCompletes : ready.Ready ∧ 1 ≤ ready.host.grant := ⟨ready_accepts, by decide⟩
theorem witness_FreqCountCompletes : (source abracadabra).Ready ∧ (source abracadabra).Served ∧
    (source abracadabra).env.inEnding = .ends ∧
    (∀ b, (source abracadabra).env.bytesLeft.count b < 2 ^ 32) ∧
    countSteps (source abracadabra).env.bytesLeft.length ≤ (source abracadabra).host.grant :=
  ⟨⟨rfl, rfl⟩, rfl, rfl, fun _ => Nat.lt_of_le_of_lt List.count_le_length (by decide), by decide⟩
theorem witness_FreqCountSumsToResult : (source abracadabra).Ready ∧
    exec (.freqCount 0#8) (source abracadabra) = .next (goesTo (exec (.freqCount 0#8) (source abracadabra))) ∧
    (goesTo (exec (.freqCount 0#8) (source abracadabra))).status.done = true ∧
    (goesTo (exec (.freqCount 0#8) (source abracadabra))).status.busy = false :=
  ⟨⟨rfl, rfl⟩, rfl, by decide +kernel, by decide +kernel⟩
theorem witness_FullCounterFaults :
    (holds (.countByte (.value (.byte 7#8)))).run.phase = .answered (.countByte (.value (.byte 7#8))) ∧
    symGet { holds (.countByte (.value (.byte 7#8))) with freq := symSet zeroFreq 7#8 0xFFFFFFFF#32 }.freq 7#8 =
      0xFFFFFFFF#32 := by decide +kernel
theorem witness_InRewindCompletes : ready.Ready ∧ ready.Served ∧ 3 ≤ ready.host.grant ∧ ready.env.inLater = [] :=
  ⟨ready_accepts, rfl, by decide, rfl⟩
theorem witness_InRewindCompletes_other : { ready with env.inLater := [{ bytes := [1#8], ending := .ends }] }.Ready ∧
    { ready with env.inLater := [{ bytes := [1#8], ending := .ends }] }.env.inLater =
      { bytes := [1#8], ending := .ends } :: [] := ⟨⟨rfl, rfl⟩, rfl⟩
theorem witness_DequeueTakesMinimum :
    dequeueMin (enqueue (enqueue Forest.empty (.leaf 1#8) 5#40) (.leaf 2#8) 5#40) =
      some ({ tree := .leaf 1#8, weight := 5#40, seq := 0#9 },
        { entries := [{ tree := .leaf 2#8, weight := 5#40, seq := 1#9 }], next := 2#9 }) := by decide
theorem witness_TreeBuildCompletes_merge :
    dequeueMin (enqueue (enqueue Forest.empty (.leaf 1#8) 5#40) (.leaf 2#8) 3#40) =
      some ({ tree := .leaf 2#8, weight := 3#40, seq := 1#9 },
        { entries := [{ tree := .leaf 1#8, weight := 5#40, seq := 0#9 }], next := 2#9 }) ∧
    dequeueMin { entries := [{ tree := .leaf 1#8, weight := 5#40, seq := 0#9 }], next := 2#9 } =
      some ({ tree := .leaf 1#8, weight := 5#40, seq := 0#9 }, { entries := [], next := 2#9 }) ∧
    (3#40).toNat + (5#40).toNat < 2 ^ 40 := by decide
theorem witness_TreeBuildCompletes_one :
    (enqueue Forest.empty (.leaf 1#8) 5#40).entries.length ≤ 1 ∧ Forest.empty.entries.length ≤ 1 := by decide
theorem witness_TreeBuildCompletes : ready.Ready ∧ 1 ≤ ready.host.grant := ⟨ready_accepts, by decide⟩
theorem witness_BuiltTreeHoldsPresentSymbols_none : presentSymbols zeroFreq = [] :=
  List.filter_eq_nil_iff.2 fun b _ => by simp
theorem witness_BuiltTreeHoldsPresentSymbols_one : presentSymbols (symSet zeroFreq 0xFF#8 1#32) = [0xFF#8] :=
  List.perm_singleton.1 ((List.perm_ext_iff_of_nodup (leafOrder_nodup.filter _) (List.nodup_singleton _)).2 fun b => by
    by_cases h : b = 0xFF#8 <;> simp [mem_leafOrder, symGet_symSet, h])
theorem witness_BuiltTreeHoldsPresentSymbols_two : 2 ≤ (presentSymbols freqF1).length :=
  (List.subperm_of_subset (l₁ := [chr 'a', chr 'r']) (by decide) fun b hb => by
    have h : symGet freqF1 b ≠ 0#32 := by
      rcases List.mem_pair.1 hb with rfl | rfl <;> decide +kernel
    simp [presentSymbols, mem_leafOrder, h]).length_le
theorem witness_HeaderLength : treeSize (.node (.leaf 0#8) (.leaf 1#8)) ≤ 511 := by decide
theorem witness_HdrFlattenCompletes : (holding treeT4 ready).Ready ∧ (holding treeT4 ready).Served ∧
    3 ≤ (holding treeT4 ready).host.grant ∧ (holding treeT4 ready).tree ≠ .none ∧
    (holding treeT4 ready).hdrOutDone = false := ⟨⟨rfl, rfl⟩, rfl, by decide, by decide, rfl⟩
theorem witness_HdrRecreateCompletes : { ready with env.hdrIn := headerT4 }.Ready ∧
    { ready with env.hdrIn := headerT4 }.Served ∧ 3 ≤ { ready with env.hdrIn := headerT4 }.host.grant ∧
    { ready with env.hdrIn := headerT4 }.hdrInDone = false ∧ parse headerT4 = .ok treeT4 :=
  ⟨⟨rfl, rfl⟩, rfl, by decide, rfl, by decide⟩
theorem witness_MalformedHeaderFaults : { ready with env.hdrIn := [openByte] }.Ready ∧
    { ready with env.hdrIn := [openByte] }.Served ∧ 3 ≤ { ready with env.hdrIn := [openByte] }.host.grant ∧
    { ready with env.hdrIn := [openByte] }.hdrInDone = false ∧ parse [openByte] = .malformed 1#8 1 :=
  ⟨⟨rfl, rfl⟩, rfl, by decide, rfl, by decide⟩
theorem witness_HeaderRoundTrip : (holding treeT4 ready).Ready ∧ (holding treeT4 ready).Served ∧
    3 ≤ (holding treeT4 ready).host.grant ∧ (holding treeT4 ready).tree ≠ .none ∧
    storeNodes (holding treeT4 ready).tree ≤ 511 ∧ (holding treeT4 ready).hdrOutDone = false ∧ ready.Ready ∧
    ready.Served ∧ 3 ≤ ready.host.grant ∧ ready.hdrInDone = false :=
  ⟨⟨rfl, rfl⟩, rfl, by decide, by decide, by decide, rfl, ready_accepts, rfl, by decide, rfl⟩
theorem witness_MapBuildCompletes : (holding treeT4 ready).Ready ∧ 1 ≤ (holding treeT4 ready).host.grant ∧
    (holding treeT4 ready).tree ≠ .none ∧
    (∀ r, storeRoot (holding treeT4 ready).tree = some r → (treeLeaves r).Nodup) :=
  ⟨⟨rfl, rfl⟩, by decide, by decide, fun r h => by cases h; decide⟩
theorem witness_DuplicateLeavesFault : (holding (.full (.leaf 9#8) (.leaf 9#8)) ready).Ready ∧
    1 ≤ (holding (.full (.leaf 9#8) (.leaf 9#8)) ready).host.grant ∧
    storeRoot (holding (.full (.leaf 9#8) (.leaf 9#8)) ready).tree = some (.node (.leaf 9#8) (.leaf 9#8)) ∧
    ¬(treeLeaves (.node (.leaf 9#8) (.leaf 9#8))).Nodup := ⟨⟨rfl, rfl⟩, by decide, rfl, by decide⟩
theorem witness_CodesArePrefixFree : (treeLeaves (.node (.leaf 0#8) (.leaf 0xFF#8))).Nodup ∧
    0#8 ∈ treeLeaves (.node (.leaf 0#8) (.leaf 0xFF#8)) ∧ 0xFF#8 ∈ treeLeaves (.node (.leaf 0#8) (.leaf 0xFF#8)) ∧
    0#8 ≠ 0xFF#8 ∧ treeSize (.node (.leaf 0#8) (.leaf 0xFF#8)) ≤ 511 := by decide
/-- The fixed-length code of 8 bits is a prefix code. -/
theorem witness_BuiltCodesAreOptimal : ∀ a ∈ presentSymbols freqF1, ∀ b ∈ presentSymbols freqF1, a ≠ b →
    ¬ (List.ofFn fun k : Fin 8 => a.getLsbD k.val) <+: (List.ofFn fun k : Fin 8 => b.getLsbD k.val) := by
  intro a _ b _ hab h
  refine hab (BitVec.eq_of_getLsbD_eq fun i hi => ?_)
  exact congrFun (List.ofFn_injective (h.eq_of_length (by simp))) ⟨i, hi⟩
theorem witness_MapReadCompletes : encoding.Ready ∧ 1 ≤ encoding.host.grant ∧ encoding.mapValid = true :=
  ⟨⟨rfl, rfl⟩, by decide, rfl⟩
theorem witness_EncodeCompletes : encoding.Ready ∧ encoding.Served ∧ encoding.env.inEnding = .ends ∧ encoding.mapValid = true ∧
    encoding.hdrOutDone = true ∧ (∀ b ∈ encoding.env.bytesLeft, (symGet encoding.map b).present = true) ∧
    encoding.env.bytesLeft.length < 2 ^ 64 ∧ encodeSteps encoding.map encoding.env.bytesLeft ≤ encoding.host.grant :=
  ⟨⟨rfl, rfl⟩, rfl, rfl, rfl, rfl, by decide +kernel, by decide +kernel, by decide +kernel⟩
theorem witness_ByteWithoutCodeFaults :
    (holds (.encByte (.value (.byte 7#8)))).run.phase = .answered (.encByte (.value (.byte 7#8))) ∧
    (symGet (holds (.encByte (.value (.byte 7#8)))).map 7#8).present = false := by decide +kernel
theorem witness_PreconditionFaults_noTree : ready.Ready ∧ 1 ≤ ready.host.grant ∧ ready.tree = .none ∧
    ready.mapValid = false := ⟨ready_accepts, by decide, rfl, rfl⟩
theorem witness_PreconditionFaults_written : encoding.Ready ∧ 1 ≤ encoding.host.grant ∧ encoding.tree ≠ .none ∧
    encoding.hdrOutDone = true := ⟨⟨rfl, rfl⟩, by decide, by decide, rfl⟩
theorem witness_PreconditionFaults_noHeader : (mapped (holding treeT4 ready)).Ready ∧
    (mapped (holding treeT4 ready)).mapValid = true ∧ (mapped (holding treeT4 ready)).hdrOutDone = false ∧
    (mapped (holding treeT4 ready)).tree ≠ .none ∧ (mapped (holding treeT4 ready)).hdrInDone = false :=
  ⟨⟨rfl, rfl⟩, rfl, rfl, by decide, rfl⟩
theorem witness_PreconditionFaults_read : decoding.Ready ∧ 1 ≤ decoding.host.grant ∧ decoding.hdrInDone = true :=
  ⟨⟨rfl, rfl⟩, by decide, rfl⟩
theorem witness_DecodeWithoutBitsCompletes_empty : { ready with tree := .empty, hdrInDone := true }.Ready ∧
    { ready with tree := .empty, hdrInDone := true }.hdrInDone = true ∧
    { ready with tree := .empty, hdrInDone := true }.tree = .empty ∧ 1 ≤ ready.host.grant :=
  ⟨⟨rfl, rfl⟩, rfl, rfl, by decide⟩
theorem witness_DecodeWithoutBitsCompletes_leaf : { ready with tree := .leaf 1#8, hdrInDone := true, arg := 4#32 }.Ready ∧
    { ready with tree := .leaf 1#8, hdrInDone := true, arg := 4#32 }.Served ∧
    { ready with tree := .leaf 1#8, hdrInDone := true, arg := 4#32 }.tree = .leaf 1#8 ∧
    countSteps (4#32).toNat ≤ ready.host.grant := ⟨⟨rfl, rfl⟩, rfl, rfl, by decide⟩
/-- V-D2: `0110` is `ab`. -/
theorem witness_DecodeFullCompletes : { decoding with env.bitsIn := (bits [0, 1, 1, 0]).map bitAnswer }.Ready ∧
    { decoding with env.bitsIn := (bits [0, 1, 1, 0]).map bitAnswer }.Served ∧ decoding.tree = treeT4 ∧
    decoding.hdrInDone = true ∧
    (∀ c ∈ [(chr 'a', [false]), (chr 'b', [true, true, false])],
      (storeRoot treeT4).bind (fun r => treeAt r c.2) = some (.leaf c.1)) ∧
    { decoding with env.bitsIn := (bits [0, 1, 1, 0]).map bitAnswer }.env.bitsLeft =
      ([(chr 'a', [false]), (chr 'b', [true, true, false])].flatMap (·.2)).map bitAnswer ++ [] ∧
    decodeSteps 4 2 ≤ decoding.host.grant := ⟨⟨rfl, rfl⟩, rfl, rfl, rfl, by decide, by decide, by decide⟩
theorem witness_DecodeFullCompletes_listedEnd : endsBits [0b11#2, 0b00#2] (.endless 0) :=
  ⟨fun r h => (by cases h; decide), fun h => (nomatch h)⟩
theorem witness_DecodeFullCompletes_noneLeft : endsBits [] .ends := ⟨fun _ h => (nomatch h), fun _ => rfl⟩
theorem witness_EndWithinCodeFaults_within :
    { holds (.decBit (.value 0b11#2)) with run.decPos := some [true] }.run.phase = .answered (.decBit (.value 0b11#2)) ∧
    { holds (.decBit (.value 0b11#2)) with run.decPos := some [true] }.run.decPos = some [true] ∧
    0b11#2 ≠ 0b00#2 ∧ 0b11#2 ≠ 0b01#2 ∧ [true] ≠ ([] : List Bit) := by decide
theorem witness_EndWithinCodeFaults_root :
    { holds (.decBit (.value 0b10#2)) with run.decPos := some [] }.run.phase = .answered (.decBit (.value 0b10#2)) ∧
    { holds (.decBit (.value 0b10#2)) with run.decPos := some [] }.run.decPos = some [] ∧
    { holds (.decBit (.value 0b10#2)) with run.decPos := some [] }.run.todo = [] ∧
    0b10#2 ≠ 0b00#2 ∧ 0b10#2 ≠ 0b01#2 := by decide
theorem witness_CompressCompletes : compressing.Ready ∧ compressing.Served ∧
    compressing.env.inEnding = .ends ∧ compressing.env.inCursor = 0 ∧
    compressing.env.inLater = [] ∧ (∀ b, compressing.env.inBytes.count b < 2 ^ 32) ∧
    countSteps compressing.env.inBytes.length +
      encodeSteps (mapOf (builtStore (countTable compressing.env.inBytes))).1 compressing.env.inBytes + 3 ≤
      compressing.host.grant := by
  refine ⟨⟨rfl, rfl⟩, rfl, rfl, rfl, rfl, fun _ => Nat.lt_of_le_of_lt List.count_le_length ?_, ?_⟩
  · show (text abracadabra).length < 2 ^ 32
    decide
  · simp only [compressing, source]
    exact Nat.le_refl _
theorem witness_DecompressCompletes_empty : ready.Ready ∧ ready.Served ∧ parse ready.env.hdrIn = .ok .empty ∧
    3 ≤ ready.host.grant := ⟨ready_accepts, rfl, by decide, by decide⟩
theorem witness_DecompressCompletes_leaf : { ready with env.hdrIn := [dotByte, 1#8], arg := 4#32 }.Ready ∧
    { ready with env.hdrIn := [dotByte, 1#8], arg := 4#32 }.Served ∧ parse [dotByte, 1#8] = .ok (.leaf 1#8) ∧
    countSteps (4#32).toNat + 3 ≤ ready.host.grant := ⟨⟨rfl, rfl⟩, rfl, by decide, by decide⟩
theorem witness_DecompressCompletes_full :
    { ready with env.hdrIn := headerT4, env.bitsIn := (bits [0, 1, 1, 0]).map bitAnswer }.Ready ∧
    { ready with env.hdrIn := headerT4, env.bitsIn := (bits [0, 1, 1, 0]).map bitAnswer }.Served ∧
    parse headerT4 = .ok treeT4 ∧
    { ready with env.hdrIn := headerT4, env.bitsIn := (bits [0, 1, 1, 0]).map bitAnswer }.env.bitsLeft =
      ([(chr 'a', [false]), (chr 'b', [true, true, false])].flatMap (·.2)).map bitAnswer ++ [] ∧
    decodeSteps 4 2 + 3 ≤ ready.host.grant := ⟨⟨rfl, rfl⟩, rfl, by decide, by decide, by decide⟩
theorem witness_CompressDecompressRoundTrip : (source abracadabra).Ready ∧ (source abracadabra).Served ∧
    (source abracadabra).env.inEnding = .ends ∧ (source abracadabra).env.inCursor = 0 ∧
    (source abracadabra).env.inLater = [] ∧ (source abracadabra).env.bitsOut = [] ∧ (∀ b, (source abracadabra).env.inBytes.count b < 2 ^ 32) ∧ ready.Ready ∧
    ready.Served ∧ ready.env.outBytes = [] :=
  ⟨⟨rfl, rfl⟩, rfl, rfl, rfl, rfl, rfl, fun _ => Nat.lt_of_le_of_lt List.count_le_length (by decide), ready_accepts,
    rfl, rfl⟩
theorem witness_FailedRequestFaults : (waits .decBit (.failed true)).run.phase = .asking .decBit ∧
    (waits .decBit (.failed true)).env.draws = .failed true :: [] := by decide
theorem witness_UnansweredRequestWaits : (waits .hdrRead .unanswered).run.phase = .asking .hdrRead ∧
    (waits .hdrRead .unanswered).env.draws = .unanswered :: [] := by decide
/-- A state whose byte source and bit source never end. -/
def unending : State :=
  { holding treeT4 ready with
    mapValid := true, hdrOutDone := true, hdrInDone := true
    map := Vector.replicate 256 { present := true, code := [true] }
    env := {
      Env.initial with
        inBytes := [1#8], inEnding := .endless 3, hdrIn := headerT4, bitsIn := [0b01#2], bitsEnding := .endless 5 } }
theorem witness_UnendingSourceNeverCompletes_bytes : unending.Ready ∧ unending.env.inEnding = .endless 3 ∧
    unending.Served ∧ unending.mapValid = true ∧ unending.hdrOutDone = true ∧
    (∀ b, (symGet unending.map b).present = true) ∧ unending.host.grant < 2 ^ 32 ∧
    exec (.encode 0#8) unending = .next (goesTo (exec (.encode 0#8) unending)) :=
  ⟨⟨rfl, rfl⟩, rfl, rfl, rfl, rfl, fun b => by simp [unending], by decide, rfl⟩
theorem witness_UnendingSourceNeverCompletes_bits : unending.Ready ∧ unending.env.bitsEnding = .endless 5 ∧
    (∀ r ∈ unending.env.bitsLeft, r = 0b00#2 ∨ r = 0b01#2) ∧ storeState unending.tree = .full ∧ unending.Served ∧
    unending.hdrInDone = true ∧ unending.host.grant < 2 ^ 64 ∧
    exec (.decode 0#8) unending = .next (goesTo (exec (.decode 0#8) unending)) :=
  ⟨⟨rfl, rfl⟩, rfl, by decide, rfl, rfl, rfl, by decide, rfl⟩
theorem witness_UnendingSourceNeverCompletes_sequences : parse unending.env.hdrIn = .ok treeT4 ∧
    exec (.compress 0#8) unending = .next (goesTo (exec (.compress 0#8) unending)) ∧
    exec (.decompress 0#8) unending = .next (goesTo (exec (.decompress 0#8) unending)) := ⟨by decide, rfl, rfl⟩
theorem witness_FrameOfPortlessCommands : ready.status.busy = false ∧ ready.status.fault = false ∧
    exec (.treeBuild 0#8) ready = .next (goesTo (exec (.treeBuild 0#8) ready)) ∧
    Instr.treeBuild 0#8 ∉ [Instr.softReset 0#8, .clearFault 0#8] := ⟨rfl, rfl, rfl, by decide⟩
theorem witness_FrameOfPortCommands : (source abracadabra).status.busy = false ∧ (source abracadabra).status.fault = false ∧
    exec (.compress 0#8) (source abracadabra) = .next (goesTo (exec (.compress 0#8) (source abracadabra))) :=
  ⟨rfl, rfl, rfl⟩
theorem witness_StepKeepsStatusInvariant : counting.StatusInv ∧ step counting = .next (goesTo (step counting)) :=
  ⟨⟨by decide, by decide, by decide, by decide, by decide, by decide, by decide, by decide⟩, rfl⟩
theorem witness_StepKeepsTreeInvariant : (holding treeT4 ready).TreeInv ∧
    step (holding treeT4 ready) = .next (holding treeT4 ready) := ⟨⟨rfl, rfl, by decide⟩, rfl⟩
theorem witness_StepKeepsMapInvariant : encoding.MapInv ∧ step encoding = .next encoding :=
  ⟨fun _ => ⟨by decide, Prod.ext rfl (by decide +kernel)⟩, rfl⟩
/-- A state in which DECODE waits for a bit within a code. -/
def descending : State :=
  { decoding with status.busy := true, run := { Run.idle with phase := .asking .decBit, decPos := some [true] } }
theorem witness_AbsentBranchUnreachable : descending.DecodeInv ∧ step descending = .next (goesTo (step descending)) ∧
    descending.status.faultCode ≠ 0x08#8 :=
  ⟨⟨rfl, .node (.leaf (chr 'c')) (.leaf (chr 'd')), .node (.leaf (chr 'b')) (.leaf (chr 'r')), rfl⟩, rfl, by decide⟩
theorem witness_EndedCommandIsDoneOrFaulted : ready.Ready ∧
    exec (.encode 0#8) ready = .next (goesTo (exec (.encode 0#8) ready)) ∧
    (goesTo (exec (.encode 0#8) ready)).status.busy = false := ⟨ready_accepts, rfl, by decide +kernel⟩

/-! ## The longest evaluations -/

theorem witness_BuiltTreeHoldsPresentSymbols_root : storeRoot (builtStore freqF1) = storeRoot treeT4 := by decide +kernel

/-- V-T4. -/
theorem test_treeBuild : (goesTo (exec (.treeBuild 0#8) { ready with freq := freqF1 })).tree = treeT4 ∧
    treeInfoWord (goesTo (exec (.treeBuild 0#8) { ready with freq := freqF1 })) = 0x00050009#32 := by decide +kernel
/-- V-S1. -/
theorem test_compress : (goesTo (exec (.compress 0#8) (source abracadabra))).env.bitsOut = payloadE1 ∧
    statusWord (goesTo (exec (.compress 0#8) (source abracadabra))) = 0x000000F2#32 := by decide +kernel

end Sys2Proof.Tests
end

section
/-! PROOFS. The bounds of 00_scope.md: the length of a header (R15), the size of a built or parsed tree (R13), and
TREEINFO with the tree's size as an invariant of the machine (R38, R46). -/

namespace Sys2Proof.Machine

/-! ## The length of a header (R15, R130) -/

/-- A leaf's two bytes are its marker and its symbol, an inner node's two are its parentheses. -/
theorem ser_length (t : Tree) : (ser t).length = 2 * treeSize t := by
  induction t with
  | leaf s => rfl
  | node z o hz ho =>
    simp only [ser, treeSize, List.length_cons, List.length_append, List.length_nil, hz, ho]
    omega

/-- Settles O30: `ser_length` bounds the header of a tree of at most NODE_CAP nodes by 2 * 511 bytes. -/
theorem headerLength : Obligations.HeaderLength := by
  intro t
  have hlen := ser_length t
  refine ⟨hlen, fun hfits => ?_⟩
  unfold Config.nodeCap at hfits
  unfold Config.hdrMax
  omega

/-! ## The shape of a tree by its leaves -/

theorem eq_leaf_of_treeLeaves_eq {r : Tree} {b : Symbol} (h : treeLeaves r = [b]) : r = .leaf b := by
  cases r with
  | leaf s => rw [List.singleton_inj.1 h]
  | node z o =>
    have hlen := congrArg List.length h
    have hz := treeLeaves_length_pos z
    have ho := treeLeaves_length_pos o
    simp only [treeLeaves, List.length_append, List.length_singleton] at hlen
    omega

theorem eq_node_of_two_leaves {r : Tree} (h : 2 ≤ (treeLeaves r).length) : ∃ z o, r = .node z o := by
  cases r with
  | leaf s => simp [treeLeaves] at h
  | node z o => exact ⟨z, o, rfl⟩

/-! ## The built tree (R194, R200) -/

/-- The built store is EMPTY where no symbol is present, else a tree whose leaves are the present symbols. -/
theorem builtStore_cases (freq : Vector Count 256) :
    (presentSymbols freq = [] ∧ builtStore freq = .empty) ∨
      ∃ r, builtStore freq = storeTree r ∧ (treeLeaves r).Perm (presentSymbols freq) := by
  rcases mergedForest_store freq with ⟨hnone, -, hempty, -⟩ | ⟨e, -, -, hstore, hperm, -⟩
  · exact .inl ⟨hnone, hempty⟩
  · exact .inr ⟨e.tree, hstore, hperm⟩

/-- A tree whose leaves are the present symbols has a node for each and one fewer that join them, and fits the store. -/
theorem treeSize_of_perm_presentSymbols {r : Tree} {freq : Vector Count 256}
    (h : (treeLeaves r).Perm (presentSymbols freq)) :
    treeSize r = 2 * (presentSymbols freq).length - 1 ∧ treeSize r ≤ 511 := by
  have hsize := treeSize_leaves r
  have hmost := presentSymbols_length freq
  rw [h.length_eq] at hsize
  omega

/-- Settles O29: the merges keep the leaves, so the number of present symbols fixes both shape and size. -/
theorem builtTreeHoldsPresentSymbols : Obligations.BuiltTreeHoldsPresentSymbols := by
  intro freq
  rcases builtStore_cases freq with ⟨hnone, hempty⟩ | ⟨r, hstore, hperm⟩
  · simp [hnone, hempty, storeRoot]
  · rw [hstore]
    refine ⟨fun hnone => ?_, fun b hone => ?_, fun htwo => ?_, fun r' hroot => ?_⟩
    · have hpos := treeLeaves_length_pos r
      rw [hperm.length_eq, hnone] at hpos
      exact absurd hpos (Nat.lt_irrefl 0)
    · rw [hone] at hperm
      rw [eq_leaf_of_treeLeaves_eq (List.perm_singleton.1 hperm)]
      rfl
    · obtain ⟨z, o, rfl⟩ := eq_node_of_two_leaves (hperm.length_eq.symm ▸ htwo)
      exact ⟨z, o, rfl⟩
    · obtain rfl : r = r' := by simpa using hroot
      exact ⟨hperm, treeSize_of_perm_presentSymbols hperm⟩

/-! ## The stores a command writes fit (R13) -/

theorem storeNodes_builtStore_le (freq : Vector Count 256) : storeNodes (builtStore freq) ≤ Config.nodeCap := by
  rcases builtStore_cases freq with ⟨-, hempty⟩ | ⟨r, hstore, hperm⟩
  · rw [hempty]
    exact Nat.zero_le _
  · rw [hstore, storeNodes_storeTree]
    exact (treeSize_of_perm_presentSymbols hperm).2

/-- The parser's node counter starts at 0 and stops at NODE_CAP (R233). -/
theorem storeNodes_le_of_parse_ok {h : List Byte} {t : TreeStore} (hp : parse h = .ok t) :
    storeNodes t ≤ Config.nodeCap := by
  unfold parse at hp
  split at hp
  · cases hp
    exact Nat.zero_le _
  · split at hp
    · cases hp
    · next r hr =>
      obtain ⟨-, -, hcount, hcap⟩ := parseNode_sound hr
      split at hp
      · cases hp
        rw [storeNodes_storeTree]
        omega
      · cases hp

/-! ## TREEINFO is the tree's size (R38, R46) -/

/-- The invariant speaks of TREE and TREEINFO only. -/
theorem State.TreeInv.of_samePart {s t : State} (hs : s.TreeInv) (h : samePart .tree s t) : t.TreeInv := by
  obtain ⟨htree, hnodes, hleaves⟩ := h
  exact ⟨by rw [hnodes, htree, hs.nodes], by rw [hleaves, htree, hs.leaves], htree ▸ hs.fits⟩

theorem State.TreeInv.of_framedBy {ps : List Part} {s t : State} (hs : s.TreeInv) (h : FramedBy ps s t)
    (hps : .tree ∉ ps) : t.TreeInv :=
  hs.of_samePart (h.1 .tree hps)

/-- Writing a tree that fits the store, with its RESULT, makes the invariant hold, whatever held before. -/
theorem State.treeInv_setTree_setResult (s : State) (v : Count64) {t : TreeStore}
    (h : storeNodes t ≤ Config.nodeCap) : ((s.setTree t).setResult v).TreeInv :=
  ⟨rfl, rfl, h⟩

theorem State.treeInv_resetBlock (s : State) : s.resetBlock.TreeInv :=
  ⟨rfl, rfl, Nat.zero_le _⟩

theorem State.treeInv_hardReset (s : State) : s.hardReset.TreeInv := by
  unfold State.hardReset
  split
  · exact s.treeInv_resetBlock.of_samePart ⟨rfl, rfl, rfl⟩
  · exact s.treeInv_resetBlock

/-- Every end of a flow meets the tree invariant. -/
def Flow.KeepsTree (f : Flow) : Prop :=
  f.All (fun _ t => t.TreeInv) State.TreeInv (fun _ _ t => t.TreeInv)

/-- Asking a request and taking a fault write no tree. -/
theorem Flow.KeepsTree.settled {f : Flow} (h : f.KeepsTree) :
    f.All (fun w t => (t.setAsking w).TreeInv) State.TreeInv (fun n d t => (t.raise n d).TreeInv) :=
  Flow.All.imp h (fun w t ht => ht.of_framedBy (framedBy_setAsking [] t w) List.not_mem_nil) (fun _ ht => ht)
    (fun n d t ht => ht.of_framedBy (framedBy_raise [] t n d) List.not_mem_nil)

/-- A body that may not write the tree keeps the invariant. -/
theorem Flow.Within.keepsTree {b : Body} {s : State} {f : Flow} (h : f.Within b s) (hb : .tree ∉ bodyParts b)
    (hs : s.TreeInv) : f.KeepsTree :=
  Flow.All.imp h (fun _ _ ht => hs.of_framedBy ht.2.1 hb) (fun _ ht => hs.of_framedBy ht.1 hb)
    (fun _ _ _ ht => hs.of_framedBy ht.1 hb)

/-- The three bodies that may write the tree: a reset to NONE, a built tree, a parsed tree. -/
theorem tree_mem_bodyParts_iff (b : Body) :
    .tree ∈ bodyParts b ↔ b = .softReset ∨ b = .treeBuild ∨ b = .hdrRecreate := by
  cases b <;> simp [bodyParts]

theorem bodyTreeBuild_keepsTree (s : State) : (bodyTreeBuild s).KeepsTree := by
  obtain ⟨f, w, -, hbody⟩ := bodyTreeBuild_eq s
  rw [hbody]
  exact State.treeInv_setTree_setResult _ w (storeNodes_builtStore_le s.freq)

/-- HDR_RECREATE writes no tree before its header is read. -/
theorem bodyHdrRecreate_keepsTree {s : State} (hs : s.TreeInv) : (bodyHdrRecreate s).KeepsTree := by
  unfold bodyHdrRecreate
  split <;> exact hs

theorem startBody_keepsTree (b : Body) {s : State} (hs : s.TreeInv) : (startBody b s).KeepsTree := by
  by_cases hb : .tree ∈ bodyParts b
  · rcases (tree_mem_bodyParts_iff b).1 hb with rfl | rfl | rfl
    · exact s.treeInv_resetBlock
    · exact bodyTreeBuild_keepsTree s
    · exact bodyHdrRecreate_keepsTree hs
  · exact (startBody_within b s).keepsTree hb hs

/-- A header that parses leaves a tree that fits, one that does not leaves none (R235). -/
theorem hdrReadReply_keepsTree (a : Answer (List Byte)) {s : State} (hs : s.TreeInv) :
    (hdrReadReply a s).KeepsTree := by
  unfold hdrReadReply
  split
  · exact hs
  · dsimp only
    split
    · next hp => exact State.treeInv_setTree_setResult _ _ (storeNodes_le_of_parse_ok hp)
    · exact State.treeInv_setTree_setResult _ _ (Nat.zero_le _)

/-- Only the answer to HDR_RECREATE's request can write the tree. -/
theorem resume_keepsTree (r : Reply) {s : State} (hs : s.TreeInv) : (resume r s).KeepsTree := by
  cases r with
  | hdrRead a => exact hdrReadReply_keepsTree a hs
  | _ => exact (resume_within _ s).keepsTree (by simp [replyBody, bodyParts]) hs

theorem seqStep_keeps_treeInv (s : State) (hs : s.TreeInv) : (seqStep s).TreeInv :=
  seqStep_keeps (M := fun _ => State.TreeInv) (fun _ h _ => h)
    (fun _ _ _ _ h _ _ => h.of_samePart ⟨rfl, rfl, rfl⟩)
    (fun _ r h _ => (resume_keepsTree r h).settled)
    (fun b todo t h => (startBody_keepsTree b (s := t.enterBody b todo) (h.of_samePart ⟨rfl, rfl, rfl⟩)).settled)
    (fun _ h => h.of_samePart ⟨rfl, rfl, rfl⟩) s hs

/-- Of the host's moves only a hardware reset writes the tree. -/
theorem Moved.keeps_treeInv {s u : State} (h : Moved s u) (hs : s.TreeInv) : u.TreeInv := by
  cases h with
  | reset => exact s.treeInv_hardReset
  | _ => exact hs.of_samePart ⟨rfl, rfl, rfl⟩

/-- Settles O57: the host's moves keep the invariant, and so does every step of the sequencer. -/
theorem stepKeepsTreeInvariant : Obligations.StepKeepsTreeInvariant := fun _ _ hs hst =>
  step_keeps (fun _ _ h => h.of_samePart ⟨rfl, rfl, rfl⟩) (fun _ _ h hm => hm.keeps_treeInv h)
    (fun s h _ => seqStep_keeps_treeInv s h) hs hst

end Sys2Proof.Machine
end

section
/-! PROOFS. The block's state (10_state.md): what its registers read as and take, what reset leaves, what an ARG write
reaches, and the invariants of STATUS, of MAP_VALID and of FREQ_COUNT's counters. -/

namespace Sys2Proof.Machine

/-! ## The fields of the registers (R34, R37, R38) -/

/-- The last piece of a word put together by append, whole. -/
theorem extract_append_last {m n : Nat} (hi : BitVec m) (x : BitVec n) : (hi ++ x).extractLsb' 0 n = x := by
  rw [extract_append_low _ _ 0 n (by omega), BitVec.extractLsb'_eq_self]

/-- STATUS's flags at their places. -/
theorem statusWord_flags (s : State) :
    (statusWord s).getLsbD 0 = s.status.busy ∧ (statusWord s).getLsbD 1 = s.status.done ∧
    (statusWord s).getLsbD 2 = s.status.fault ∧ (statusWord s).getLsbD 3 = s.status.dropped ∧
    (statusWord s).getLsbD 6 = s.mapValid ∧ (statusWord s).getLsbD 7 = s.hdrOutDone ∧
    (statusWord s).getLsbD 8 = s.hdrInDone := by
  simp only [statusWord, BitVec.getLsbD_cast, BitVec.getLsbD_append]
  simp

/-- STATUS's wider fields: each stands as the last piece once the pieces below it are skipped. -/
theorem statusWord_fields (s : State) :
    (statusWord s).extractLsb' 4 2 = tstateCode (storeState s.tree) ∧ (statusWord s).extractLsb' 9 7 = 0#7 ∧
    (statusWord s).extractLsb' 16 8 = s.status.faultCode ∧ (statusWord s).extractLsb' 24 8 = s.status.faultDetail := by
  simp only [statusWord, BitVec.extractLsb'_cast]
  refine ⟨?_, ?_, ?_, ?_⟩
  · iterate 4 rw [extract_append_high _ _ _ _ (by decide)]
    exact extract_append_last _ _
  · iterate 8 rw [extract_append_high _ _ _ _ (by decide)]
    exact extract_append_last _ _
  · iterate 9 rw [extract_append_high _ _ _ _ (by decide)]
    exact extract_append_last _ _
  · iterate 10 rw [extract_append_high _ _ _ _ (by decide)]
    exact BitVec.extractLsb'_eq_self

theorem treeInfoWord_fields (s : State) :
    (treeInfoWord s).extractLsb' 0 10 = s.nNodes ∧ (treeInfoWord s).extractLsb' 10 6 = 0#6 ∧
    (treeInfoWord s).extractLsb' 16 9 = s.nLeaves ∧ (treeInfoWord s).extractLsb' 25 7 = 0#7 := by
  simp only [treeInfoWord, BitVec.extractLsb'_cast]
  refine ⟨?_, ?_, ?_, ?_⟩
  · exact extract_append_last _ _
  · rw [extract_append_high _ _ _ _ (by decide)]
    exact extract_append_last _ _
  · iterate 2 rw [extract_append_high _ _ _ _ (by decide)]
    exact extract_append_last _ _
  · iterate 3 rw [extract_append_high _ _ _ _ (by decide)]
    exact BitVec.extractLsb'_eq_self

theorem faultOpWord_eq (s : State) : faultOpWord s = s.faultOp.zeroExtend 32 :=
  (BitVec.setWidth_eq_append (by decide)).symm

/-! ## Register reads and writes (R32-R39, R48, R85) -/

/-- CMD and the reserved offsets, below the code window and above it, read 0. -/
theorem regValue_reserved (s : State) {off : BitVec 8} (h : off = 0x00#8 ∨ off = 0x0C#8 ∨ 0x40 ≤ off.toNat) :
    regValue s off = 0#32 := by
  rcases h with rfl | rfl | h
  · rfl
  · rfl
  · have hne : ∀ k : Nat, k < 0x40 → off ≠ BitVec.ofNat 8 k := fun k hk he => by
      rw [he, BitVec.toNat_ofNat] at h
      omega
    have hwindow : ¬(0x20#8 ≤ off ∧ off ≤ 0x3C#8) := fun hw => by
      have hle : off.toNat ≤ 0x3C := BitVec.le_def.1 hw.2
      omega
    simp [regValue, hne, hwindow]

/-- The code window's registers stand one word apart from 0x20 on. -/
theorem regValue_code (s : State) {off : BitVec 8} (k : Fin 8) (h : off.toNat = 0x20 + 4 * k.val) :
    regValue s off = s.codeWin[k] := by
  obtain rfl : off = BitVec.ofNat 8 (0x20 + 4 * k.val) := BitVec.eq_of_toNat_eq (by rw [h, BitVec.toNat_ofNat]; omega)
  fin_cases k <;> rfl

/-- An idle block spends none of the steps it is granted. -/
theorem State.granted_idle {s : State} (h : s.status.busy = false) : s.granted = .next s :=
  congrArg Host.Outcome.next (seqRun_idle h _)

/-- While `BUSY = 0` a read notes what the register holds, and does nothing else. -/
theorem step_read_idle {s : State} {off : BitVec 8} {g : Nat} {rest : List HostEvent} (hbusy : s.status.busy = false)
    (hoff : off.extractLsb' 0 2 = 0#2) (hq : s.host.queue = { move := .read 32 off, grant := g } :: rest) :
    step s = .next
      { s with host := { s.host with queue := rest, grant := g, noted := s.host.noted ++ [regValue s off] } } := by
  have hread : hostRead off (s.takeEvent { move := .read 32 off, grant := g } rest) =
      { s with host := { s.host with queue := rest, grant := g, noted := s.host.noted ++ [regValue s off] } } := by
    simp only [hostRead, State.takeEvent_status, hbusy, Bool.false_eq_true, if_false]
    rfl
  rw [step_read hq hoff, hread]
  exact State.granted_idle hbusy

/-- Settles O9: what an idle read notes is STATUS's word. -/
theorem statusReadShowsFields : Obligations.StatusReadShowsFields := by
  intro s g rest hbusy hq
  obtain ⟨h0, h1, h2, h3, h6, h7, h8⟩ := statusWord_flags s
  obtain ⟨hstate, hreserved, hcode, hdetail⟩ := statusWord_fields s
  refine ⟨statusWord s, step_read_idle hbusy (by decide) hq, h0.trans hbusy, h1, h2, h3, ?_, h6, h7, h8, hreserved, hcode,
    hdetail⟩
  rw [hstate]
  cases s.tree <;> rfl

/-- Settles O10: an idle read notes the register's value, offset by offset. -/
theorem registerReadsShowState : Obligations.RegisterReadsShowState := by
  intro s off g rest hbusy hoff hq
  refine ⟨regValue s off, step_read_idle hbusy hoff hq, ?_, ?_, ?_, ?_, ?_, fun k hk => regValue_code s k hk⟩
  · rintro rfl
    rfl
  · rintro rfl
    rfl
  · rintro rfl
    rfl
  · rintro rfl
    exact faultOpWord_eq s
  · rintro rfl
    exact treeInfoWord_fields s

/-- Settles O11: reserved offsets read 0, and of the offsets but CMD's a write changes the register at ARG's only. -/
theorem registerWritesAndReservedReads : Obligations.RegisterWritesAndReservedReads := by
  intro s off g rest hoff
  refine ⟨fun hres hbusy hq => ?_, fun v harg hbusy hq => ?_, fun v hcmd harg hq => ?_⟩
  · rw [step_read_idle hbusy hoff hq, regValue_reserved s hres]
  · subst harg
    rw [step_write hq hoff]
    exact State.granted_idle hbusy
  · rw [step_write hq hoff, regWrite, if_neg hcmd, hostWrite, if_neg harg]
    rfl

/-! ## MAP_READ (R48, R256) -/

/-- MAP_READ's body under a valid map: RESULT and the code window take the entry of the symbol operand. -/
theorem run_mapRead (todo : List Body) {s : State} (hvalid : s.mapValid = true) : ∃ r, runBodies (.mapRead :: todo) s =
    runBodies todo
      { s with
        cur.prim := 0x41#8
        codeWin := codeWindow (symGet s.map s.cur.sym).code
        result := mapReadResult (symGet s.map s.cur.sym)
        run := r } := by
  refine ⟨{ s.run with todo := todo }, ?_⟩
  simp only [runBodies, startBody, bodyMapRead, State.enterBody_mapValid, hvalid, if_true]
  rfl

theorem codeWindow_bit (code : List Bit) (k : Fin 8) (j : Fin 32) :
    (codeWindow code)[k].getLsbD j.val = code.getD (32 * k.val + j.val) false := by
  simp only [codeWindow, Fin.getElem_fin, Vector.getElem_ofFn]
  exact windowWord_bit code k.val j.val j.isLt

/-- Settles O40: MAP_READ's body makes no request, so the command ends with the step that runs it. -/
theorem mapReadCompletes : Obligations.MapReadCompletes := by
  intro sym s hready hgrant hvalid
  obtain ⟨r, hrun⟩ := run_mapRead [] (s := s.accept (encode (.mapRead sym)) [.mapRead]) hvalid
  have hsym : (s.accept (encode (.mapRead sym)) [.mapRead]).cur.sym = sym := wordSym_commandWord _ _
  rw [hsym] at hrun
  refine ⟨_, command_portless (State.drops_of_ready hready _) hgrant hrun rfl, rfl, codeWindow_bit _, rfl⟩

/-! ## A CMD write's step and reset (R33, R70, R150, R360) -/

/-- Settles O4: a write to CMD presents its word, and a word that decodes to a command is presented as its exec. -/
theorem stepRunsDecodedCommand : Obligations.StepRunsDecodedCommand := by
  intro s w i g rest hq hdecode
  rw [step_write hq (by decide)]
  show presentWord w _ = _
  unfold presentWord
  rw [hdecode]
  rfl

/-- Settles O14, field by field. -/
theorem resetValues : Obligations.ResetValues := by
  refine ⟨rfl, rfl, rfl, fun b => symGet_replicate _ b, rfl, rfl, fun b => symGet_replicate _ b, rfl, rfl, rfl, rfl, rfl,
    fun k => ?_, rfl, rfl, rfl, rfl, rfl, rfl, rfl⟩
  simp [State.reset]

theorem Env.abandon_unanswered {e : Env} {ds : List Draw} (h : e.draws = .unanswered :: ds) :
    e.abandon = { e with draws := ds } := by
  unfold Env.abandon
  rw [h]

theorem Env.abandon_of_ne {e : Env} (h : ∀ ds, e.draws ≠ .unanswered :: ds) : e.abandon = e := by
  unfold Env.abandon
  split
  · next ds hds => exact absurd hds (h ds)
  · rfl

/-- Hardware reset sets the block whatever it was doing; only the ports' draws can tell a request that stood. -/
theorem State.hardReset_cases (s : State) :
    ∃ e, s.hardReset = { State.reset with env := e, host := s.host } ∧
      (e = s.env.abandon ∧ (∃ w, s.run.phase = .asking w) ∨ e = s.env ∧ ∀ w, s.run.phase ≠ .asking w) := by
  unfold State.hardReset
  cases hp : s.run.phase with
  | asking w => exact ⟨_, rfl, .inl ⟨rfl, w, rfl⟩⟩
  | _ => exact ⟨_, rfl, .inr ⟨rfl, fun w hw => nomatch hw⟩⟩

/-- Settles O15: a reset block is idle and spends none of the steps it is granted. -/
theorem hardResetAbandonsCommand : Obligations.HardResetAbandonsCommand := by
  intro s g rest hq
  obtain ⟨e, hreset, henv⟩ := State.hardReset_cases (s.takeEvent { move := .hardReset, grant := g } rest)
  have hstep : step s = (s.takeEvent { move := .hardReset, grant := g } rest).hardReset.granted := step_event hq
  rw [hreset] at hstep
  refine ⟨e, hstep.trans (State.granted_idle rfl), fun w ds hp hds => ?_, fun hne => ?_⟩
  · rcases henv with ⟨rfl, -⟩ | ⟨-, hnot⟩
    · exact Env.abandon_unanswered hds
    · exact absurd hp (hnot w)
  · rcases henv with ⟨rfl, w, hp⟩ | ⟨rfl, -⟩
    · exact Env.abandon_of_ne fun ds => hne w ds hp
    · rfl

/-! ## ARG and the running command (R35, R371) -/

/-- ARG replaced. -/
def State.withArg (s : State) (v : Word32) : State := { s with arg := v }

@[simp] theorem State.withArg_freq (s : State) (v : Word32) : (s.withArg v).freq = s.freq := rfl
@[simp] theorem State.withArg_tree (s : State) (v : Word32) : (s.withArg v).tree = s.tree := rfl
@[simp] theorem State.withArg_run (s : State) (v : Word32) : (s.withArg v).run = s.run := rfl
@[simp] theorem State.withArg_env (s : State) (v : Word32) : (s.withArg v).env = s.env := rfl

/-- A flow that ends in the same way, with ARG replaced in its state. -/
def Flow.withArg (v : Word32) : Flow → Flow
  | .ask w s => .ask w (s.withArg v)
  | .done s => .done (s.withArg v)
  | .raise name detail s => .raise name detail (s.withArg v)

/-- A test that does not read ARG goes the same way. -/
theorem Flow.ite_withArg {p : Prop} {i j : Decidable p} {f f' g g' : Flow} {v : Word32} (hf : f' = f.withArg v)
    (hg : g' = g.withArg v) : @ite Flow p i f' g' = (@ite Flow p j f g).withArg v := by
  by_cases hp : p
  · rw [if_pos hp, if_pos hp, hf]
  · rw [if_neg hp, if_neg hp, hg]

theorem encodeBits_withArg (code : List Bit) (s : State) (v : Word32) :
    encodeBits code (s.withArg v) = (encodeBits code s).withArg v := by
  cases code <;> rfl

theorem leafLoop_withArg (sym : Symbol) (s : State) (v : Word32) :
    leafLoop sym (s.withArg v) = (leafLoop sym s).withArg v :=
  Flow.ite_withArg rfl rfl

theorem descend_withArg (x : Bit) (s : State) (v : Word32) : descend x (s.withArg v) = (descend x s).withArg v := by
  simp only [descend, State.subtree, State.decPath, State.withArg_tree, State.withArg_run]
  split
  · rfl
  · rfl
  · exact Flow.ite_withArg rfl rfl

/-- Every body but SOFT_RESET's does the same whatever ARG is, and leaves ARG as it is. -/
theorem startBody_withArg {b : Body} (hb : b ≠ .softReset) (s : State) (v : Word32) :
    startBody b (s.withArg v) = (startBody b s).withArg v := by
  cases b with
  | softReset => exact absurd rfl hb
  | treeBuild =>
    simp only [startBody, bodyTreeBuild, State.setForest_run, State.withArg_freq]
    split <;> rfl
  | hdrFlatten => exact Flow.ite_withArg rfl (Flow.ite_withArg rfl rfl)
  | hdrRecreate => exact Flow.ite_withArg rfl rfl
  | mapBuild =>
    refine Flow.ite_withArg rfl ?_
    simp only [State.withArg_tree]
    split <;> rfl
  | mapRead => exact Flow.ite_withArg rfl rfl
  | encode => exact Flow.ite_withArg (Flow.ite_withArg rfl rfl) rfl
  | decode =>
    simp only [startBody, bodyDecode, State.withArg_tree]
    split
    · rfl
    · exact Flow.ite_withArg rfl rfl
    · exact Flow.ite_withArg (leafLoop_withArg _ (s.setCount 0#64) v) rfl
    · exact Flow.ite_withArg rfl rfl
  | _ => rfl

/-- What follows a request's answer is the same whatever ARG is, and leaves ARG as it is. -/
theorem resume_withArg (r : Reply) (s : State) (v : Word32) : resume r (s.withArg v) = (resume r s).withArg v := by
  cases r with
  | countByte a =>
    match a with
    | .ioerr => rfl
    | .value .eof => rfl
    | .value (.byte b) => exact Flow.ite_withArg rfl rfl
  | rewind a => cases a <;> rfl
  | hdrWrite h a => cases a <;> rfl
  | hdrRead a =>
    simp only [resume, hdrReadReply]
    split
    · rfl
    · split <;> rfl
  | encByte a =>
    match a with
    | .ioerr => rfl
    | .value .eof => rfl
    | .value (.byte b) => exact Flow.ite_withArg (Flow.ite_withArg rfl (encodeBits_withArg _ s v)) rfl
  | encBit rest a =>
    match a with
    | .ioerr => rfl
    | .value () => exact encodeBits_withArg rest s v
  | leafWrite sym a =>
    match a with
    | .ioerr => rfl
    | .value () => exact leafLoop_withArg sym (s.setCount (s.run.nCount + 1#64)) v
  | decBit a =>
    simp only [resume, decBitReply]
    split
    · rfl
    · split
      · exact descend_withArg _ s v
      · exact Flow.ite_withArg rfl rfl
  | symWrite a => cases a <;> rfl

/-- The bodies of a command do the same whatever ARG is; it keeps its value or is reset. -/
theorem runBodies_withArg (todo : List Body) (s : State) (v : Word32) :
    ∃ x, runBodies todo (s.withArg v) = (runBodies todo s).withArg x := by
  induction todo generalizing s v with
  | nil => exact ⟨v, rfl⟩
  | cons b todo ih =>
    by_cases hb : b = .softReset
    · subst hb
      exact ⟨(runBodies (.softReset :: todo) s).arg, rfl⟩
    · have hstart := startBody_withArg hb (s.enterBody b todo) v
      simp only [runBodies]
      rw [show (s.withArg v).enterBody b todo = (s.enterBody b todo).withArg v from rfl, hstart]
      cases startBody b (s.enterBody b todo) with
      | ask w t => exact ⟨v, rfl⟩
      | done t => exact ih t v
      | raise n d t => exact ⟨v, rfl⟩

theorem settle_withArg (f : Flow) (v : Word32) : ∃ x, settle (f.withArg v) = (settle f).withArg x := by
  cases f with
  | ask w s => exact ⟨v, rfl⟩
  | done s => exact runBodies_withArg s.run.todo s v
  | raise n d s => exact ⟨v, rfl⟩

theorem seqStep_withArg (s : State) (v : Word32) : ∃ x, seqStep (s.withArg v) = (seqStep s).withArg x := by
  simp only [seqStep, State.withArg_run, State.withArg_env]
  split
  · exact ⟨v, rfl⟩
  · exact runBodies_withArg s.run.todo s v
  · split <;> exact ⟨v, rfl⟩
  · rw [resume_withArg]
    exact settle_withArg _ v

theorem seqRun_withArg (n : Nat) (s : State) (v : Word32) : ∃ x, seqRun n (s.withArg v) = (seqRun n s).withArg x := by
  induction n generalizing s v with
  | zero => exact ⟨v, rfl⟩
  | succ n ih =>
    cases hbusy : s.status.busy with
    | false => exact ⟨v, by rw [seqRun_idle hbusy, seqRun_idle (by exact hbusy)]⟩
    | true =>
      obtain ⟨x, hx⟩ := seqStep_withArg s v
      rw [seqRun_busy hbusy, seqRun_busy (by exact hbusy), hx]
      exact ih (seqStep s) x

/-- ARG holds `v`, and SOFT_RESET is not to run. -/
def State.HoldsArg (v : Word32) (s : State) : Prop := s.arg = v ∧ .softReset ∉ s.run.todo

/-- SOFT_RESET's is the one body that may write ARG (R156). -/
theorem arg_mem_bodyParts_iff (b : Body) : .arg ∈ bodyParts b ↔ b = .softReset := by
  cases b <;> simp [bodyParts]

/-- A computation of another body keeps ARG; where it ends CLEAR_FAULT, its frame does not tell what is still to run. -/
theorem Flow.Within.holdsArg {b : Body} {s : State} {f : Flow} {v : Word32} (h : f.Within b s) (hb : b ≠ .softReset)
    (hs : s.HoldsArg v) :
    f.All (fun w t => (t.setAsking w).HoldsArg v) (fun t => t.arg = v ∧ (b ≠ .clearFault → t.HoldsArg v))
      (fun n d t => (t.raise n d).HoldsArg v) := by
  obtain ⟨harg, hreset⟩ := hs
  have keep : ∀ t, FramedBy (bodyParts b) s t → t.arg = v := fun t hframe =>
    Eq.trans (hframe.1 .arg fun hmem => hb ((arg_mem_bodyParts_iff b).1 hmem)) harg
  refine Flow.All.imp h (fun w t ht => ?_) (fun t ht => ?_) (fun n d t ht => ⟨keep t ht.1, List.not_mem_nil⟩)
  · obtain ⟨-, hframe, -, -, -, htodo⟩ := ht
    exact ⟨keep t hframe, by rwa [← htodo] at hreset⟩
  · obtain ⟨hframe, hquiet⟩ := ht
    refine ⟨keep t hframe, fun hclear => ⟨keep t hframe, ?_⟩⟩
    obtain ⟨-, -, -, htodo⟩ := hquiet hb hclear
    rwa [htodo]

/-- The bodies that wait for an answer are none of the two that reset the block or a fault. -/
theorem replyBody_ne (r : Reply) : replyBody r ≠ .softReset ∧ replyBody r ≠ .clearFault := by
  cases r <;> simp [replyBody]

theorem seqStep_keeps_holdsArg {v : Word32} (s : State) (h : s.HoldsArg v) : (seqStep s).HoldsArg v := by
  refine seqStep_keeps (M := fun (todo : List Body) (t : State) => t.arg = v ∧ Body.softReset ∉ todo)
    (fun _ h _ => h) (fun _ _ _ _ h _ _ => h) (fun t r ht _ => ?_) (fun b todo t ht => ?_)
    (fun _ ht => ⟨ht.1, List.not_mem_nil⟩) s h
  · obtain ⟨hreset, hclear⟩ := replyBody_ne r
    exact Flow.All.imp ((resume_within r t).holdsArg hreset ht) (fun _ _ h => h) (fun _ h => h.2 hclear) fun _ _ _ h => h
  · obtain ⟨harg, hreset⟩ := ht
    obtain ⟨hb, htodo⟩ := not_or.1 (mt List.mem_cons.2 hreset)
    exact Flow.All.imp ((startBody_within b (t.enterBody b todo)).holdsArg (Ne.symm hb) ⟨harg, htodo⟩) (fun _ _ h => h)
      (fun _ h => ⟨h.1, htodo⟩) fun _ _ _ h => h

/-- Settles O13: the run after the write is the run without it with another ARG, and only SOFT_RESET writes ARG. -/
theorem argWriteLeavesRunningCommand : Obligations.ArgWriteLeavesRunningCommand := by
  intro s v g rest _ hq
  obtain ⟨x, hx⟩ := seqRun_withArg g (s.takeEvent { move := .write 32 0x08#8 v, grant := g } rest) v
  have hstep : step s = .next (seqRun g ((s.takeEvent { move := .write 32 0x08#8 v, grant := g } rest).withArg v)) :=
    step_write hq (by decide)
  refine ⟨_, _, hstep, rfl, ?_, fun hreset => ?_⟩
  · rw [hx]
    rfl
  · have hstart : ((s.takeEvent { move := .write 32 0x08#8 v, grant := g } rest).withArg v).HoldsArg v := ⟨rfl, hreset⟩
    exact (seqRun_keeps (fun t ht _ => seqStep_keeps_holdsArg t ht) g hstart).1

/-! ## STATUS and the sequencer agree (R34, R150-R153, R320, R340) -/

theorem faultCode_listed (name : FaultName) : faultCode name ≠ 0#8 ∧ faultCode name ≤ 0x0C#8 := by
  cases name <;> decide

/-- Code, detail and FAULTOP stand only with a fault, and a fault only with a listed code (R320, R340). -/
structure State.CodesAgree (s : State) : Prop where
  noFault : s.status.fault = false → s.status.faultCode = 0#8 ∧ s.status.faultDetail = 0#8 ∧ s.faultOp = 0#8
  faulted : s.status.fault = true → s.status.faultCode ≠ 0#8
  codeBound : s.status.faultCode ≤ 0x0C#8

/-- Where all of them are cleared, they agree. -/
theorem State.CodesAgree.of_clear {s : State} (hfault : s.status.fault = false) (hcode : s.status.faultCode = 0#8)
    (hdetail : s.status.faultDetail = 0#8) (hop : s.faultOp = 0#8) : s.CodesAgree where
  noFault _ := ⟨hcode, hdetail, hop⟩
  faulted h := by rw [hfault] at h; cases h
  codeBound := by rw [hcode]; decide

/-- What holds of STATUS while a command runs whose bodies `todo` are still to start. -/
structure State.Running (todo : List Body) (s : State) : Prop where
  busy : todo ≠ [] → s.status.busy = true
  notDone : s.status.done = false
  codes : s.CodesAgree
  passes : s.status.fault = true → todo = [.softReset] ∨ todo = [.clearFault]
  resetAlone : .softReset ∈ todo → todo = [.softReset]

theorem State.StatusInv.codesAgree {s : State} (h : s.StatusInv) : s.CodesAgree := ⟨h.noFault, h.faulted, h.codeBound⟩

theorem State.StatusInv.busy_of_phase {s : State} (h : s.StatusInv) (hp : s.run.phase ≠ .idle) :
    s.status.busy = true := by
  cases hb : s.status.busy with
  | true => rfl
  | false => exact absurd (by rw [h.idleRun hb]; rfl) hp

theorem State.StatusInv.running {s : State} (h : s.StatusInv) (hp : s.run.phase ≠ .idle) : s.Running s.run.todo where
  busy _ := h.busy_of_phase hp
  notDone := Bool.eq_false_iff.2 fun hd => absurd (h.busy_of_phase hp) (by simp [(h.doneClean hd).2])
  codes := h.codesAgree
  passes hf := (h.busyFault (h.busy_of_phase hp) hf).2
  resetAlone := h.resetAlone

/-- A command past its first computation runs under no fault. -/
theorem State.StatusInv.running_noFault {s : State} (h : s.StatusInv) (hidle : s.run.phase ≠ .idle)
    (hbegin : s.run.phase ≠ .begin) : s.Running s.run.todo ∧ s.status.busy = true ∧ s.status.fault = false :=
  have hbusy := h.busy_of_phase hidle
  ⟨h.running hidle, hbusy, Bool.eq_false_iff.2 fun hf => hbegin (h.busyFault hbusy hf).1⟩

/-- At a point of a running command the invariant holds, if a fault stands only before its first computation. -/
theorem State.Running.statusInv {s : State} (h : s.Running s.run.todo) (hbusy : s.status.busy = true)
    (hp : s.run.phase ≠ .idle) (hbegin : s.status.fault = true → s.run.phase = .begin) : s.StatusInv where
  doneClean hd := by rw [h.notDone] at hd; cases hd
  noFault := h.codes.noFault
  faulted := h.codes.faulted
  codeBound := h.codes.codeBound
  idleRun hb := by rw [hbusy] at hb; cases hb
  busyRun _ := hp
  busyFault _ hf := ⟨hbegin hf, h.passes hf⟩
  resetAlone := h.resetAlone

/-- What holds of STATUS while a command runs speaks of STATUS and FAULTOP only. -/
theorem State.Running.congr {todo : List Body} {s t : State} (h : s.Running todo) (hstatus : t.status = s.status)
    (hop : t.faultOp = s.faultOp) : t.Running todo := by
  obtain ⟨hbusy, hdone, ⟨hnone, hfaulted, hbound⟩, hpasses, hreset⟩ := h
  rw [← hop] at hnone
  rw [← hstatus] at *
  exact ⟨hbusy, hdone, ⟨hnone, hfaulted, hbound⟩, hpasses, hreset⟩

/-- What is still to start after a body other than SOFT_RESET, once no fault stands. -/
theorem State.Running.tail {b : Body} {todo : List Body} {s : State} (h : s.Running (b :: todo)) (hb : b ≠ .softReset)
    (hf : s.status.fault = false) : s.Running todo where
  busy _ := h.busy (List.cons_ne_nil _ _)
  notDone := h.notDone
  codes := h.codes
  passes ht := by rw [hf] at ht; cases ht
  resetAlone hm := absurd (List.cons.inj (h.resetAlone (List.mem_cons_of_mem b hm))).1 hb

/-- CLEAR_FAULT's body lets no fault stand (R157). -/
theorem State.Running.clearFault {todo : List Body} {s : State} (h : s.Running todo) : s.clearFault.Running todo where
  busy := h.busy
  notDone := h.notDone
  codes := .of_clear rfl rfl rfl rfl
  passes hf := nomatch hf
  resetAlone := h.resetAlone

/-- Completion ends a command under no fault (R153). -/
theorem State.Running.statusInv_complete {s : State} (h : s.Running []) : s.complete.StatusInv where
  doneClean _ := ⟨Bool.eq_false_iff.2 fun hf => by simpa using h.passes hf, rfl⟩
  noFault := h.codes.noFault
  faulted := h.codes.faulted
  codeBound := h.codes.codeBound
  idleRun _ := rfl
  busyRun hb := nomatch hb
  busyFault hb := nomatch hb
  resetAlone hm := nomatch hm

/-- Taking a fault makes the invariant hold, whatever held before (R340). -/
theorem State.statusInv_raise (s : State) (name : FaultName) (d : FaultByte) : (s.raise name d).StatusInv where
  doneClean h := nomatch h
  noFault h := nomatch h
  faulted _ := (faultCode_listed name).1
  codeBound := (faultCode_listed name).2
  idleRun _ := rfl
  busyRun h := nomatch h
  busyFault h := nomatch h
  resetAlone h := nomatch h

theorem State.statusInv_reset : State.reset.StatusInv where
  doneClean h := nomatch h
  noFault _ := ⟨rfl, rfl, rfl⟩
  faulted h := nomatch h
  codeBound := by decide
  idleRun _ := rfl
  busyRun h := nomatch h
  busyFault h := nomatch h
  resetAlone h := nomatch h

theorem State.statusInv_hardReset (s : State) : s.hardReset.StatusInv := by
  unfold State.hardReset
  split <;> exact { State.statusInv_reset with }

/-- A computation under no fault leaves STATUS alone unless it takes a fault. -/
theorem Flow.Within.keepsStatus {b : Body} {s : State} {f : Flow} (h : f.Within b s) (hreset : b ≠ .softReset)
    (hclear : b ≠ .clearFault) (hs : s.Running s.run.todo) (hbusy : s.status.busy = true)
    (hfault : s.status.fault = false) :
    f.All (fun w t => (t.setAsking w).StatusInv) (fun t => t.run.todo = s.run.todo ∧ t.Running s.run.todo)
      (fun n d t => (t.raise n d).StatusInv) := by
  refine Flow.All.imp h (fun w t ht => ?_) (fun t ht => ?_) (fun n d t _ => t.statusInv_raise n d)
  · obtain ⟨-, -, hstatus, hop, -, htodo⟩ := ht
    have hrun : (t.setAsking w).Running t.run.todo := htodo ▸ hs.congr hstatus hop
    exact hrun.statusInv (by simpa [hstatus] using hbusy) (fun hp => nomatch hp) (by simp [hstatus, hfault])
  · obtain ⟨hstatus, hop, -, htodo⟩ := ht.2 hreset hclear
    exact ⟨htodo, hs.congr hstatus hop⟩

/-- The two bodies that may start while a fault stands clear it, and every other starts under none. -/
theorem startBody_keepsStatus (b : Body) (todo : List Body) (s : State) (hs : s.Running (b :: todo)) :
    (startBody b (s.enterBody b todo)).All (fun w t => (t.setAsking w).StatusInv) (State.Running todo)
      (fun n d t => (t.raise n d).StatusInv) := by
  by_cases hreset : b = .softReset
  · subst hreset
    obtain rfl : todo = [] := (List.cons.inj (hs.resetAlone List.mem_cons_self)).2
    exact State.Running.mk (fun h => absurd rfl h) rfl (.of_clear rfl rfl rfl rfl) (fun hf => nomatch hf)
      (fun hm => nomatch hm)
  by_cases hclear : b = .clearFault
  · subst hclear
    exact (hs.clearFault.tail hreset rfl).congr rfl rfl
  have hfault : s.status.fault = false := Bool.eq_false_iff.2 fun hf => by
    rcases hs.passes hf with h | h
    · exact hreset (List.cons.inj h).1
    · exact hclear (List.cons.inj h).1
  have hrun : (s.enterBody b todo).Running todo := (hs.tail hreset hfault).congr rfl rfl
  exact Flow.All.imp ((startBody_within b _).keepsStatus hreset hclear hrun (hs.busy (List.cons_ne_nil _ _)) hfault)
    (fun _ _ h => h) (fun _ h => h.2) (fun _ _ _ h => h)

theorem seqStep_keeps_statusInv (s : State) (h : s.StatusInv) : (seqStep s).StatusInv := by
  refine seqStep_keeps (M := State.Running) (fun t ht hp => ht.running (by simp [hp])) (fun t w r e ht hp _ => ?_)
    (fun t r ht hp => ?_) startBody_keepsStatus (fun _ ht => ht.statusInv_complete) s h
  · obtain ⟨hrun, hbusy, hfault⟩ := ht.running_noFault (by simp [hp]) (by simp [hp])
    have hreplied : (t.setReply r e).Running t.run.todo := hrun.congr rfl rfl
    exact hreplied.statusInv hbusy (fun hp => nomatch hp) (by simp [hfault])
  · obtain ⟨hrun, hbusy, hfault⟩ := ht.running_noFault (by simp [hp]) (by simp [hp])
    obtain ⟨hreset, hclear⟩ := replyBody_ne r
    exact Flow.All.imp ((resume_within r t).keepsStatus hreset hclear hrun hbusy hfault) (fun _ _ h => h)
      (fun _ h => h.1 ▸ h.2) (fun _ _ _ h => h)

theorem commandBodies_of_passesFault {i : Instr} (h : passesFault (encode i) = true) :
    commandBodies i = [.softReset] ∨ commandBodies i = [.clearFault] := by
  cases i <;> simp [passesFault, encode, Instr.opcode, commandBodies] at h ⊢

theorem softReset_mem_commandBodies {i : Instr} (h : .softReset ∈ commandBodies i) : commandBodies i = [.softReset] := by
  cases i <;> simp [commandBodies] at h ⊢

/-- While a fault stands only the words that pass it are not dropped (R150). -/
theorem passesFault_of_not_drops {s : State} {w : Word32} (hd : s.drops w = false) (hf : s.status.fault = true) :
    passesFault w = true := by
  simp only [State.drops, hf, Bool.true_and, Bool.or_eq_false_iff, Bool.not_eq_false'] at hd
  exact hd.2

/-- An accepted command runs; where a fault stands it is one of the two that may pass it (R150). -/
theorem State.StatusInv.accept {s : State} (h : s.StatusInv) {i : Instr} (hd : s.drops (encode i) = false) :
    (s.accept (encode i) (commandBodies i)).StatusInv := by
  have hrun : (s.accept (encode i) (commandBodies i)).Running (commandBodies i) :=
    { busy := fun _ => rfl
      notDone := rfl
      codes := { h.codesAgree with }
      passes := fun hf => commandBodies_of_passesFault (passesFault_of_not_drops hd hf)
      resetAlone := softReset_mem_commandBodies }
  exact hrun.statusInv rfl (fun hp => nomatch hp) (fun _ => rfl)

theorem Moved.keeps_statusInv {s u : State} (h : Moved s u) (hs : s.StatusInv) : u.StatusInv := by
  cases h with
  | accepted i hd => exact hs.accept hd
  | illegal w d hd => exact State.statusInv_raise _ _ _
  | reset => exact s.statusInv_hardReset
  | _ => exact { hs with }

/-- Settles O56: fault entry and completion make the invariant hold, acceptance and every step between keep it. -/
theorem stepKeepsStatusInvariant : Obligations.StepKeepsStatusInvariant := fun _ _ hs hst =>
  step_keeps (fun _ _ h => { h with }) (fun _ _ h hm => hm.keeps_statusInv h)
    (fun s h _ => seqStep_keeps_statusInv s h) hs hst

/-! ## MAP is the map of the current tree while MAP_VALID is 1 (R51) -/

theorem State.mapInv_of_invalid {s : State} (h : s.mapValid = false) : s.MapInv := fun hv => by
  rw [h] at hv
  cases hv

/-- The invariant speaks of the tree, MAP and MAP_VALID only. -/
theorem State.MapInv.congr {s t : State} (hs : s.MapInv) (htree : t.tree = s.tree) (hmap : t.map = s.map)
    (hvalid : t.mapValid = s.mapValid) : t.MapInv := by
  unfold State.MapInv
  rw [htree, hmap, hvalid]
  exact hs

/-- A body that writes none of the three. -/
def LeavesMap (b : Body) : Prop := .tree ∉ bodyParts b ∧ .map ∉ bodyParts b ∧ .mapValid ∉ bodyParts b

theorem leavesMap_or (b : Body) :
    LeavesMap b ∨ b = .softReset ∨ b = .treeBuild ∨ b = .hdrRecreate ∨ b = .mapBuild := by
  cases b <;> simp [LeavesMap, bodyParts]

/-- Every end of a flow meets the map invariant. -/
def Flow.KeepsMap (f : Flow) : Prop := f.All (fun _ t => t.MapInv) State.MapInv (fun _ _ t => t.MapInv)

/-- Asking a request and taking a fault write none of the three. -/
theorem Flow.KeepsMap.settled {f : Flow} (h : f.KeepsMap) :
    f.All (fun w t => (t.setAsking w).MapInv) State.MapInv (fun n d t => (t.raise n d).MapInv) :=
  Flow.All.imp h (fun _ _ ht => ht.congr rfl rfl rfl) (fun _ ht => ht) (fun _ _ _ ht => ht.congr rfl rfl rfl)

theorem Flow.Within.keepsMap {b : Body} {s : State} {f : Flow} (h : f.Within b s) (hb : LeavesMap b) (hs : s.MapInv) :
    f.KeepsMap := by
  obtain ⟨htree, hmap, hvalid⟩ := hb
  have keep : ∀ t, FramedBy (bodyParts b) s t → t.MapInv := fun t ⟨hsame, _⟩ =>
    hs.congr (hsame .tree htree).1 (hsame .map hmap) (hsame .mapValid hvalid)
  exact Flow.All.imp h (fun _ t ht => keep t ht.2.1) (fun t ht => keep t ht.1) (fun _ _ t ht => keep t ht.1)

/-- MAP_BUILD stores the map of the tree as valid only where the walk met no symbol twice (R252, R253). -/
theorem bodyMapBuild_keepsMap {s : State} (hs : s.MapInv) : (bodyMapBuild s).KeepsMap := by
  unfold bodyMapBuild
  split
  · exact hs
  · next htree =>
    dsimp only
    split
    · exact State.mapInv_of_invalid rfl
    · next hdup => exact fun _ => ⟨htree, Prod.ext rfl hdup⟩

theorem bodyTreeBuild_keepsMap (s : State) : (bodyTreeBuild s).KeepsMap := by
  obtain ⟨f, w, -, hbody⟩ := bodyTreeBuild_eq s
  rw [hbody]
  exact State.mapInv_of_invalid rfl

theorem bodyHdrRecreate_keepsMap {s : State} (hs : s.MapInv) : (bodyHdrRecreate s).KeepsMap := by
  unfold bodyHdrRecreate
  split <;> exact hs

theorem startBody_keepsMap (b : Body) {s : State} (hs : s.MapInv) : (startBody b s).KeepsMap := by
  rcases leavesMap_or b with hb | rfl | rfl | rfl | rfl
  · exact (startBody_within b s).keepsMap hb hs
  · exact State.mapInv_of_invalid (s := s.resetBlock) rfl
  · exact bodyTreeBuild_keepsMap s
  · exact bodyHdrRecreate_keepsMap hs
  · exact bodyMapBuild_keepsMap hs

/-- A header that is read makes the map invalid, whether it parses or not (R235). -/
theorem hdrReadReply_keepsMap (a : Answer (List Byte)) {s : State} (hs : s.MapInv) : (hdrReadReply a s).KeepsMap := by
  unfold hdrReadReply
  split
  · exact hs
  · dsimp only
    split <;> exact State.mapInv_of_invalid rfl

theorem resume_keepsMap (r : Reply) {s : State} (hs : s.MapInv) : (resume r s).KeepsMap := by
  cases r with
  | hdrRead a => exact hdrReadReply_keepsMap a hs
  | _ => exact (resume_within _ s).keepsMap (by simp [LeavesMap, replyBody, bodyParts]) hs

theorem seqStep_keeps_mapInv (s : State) (hs : s.MapInv) : (seqStep s).MapInv :=
  seqStep_keeps (M := fun _ => State.MapInv) (fun _ h _ => h) (fun _ _ _ _ h _ _ => h.congr rfl rfl rfl)
    (fun _ r h _ => (resume_keepsMap r h).settled)
    (fun b todo t h => (startBody_keepsMap b (s := t.enterBody b todo) (h.congr rfl rfl rfl)).settled)
    (fun _ h => h.congr rfl rfl rfl) s hs

theorem State.mapInv_hardReset (s : State) : s.hardReset.MapInv := by
  unfold State.hardReset
  split <;> exact State.mapInv_of_invalid rfl

/-- Of the host's moves only a hardware reset writes one of the three. -/
theorem Moved.keeps_mapInv {s u : State} (h : Moved s u) (hs : s.MapInv) : u.MapInv := by
  cases h with
  | reset => exact s.mapInv_hardReset
  | _ => exact hs.congr rfl rfl rfl

/-- Settles O58: whoever writes the tree clears MAP_VALID, and MAP_BUILD alone sets it, with the tree's map. -/
theorem stepKeepsMapInvariant : Obligations.StepKeepsMapInvariant := fun _ _ hs hst =>
  step_keeps (fun _ _ h => h.congr rfl rfl rfl) (fun _ _ h hm => hm.keeps_mapInv h)
    (fun s h _ => seqStep_keeps_mapInv s h) hs hst

/-! ## The counters sum to the bytes read (R41, R171) -/

/-- The bytes FREQ_COUNT has counted are NCOUNT, while it runs alone. -/
def State.Counting (s : State) : Prop :=
  s.status.busy = true ∧ s.run.todo = [] ∧ freqSum s.freq = s.run.nCount.toNat

/-- The counters sum to RESULT, if the command completed. -/
def State.Counted (s : State) : Prop := s.status.done = true → freqSum s.freq = s.result.toNat

/-- What holds at every point of a lone FREQ_COUNT, from its first ByteRead to its end. -/
def State.CountInv (s : State) : Prop :=
  match s.run.phase with
  | .asking .countByte => s.Counting
  | .answered (.countByte _) => s.Counting
  | .idle => s.Counted
  | _ => False

/-- Counting a byte whose counter is not full adds 1 to the sum. -/
theorem freqSum_count {freq : Vector Count 256} {b : Symbol} (h : symGet freq b ≠ maxCount) :
    freqSum (symSet freq b (symGet freq b + 1#32)) = freqSum freq + 1 := by
  have hsum := freqSum_symSet freq b (symGet freq b + 1#32)
  have hlt : (symGet freq b).toNat + 1 < 2 ^ 32 := by
    have hne : (symGet freq b).toNat ≠ maxCount.toNat := fun he => h (BitVec.eq_of_toNat_eq he)
    have := (symGet freq b).isLt
    simp only [maxCount, BitVec.reduceToNat] at hne
    omega
  have hadd : (symGet freq b + 1#32).toNat = (symGet freq b).toNat + 1 := by
    rw [BitVec.toNat_add, BitVec.toNat_ofNat]
    omega
  omega

theorem countByteReply_keepsCount (a : Answer ByteOrEof) {s : State} (h : s.Counting) :
    (countByteReply a s).All (fun w t => (t.setAsking w).CountInv)
      (fun t => t.run.todo = [] ∧ freqSum t.freq = t.result.toNat) (fun n d t => (t.raise n d).CountInv) := by
  obtain ⟨hbusy, htodo, hsum⟩ := h
  match a with
  | .ioerr => exact fun hd => nomatch hd
  | .value .eof => exact ⟨htodo, hsum⟩
  | .value (.byte b) =>
    simp only [countByteReply]
    split
    · exact fun hd => nomatch hd
    · next hfull =>
      refine ⟨hbusy, htodo, ?_⟩
      have hlt := freqSum_lt s.freq
      have hnext := freqSum_count hfull
      show freqSum (symSet s.freq b (symGet s.freq b + 1#32)) = (s.run.nCount + 1#64).toNat
      rw [BitVec.toNat_add, BitVec.toNat_ofNat]
      omega

theorem State.CountInv.asking {s : State} {w : Wait} (h : s.CountInv) (hp : s.run.phase = .asking w) :
    w = .countByte ∧ s.Counting := by
  unfold State.CountInv at h
  rw [hp] at h
  cases w with
  | countByte => exact ⟨rfl, h⟩
  | _ => exact h.elim

theorem State.CountInv.answered {s : State} {r : Reply} (h : s.CountInv) (hp : s.run.phase = .answered r) :
    ∃ a, r = .countByte a ∧ s.Counting := by
  unfold State.CountInv at h
  rw [hp] at h
  cases r with
  | countByte a => exact ⟨a, rfl, h⟩
  | _ => exact h.elim

theorem State.CountInv.not_begin {s : State} (h : s.CountInv) : s.run.phase ≠ .begin := fun hp => by
  unfold State.CountInv at h
  rw [hp] at h
  exact h

/-- A command that has ended is at no point but the last. -/
theorem State.CountInv.counted {s : State} (h : s.CountInv) (hbusy : s.status.busy = false) : s.Counted := by
  have running : ¬ s.Counting := fun hc => by simp [hc.1] at hbusy
  cases hp : s.run.phase with
  | idle =>
    unfold State.CountInv at h
    rwa [hp] at h
  | begin => exact absurd hp h.not_begin
  | asking w => exact absurd (h.asking hp).2 running
  | answered r =>
    obtain ⟨-, -, hc⟩ := h.answered hp
    exact absurd hc running

theorem seqStep_keeps_countInv (s : State) (h : s.CountInv) : (seqStep s).CountInv := by
  refine seqStep_keeps (M := fun (todo : List Body) (t : State) => todo = [] ∧ freqSum t.freq = t.result.toNat)
    (fun t ht hp => absurd hp ht.not_begin) (fun t w r e ht hp hserve => ?_) (fun t r ht hp => ?_)
    (fun _ _ _ ht => absurd ht.1 (List.cons_ne_nil _ _)) (fun t ht _ => ht.2) s h
  · obtain ⟨rfl, hc⟩ := ht.asking hp
    have hbody := (serve_within hserve).1
    cases r with
    | countByte a => exact hc
    | _ => cases hbody
  · obtain ⟨a, rfl, hc⟩ := ht.answered hp
    exact countByteReply_keepsCount a hc

/-- Settles O23: from FREQ_COUNT's cleared table on, each byte counted adds 1 to the sum and to NCOUNT, RESULT's value. -/
theorem freqCountSumsToResult : Obligations.FreqCountSumsToResult := by
  intro sym s t hready hexec hdone hbusy
  rw [exec_accepted (State.drops_of_ready hready _)] at hexec
  injection hexec with hrun
  subst hrun
  generalize s.host.grant = g at hdone hbusy ⊢
  cases g with
  | zero => cases hbusy
  | succ n =>
    rw [seqRun_accept] at hdone hbusy ⊢
    have hfirst : (runBodies [.freqCount] (s.accept (encode (.freqCount sym)) [.freqCount])).CountInv :=
      ⟨rfl, rfl, freqSum_zeroFreq⟩
    exact (seqRun_keeps (fun t ht _ => seqStep_keeps_countInv t ht) n hfirst).counted hbusy hdone

/-! ## Reset meets the invariants (R70) -/

/-- Settles O55: after reset there is no fault, no command, no tree, no valid map and no DECODE. -/
theorem resetMeetsInvariants : Obligations.ResetMeetsInvariants :=
  ⟨State.statusInv_reset, ⟨rfl, rfl, Nat.zero_le _⟩, State.mapInv_of_invalid rfl, trivial⟩

end Sys2Proof.Machine
end

section
/-! PROOFS. The events of the machine (20_memory.md): register accesses that are refused, commands that end when every
port request is answered, and requests that fail or are never answered. -/

namespace Sys2Proof.Machine

/-! ## Misshapen register accesses (R83) -/

theorem checkedAccess_width {width : Nat} (h : width ≠ 32) (off : BitVec 8) (s : State)
    (access : State → Host.Outcome State Fault Refusal) :
    checkedAccess width off s access = .refused .accessWidth := by
  simp [checkedAccess, widthOk, h]

theorem checkedAccess_misaligned {off : BitVec 8} (h : off.extractLsb' 0 2 ≠ 0#2) (s : State)
    (access : State → Host.Outcome State Fault Refusal) :
    checkedAccess 32 off s access = .refused .accessMisaligned := by
  simp [checkedAccess, widthOk, offsetOk, h]

/-- Settles O8: reads and writes alike pass the check of their shape before anything else. -/
theorem misshapenAccessRefused : Obligations.MisshapenAccessRefused := by
  intro s width off m g rest hm hq
  have haccess : ∃ access, step s = checkedAccess width off (s.takeEvent { move := m, grant := g } rest) access := by
    rw [step_event hq]
    rcases hm with rfl | ⟨v, rfl⟩
    · exact ⟨fun t => (hostRead off t).granted, rfl⟩
    · exact ⟨regWrite off v, rfl⟩
  obtain ⟨access, hstep⟩ := haccess
  refine ⟨fun hwidth => ?_, fun hwidth hoff => ?_⟩
  · rw [hstep, checkedAccess_width hwidth]
  · rw [hstep, hwidth, checkedAccess_misaligned hoff]

/-! ## Commands that run to their end (R153, R380) -/

/-- An accepted command whose bodies end within the steps granted, the first of them being its beginning, completes. -/
theorem exec_completes (i : Instr) {s u : State} {n : Nat} (hready : s.Ready) (hgrant : n + 1 ≤ s.host.grant)
    (hrun : seqRun n (runBodies (commandBodies i) (s.accept (encode i) (commandBodies i))) =
      seqRun 0 (runBodies [] u)) :
    exec i s = .next u.complete := by
  rw [exec_accepted (State.drops_of_ready hready _)]
  exact congrArg Host.Outcome.next (seqRun_of_ended ((seqRun_accept s _ _ n).trans hrun) rfl hgrant)

/-- Settles O25: the one request of IN_REWIND is its whole effect. -/
theorem inRewindCompletes : Obligations.InRewindCompletes := by
  intro sym s hready hserved hgrant
  obtain ⟨r, hrun⟩ := run_inRewind [] (s := s.accept (encode (.inRewind sym)) [.inRewind]) 0 rfl hserved
  refine ⟨s.env.rewindBytes.2, exec_completes (.inRewind sym) hready hgrant hrun, ?_, fun hsame => ?_,
    fun c later hother => ?_⟩
  · unfold Env.rewindBytes
    split <;> rfl
  · simp only [Env.rewindBytes, hsame]
  · simp only [Env.rewindBytes, hother]

/-- A BitRead answer is END exactly when it is neither bit (R134). -/
theorem bitOf_eq_none_iff (r : BitVec 2) : bitOf r = none ↔ r ≠ 0b00#2 ∧ r ≠ 0b01#2 := by
  by_cases h0 : r = 0b00#2
  · simp [bitOf, h0]
  · by_cases h1 : r = 0b01#2 <;> simp [bitOf, h0, h1]

/-- Answers that begin with END give END first. -/
theorem bitOf_of_endsBits {tail : List (BitVec 2)} {ending : Ending} (h : endsBits tail ending) (r : BitVec 2)
    (hr : tail.head? = some r) : bitOf r = none :=
  (bitOf_eq_none_iff r).2 (h.1 r hr)

/-- Settles O45: DECODE's loop over the codes and the END after them, then completion. -/
theorem decodeFullCompletes : Obligations.DecodeFullCompletes := by
  intro sym s z o codes tail hready hserved htree hheader hpaths hcount hbits hend hgrant
  obtain ⟨r, hrun⟩ := run_decodeFull [] (s := s.accept (encode (.decode sym)) [.decode]) 0 rfl hserved htree hheader
    hpaths hbits (bitOf_of_endsBits hend) hend.2 hcount
  have hsteps : 0 + (2 * (codes.flatMap (·.2)).length + 2 * codes.length + 2) + 1 ≤ s.host.grant := by
    unfold decodeSteps countSteps at hgrant
    omega
  exact exec_completes (.decode sym) hready hsteps hrun

/-- What DECOMPRESS has written when its DECODE starts: a fresh session, and the tree its header spells (R302). -/
def State.recreated (s : State) (t : TreeStore) : State :=
  { s with
    cur.prim := 0x31#8
    hdrOutDone := false
    hdrInDone := true
    mapValid := false
    tree := t
    nNodes := BitVec.ofNat 10 (storeNodes t)
    nLeaves := BitVec.ofNat 9 (storeLeaves t)
    result := BitVec.ofNat 64 s.env.hdrIn.length }

/-- DECOMPRESS's first two bodies, whose one request reads the header. -/
theorem run_decompressHeader {s : State} {t : TreeStore} (n : Nat) (hbusy : s.status.busy = true)
    (hserved : s.env.draws = []) (hparse : parse s.env.hdrIn = .ok t) :
    ∃ r, seqRun (n + 2) (runBodies [.session, .hdrRecreate, .decode] s) =
      seqRun n (runBodies [.decode] { s.recreated t with run := r }) := by
  obtain ⟨r1, hsession⟩ := run_session [.hdrRecreate, .decode] s
  rw [hsession]
  exact run_hdrRecreate [.decode] (s := { s with hdrOutDone := false, hdrInDone := false, run := r1 }) n hbusy hserved
    rfl hparse

/-- Settles O48: after the header, DECODE of each of the three trees a header spells. -/
theorem decompressCompletes : Obligations.DecompressCompletes := by
  intro sym s t hready hserved hparse
  generalize ha : s.accept (encode (.decompress sym)) (commandBodies (.decompress sym)) = a
  have header := fun n => run_decompressHeader (s := a) (t := t) n (by subst ha; rfl) (by subst ha; exact hserved)
    (by subst ha; exact hparse)
  refine ⟨fun htree hgrant => ?_, fun b htree hgrant => ?_,
    fun z o codes tail htree hpaths hcount hbits hend hgrant => ?_⟩
  · obtain ⟨r1, hheader⟩ := header 0
    obtain ⟨r2, hdecode⟩ := run_decodeEmpty [] (s := { a.recreated t with run := r1 }) htree rfl
    subst ha
    rw [exec_completes (.decompress sym) (n := 2) hready hgrant (hheader.trans hdecode), List.append_nil]
    rfl
  · obtain ⟨r1, hheader⟩ := header (0 + 2 * s.arg.toNat)
    obtain ⟨r2, hdecode⟩ := run_decodeLeaf [] (s := { a.recreated t with run := r1 }) 0 (by subst ha; rfl)
      (by subst ha; exact hserved) htree rfl
    subst ha
    have hsteps : 0 + 2 * s.arg.toNat + 2 + 1 ≤ s.host.grant := by
      unfold countSteps at hgrant
      omega
    have hresult : BitVec.ofNat 64 s.arg.toNat = s.arg.zeroExtend 64 := BitVec.ofNat_toNat 64 s.arg
    rw [exec_completes (.decompress sym) hready hsteps (hheader.trans hdecode), List.length_replicate, hresult]
    rfl
  · obtain ⟨r1, hheader⟩ := header (0 + (2 * (codes.flatMap (·.2)).length + 2 * codes.length + 2))
    obtain ⟨r2, hdecode⟩ := run_decodeFull [] (s := { a.recreated t with run := r1 }) 0 (by subst ha; rfl)
      (by subst ha; exact hserved) htree rfl hpaths (by subst ha; exact hbits) (bitOf_of_endsBits hend)
      (by subst ha; exact hend.2) hcount
    subst ha
    have hsteps : 0 + (2 * (codes.flatMap (·.2)).length + 2 * codes.length + 2) + 2 + 1 ≤ s.host.grant := by
      unfold decodeSteps countSteps at hgrant
      omega
    rw [exec_completes (.decompress sym) hready hsteps (hheader.trans hdecode), List.length_map, ← Nat.add_assoc]
    rfl

/-! ## Requests that fail and requests that are never answered (R97, R99, R331) -/

/-- What the environment does for a request that it carries out, and the reply (R90-R96). -/
def Wait.work : Wait → Env → Reply × Env
  | .countByte, e => (.countByte (.value e.takeByte.1), e.takeByte.2)
  | .rewind, e => (.rewind (.value ()), e.rewindBytes.2)
  | .hdrWrite h, e => (.hdrWrite h (.value ()), (e.putHeader h).2)
  | .hdrRead, e => (.hdrRead (.value e.takeHeader.1), e.takeHeader.2)
  | .encByte, e => (.encByte (.value e.takeByte.1), e.takeByte.2)
  | .encBit x rest, e => (.encBit rest (.value ()), (e.putBit x).2)
  | .leafWrite sym, e => (.leafWrite sym (.value ()), (e.putByte sym).2)
  | .decBit, e => (.decBit (.value e.takeBit.1), e.takeBit.2)
  | .symWrite sym, e => (.symWrite (.value ()), (e.putByte sym).2)

/-- The reply to a request that fails (R97). -/
def Wait.failedReply : Wait → Reply
  | .countByte => .countByte .ioerr
  | .rewind => .rewind .ioerr
  | .hdrWrite h => .hdrWrite h .ioerr
  | .hdrRead => .hdrRead .ioerr
  | .encByte => .encByte .ioerr
  | .encBit _ rest => .encBit rest .ioerr
  | .leafWrite sym => .leafWrite sym .ioerr
  | .decBit => .decBit .ioerr
  | .symWrite _ => .symWrite .ioerr

/-- The reply of a request that has the answer `a`. -/
def Wait.replyOf (w : Wait) : Answer Reply → Reply
  | .value r => r
  | .ioerr => w.failedReply

/-- Every port request is one request of the environment for the work it names. -/
theorem serve_eq (w : Wait) (e : Env) : serve w e = (e.request w.work).map fun ae => (w.replyOf ae.1, ae.2) := by
  cases w <;> simp only [serve, Env.request] <;> split <;> rfl

@[simp] theorem Env.takeByte_draws (e : Env) : e.takeByte.2.draws = e.draws := by
  unfold Env.takeByte
  split <;> rfl

@[simp] theorem Env.rewindBytes_draws (e : Env) : e.rewindBytes.2.draws = e.draws := by
  unfold Env.rewindBytes
  split <;> rfl

@[simp] theorem Env.takeBit_draws (e : Env) : e.takeBit.2.draws = e.draws := by
  unfold Env.takeBit
  split <;> rfl

/-- The work of a request takes no draw. -/
@[simp] theorem Wait.work_draws (w : Wait) (e : Env) : (w.work e).2.draws = e.draws := by
  cases w <;> simp [Wait.work, Env.putHeader, Env.takeHeader, Env.putBit, Env.putByte]

theorem serve_served (w : Wait) {e : Env} (h : e.draws = []) : serve w e = some (w.work e) := by
  rw [serve_eq, Env.request_served _ _ h]
  rfl

theorem serve_failed (w : Wait) {e : Env} {carriedOut : Bool} {ds : List Draw}
    (h : e.draws = .failed carriedOut :: ds) :
    serve w e = some (w.failedReply,
      if carriedOut then (w.work { e with draws := ds }).2 else { e with draws := ds }) := by
  rw [serve_eq, Env.request_failed _ _ _ _ h]
  rfl

theorem serve_unanswered (w : Wait) {e : Env} {ds : List Draw} (h : e.draws = .unanswered :: ds) :
    serve w e = none := by
  rw [serve_eq, Env.request_unanswered _ _ _ h]
  rfl

/-- All that an answered request can do: the environment has done its work and the reply says so, or the request has
failed, the work then being done or not (R97, R331). -/
theorem serve_cases {w : Wait} {e e' : Env} {r : Reply} (h : serve w e = some (r, e')) :
    ∃ ds, (r = (w.work { e with draws := ds }).1 ∧ e' = (w.work { e with draws := ds }).2) ∨
      (r = w.failedReply ∧ (e' = (w.work { e with draws := ds }).2 ∨ e' = { e with draws := ds })) := by
  rw [serve_eq, Option.map_eq_some_iff] at h
  obtain ⟨⟨a, e1⟩, hrequest, hreply⟩ := h
  cases hreply
  obtain ⟨ds, ⟨rfl, rfl⟩ | ⟨rfl, henv⟩⟩ := Env.request_cases hrequest
  · exact ⟨ds, .inl ⟨rfl, rfl⟩⟩
  · exact ⟨ds, .inr ⟨rfl, henv⟩⟩

/-- RESULT when the request fails: the count of the counting bodies, and RESULT as it is in the others (R331). -/
def Wait.failedResult (s : State) : Wait → Count64
  | .rewind => s.result
  | .hdrWrite _ => s.result
  | .hdrRead => s.result
  | .countByte => s.run.nCount
  | .encByte => s.run.nCount
  | .encBit _ _ => s.run.nCount
  | .leafWrite _ => s.run.nCount
  | .decBit => s.run.nCount
  | .symWrite _ => s.run.nCount

/-- Every body raises IO_ERROR on a request that failed, with the request's identity (R331). -/
theorem resume_failedReply (w : Wait) (s : State) :
    resume w.failedReply s = .raise .ioError w.requestId (s.setResult (w.failedResult s)) := by
  cases w <;> rfl

/-- Settles O50: one step takes the failed reply, the next raises the fault. -/
theorem failedRequestFaults : Obligations.FailedRequestFaults := by
  intro s w carriedOut ds hp hdraws
  have hserve := serve_failed w hdraws
  generalize he : (if carriedOut then (w.work { s.env with draws := ds }).2 else { s.env with draws := ds }) = e
    at hserve
  refine ⟨e, ?_, ?_, ?_⟩
  · rw [seqStep_asking hp hserve, seqStep_answered rfl, resume_failedReply]
    cases w <;> rfl
  · subst he
    cases carriedOut <;> simp
  · rintro rfl
    exact he.symm

/-- Settles O51: the step at the request changes nothing, and reset takes the request and its draw away. -/
theorem unansweredRequestWaits : Obligations.UnansweredRequestWaits := by
  intro s w ds hp hdraws
  have hwait : seqStep s = s := seqStep_waiting hp (serve_unanswered w hdraws)
  refine ⟨fun n => seqRun_keeps (P := (· = s)) (fun t ht _ => by rw [ht, hwait]) n rfl, ?_⟩
  obtain ⟨e, hreset, ⟨rfl, -⟩ | ⟨-, hnot⟩⟩ := State.hardReset_cases s
  · rw [hreset, Env.abandon_unanswered hdraws]
    exact ⟨rfl, rfl⟩
  · exact absurd hp (hnot w)

end Sys2Proof.Machine
end

section
/-! PROOFS. Sources that never end (R99, R378): the invariant of DECODE's position, and the points of the loops that
read such a source, which no step leaves but into a fault. -/

namespace Sys2Proof.Machine

/-! ## One step of the sequencer from one property to another -/

/-- As `seqStep_keeps`, where what holds after a step (`J`) is not what holds before it (`I`): a bound that each step
may use up. -/
theorem seqStep_leads {I J : State → Prop} {M : List Body → State → Prop}
    (hidle : ∀ s, I s → s.run.phase = .idle → J s) (hbegin : ∀ s, I s → s.run.phase = .begin → M s.run.todo s)
    (hwait : ∀ s w, I s → s.run.phase = .asking w → serve w s.env = none → J s)
    (hreply : ∀ s w r e, I s → s.run.phase = .asking w → serve w s.env = some (r, e) → J (s.setReply r e))
    (hresume : ∀ s r, I s → s.run.phase = .answered r →
      (resume r s).All (fun w t => J (t.setAsking w)) (fun t => M t.run.todo t) (fun n d t => J (t.raise n d)))
    (hbody : ∀ b todo s, M (b :: todo) s →
      (startBody b (s.enterBody b todo)).All (fun w t => J (t.setAsking w)) (M todo) (fun n d t => J (t.raise n d)))
    (hend : ∀ s, M [] s → J s.complete) {s : State} (h : I s) : J (seqStep s) := by
  cases hp : s.run.phase with
  | idle =>
    have hstep : seqStep s = s := by rw [seqStep, hp]
    rw [hstep]
    exact hidle s h hp
  | begin =>
    rw [seqStep_begin hp]
    exact runBodies_keeps hbody hend _ _ (hbegin s h hp)
  | asking w =>
    cases hs : serve w s.env with
    | none =>
      rw [seqStep_waiting hp hs]
      exact hwait s w h hp hs
    | some re =>
      rw [seqStep_asking hp (r := re.1) (e := re.2) hs]
      exact hreply s w _ _ h hp hs
  | answered r =>
    rw [seqStep_answered hp]
    have hr := hresume s r h hp
    cases hf : resume r s with
    | ask w t => rwa [hf] at hr
    | done t =>
      rw [hf] at hr
      exact runBodies_keeps hbody hend _ _ hr
    | raise n d t => rwa [hf] at hr

/-- A run of `n` steps from a state that has `n` steps to spend, where a step leaves one fewer to spend. -/
theorem seqRun_spends {P : Nat → State → Prop} (hstep : ∀ n s, P (n + 1) s → P n (seqStep s)) (n : Nat) {s : State}
    (h : P n s) : ∃ k, P k (seqRun n s) := by
  induction n generalizing s with
  | zero => exact ⟨0, h⟩
  | succ n ih =>
    cases hbusy : s.status.busy with
    | false => exact ⟨n + 1, (seqRun_idle hbusy _).symm ▸ h⟩
    | true => exact seqRun_busy hbusy n ▸ ih (hstep n s h)

/-! ## The decode position (R278, R279) -/

/-- All that one bit of the descent can do, by what stands at the branch. -/
theorem descend_cases (x : Bit) (s : State) :
    (s.subtree (s.decPath ++ [x]) = none ∧ descend x s = .raise .absentBranch 0#8 s.resultCount) ∨
    ((∃ z o, s.subtree (s.decPath ++ [x]) = some (.node z o)) ∧
      descend x s = .ask .decBit (s.setDecPos (s.decPath ++ [x]))) ∨
    (s.run.nCount = maxItems ∧ descend x s = .raise .cntOvf 0#8 (s.setDecPos (s.decPath ++ [x])).resultCount) ∨
    ∃ sym, descend x s = .ask (.symWrite sym) (s.setDecPos (s.decPath ++ [x])) := by
  unfold descend
  split
  · next h => exact .inl ⟨h, rfl⟩
  · next z o h => exact .inr (.inl ⟨⟨z, o, h⟩, rfl⟩)
  · next sym h =>
    split
    · next hmax => exact .inr (.inr (.inl ⟨hmax, rfl⟩))
    · exact .inr (.inr (.inr ⟨sym, rfl⟩))

/-- Both branches of an internal node are present. -/
theorem subtree_child {s : State} (h : atInnerNode s) (x : Bit) : s.subtree (s.decPath ++ [x]) ≠ none := by
  obtain ⟨-, z, o, hnode⟩ := h
  unfold State.subtree at hnode ⊢
  obtain ⟨r, hroot, hr⟩ := Option.bind_eq_some_iff.1 hnode
  simp [hroot, treeAt_append, hr]

/-- The root of a full tree is an internal node. -/
theorem atInnerNode_root {s : State} (h : storeState s.tree = .full) : atInnerNode (s.setDecPos []) := by
  refine ⟨h, ?_⟩
  show ∃ z o, (storeRoot s.tree).bind _ = _
  cases htree : s.tree with
  | full z o => exact ⟨z, o, rfl⟩
  | _ => rw [htree] at h; cases h

/-- Only DECODE's requests speak of the decode position. -/
theorem State.decodeInv_asking {t : State} {w : Wait} (h : waitBody w ≠ .decode) : (t.setAsking w).DecodeInv := by
  cases w with
  | decBit => exact absurd rfl h
  | symWrite sym => exact absurd rfl h
  | _ => trivial

theorem Flow.Within.decodeInv {b : Body} {s : State} {f : Flow} (h : f.Within b s) (hb : b ≠ .decode) :
    f.All (fun w t => (t.setAsking w).DecodeInv) (fun _ => True) (fun n d t => (t.raise n d).DecodeInv) :=
  Flow.All.imp h (fun _ _ ht => State.decodeInv_asking (ht.1 ▸ hb)) (fun _ _ => trivial) fun _ _ _ _ => trivial

theorem leafLoop_decodeInv (sym : Symbol) (s : State) :
    (leafLoop sym s).All (fun w t => (t.setAsking w).DecodeInv) (fun _ => True)
      (fun n d t => (t.raise n d).DecodeInv) := by
  unfold leafLoop
  split <;> trivial

/-- DECODE of a full tree starts at the root; every other body asks no request that speaks of the position. -/
theorem startBody_decodeInv (b : Body) (s : State) :
    (startBody b s).All (fun w t => (t.setAsking w).DecodeInv) (fun _ => True)
      (fun n d t => (t.raise n d).DecodeInv) := by
  by_cases hb : b = .decode
  · subst hb
    simp only [startBody, bodyDecode]
    split
    · trivial
    · split <;> trivial
    · split
      · exact leafLoop_decodeInv _ _
      · trivial
    · next htree =>
      split
      · exact atInnerNode_root (s := s.setCount 0#64) (by simp [htree, storeState])
      · trivial
  · exact (startBody_within b s).decodeInv hb

/-- A bit leads from an internal node to another or to a leaf, and a written symbol back to the root. -/
theorem resume_decodeInv {s : State} {r : Reply} (h : s.DecodeInv) (hp : s.run.phase = .answered r) :
    (resume r s).All (fun w t => (t.setAsking w).DecodeInv) (fun _ => True) (fun n d t => (t.raise n d).DecodeInv) := by
  unfold State.DecodeInv at h
  rw [hp] at h
  cases r with
  | decBit a =>
    simp only [resume, decBitReply]
    split
    · trivial
    · split
      · next x _ =>
        rcases descend_cases x s with ⟨-, hd⟩ | ⟨hnode, hd⟩ | ⟨-, hd⟩ | ⟨sym, hd⟩ <;> rw [hd]
        · trivial
        · exact ⟨h.1, hnode⟩
        · trivial
        · exact h.1
      · split <;> trivial
  | symWrite a =>
    cases a with
    | ioerr => trivial
    | value u => exact atInnerNode_root (s := s.setCount (s.run.nCount + 1#64)) h
  | leafWrite sym a =>
    cases a with
    | ioerr => trivial
    | value u => exact leafLoop_decodeInv sym _
  | _ => exact (resume_within _ s).decodeInv (by simp [replyBody])

/-- A request and its reply speak of the same position. -/
theorem setReply_decodeInv {s : State} {w : Wait} {r : Reply} {e : Env} (h : s.DecodeInv)
    (hp : s.run.phase = .asking w) (hs : serve w s.env = some (r, e)) : (s.setReply r e).DecodeInv := by
  unfold State.DecodeInv at h
  rw [hp] at h
  obtain ⟨ds, ⟨rfl, -⟩ | ⟨rfl, -⟩⟩ := serve_cases hs
  · cases w <;> exact h
  · cases w <;> exact h

/-- The decode position is kept by every step of the sequencer (R278, R279). -/
theorem seqStep_keeps_decodeInv (s : State) (h : s.DecodeInv) : (seqStep s).DecodeInv :=
  seqStep_keeps (M := fun _ _ => True) (fun _ _ _ => trivial) (fun _ _ _ _ h hp hs => setReply_decodeInv h hp hs)
    (fun _ _ h hp => resume_decodeInv h hp) (fun _ _ _ _ => startBody_decodeInv _ _) (fun _ _ => trivial) s h

/-! ## What never ends (R99, R378) -/

/-- The byte source never answers EOF. -/
def Env.BytesUnending (e : Env) : Prop := ∃ k, e.inEnding = .endless k

/-- The bit source never answers END: its listed answers are bits, and no end follows them (R134). -/
def Env.BitsUnending (e : Env) : Prop := (∃ k, e.bitsEnding = .endless k) ∧ ∀ r ∈ e.bitsLeft, bitOf r ≠ none

theorem Env.BytesUnending.takeByte {e : Env} (h : e.BytesUnending) :
    e.takeByte.1 ≠ .eof ∧ e.takeByte.2.BytesUnending := by
  obtain ⟨k, hk⟩ := h
  obtain ⟨b, hb⟩ := Env.takeByte_endless hk
  rw [hb]
  exact ⟨nofun, k, hk⟩

theorem Env.BitsUnending.takeBit {e : Env} (h : e.BitsUnending) :
    bitOf e.takeBit.1 ≠ none ∧ e.takeBit.2.BitsUnending := by
  obtain ⟨⟨k, hk⟩, hbits⟩ := h
  obtain ⟨r, hr, hbit, hleft⟩ := Env.takeBit_endless hk hbits
  rw [hr]
  exact ⟨hbit, ⟨k, hk⟩, hleft⟩

/-- Only a rewind can make a byte source end (R375). -/
theorem Wait.work_bytesUnending {w : Wait} {e : Env} (hw : w ≠ .rewind) (h : e.BytesUnending) :
    (w.work e).2.BytesUnending := by
  cases w with
  | rewind => exact absurd rfl hw
  | countByte => exact h.takeByte.2
  | encByte => exact h.takeByte.2
  | decBit =>
    show e.takeBit.2.BytesUnending
    unfold Env.takeBit
    split <;> exact h
  | _ => exact h

/-- No request makes a bit source end. -/
theorem Wait.work_bitsUnending {w : Wait} {e : Env} (h : e.BitsUnending) : (w.work e).2.BitsUnending := by
  have takeByte : e.takeByte.2.BitsUnending := by
    unfold Env.takeByte
    split <;> exact h
  cases w with
  | countByte => exact takeByte
  | encByte => exact takeByte
  | rewind =>
    show e.rewindBytes.2.BitsUnending
    unfold Env.rewindBytes
    split <;> exact h
  | decBit => exact h.takeBit.2
  | _ => exact h

/-- A body reads a source that never ends; HDR_RECREATE leads to DECODE, which does. -/
def State.Reads (s : State) : Body → Prop
  | .freqCount => s.env.BytesUnending
  | .encode => s.env.BytesUnending
  | .decode => s.env.BitsUnending
  | .hdrRecreate => s.env.BitsUnending ∧ s.run.todo = [.decode]
  | _ => False

/-- A request whose answer goes on: DECODE of a single leaf counts to its end, and a header has to be a full tree's. -/
def Wait.GoesOn (e : Env) : Wait → Prop
  | .leafWrite _ => False
  | .hdrRead => ∃ z o, parse e.hdrIn = .ok (.full z o)
  | _ => True

/-- A reply that does not end its body, but for a header that leads to DECODE of a full tree. -/
def Reply.GoesOn : Reply → Prop
  | .countByte a => a ≠ .value .eof
  | .encByte a => a ≠ .value .eof
  | .decBit a => ∀ r, a = .value r → bitOf r ≠ none
  | .hdrRead a => ∀ h, a = .value h → ∃ z o, parse h = .ok (.full z o)
  | .leafWrite _ _ => False
  | _ => True

/-- A reply other than IOERR. -/
def Reply.Served : Reply → Prop
  | .countByte a => a ≠ .ioerr
  | .rewind a => a ≠ .ioerr
  | .hdrWrite _ a => a ≠ .ioerr
  | .hdrRead a => a ≠ .ioerr
  | .encByte a => a ≠ .ioerr
  | .encBit _ a => a ≠ .ioerr
  | .leafWrite _ a => a ≠ .ioerr
  | .decBit a => a ≠ .ioerr
  | .symWrite a => a ≠ .ioerr

theorem work_served (w : Wait) (e : Env) : (w.work e).1.Served := by cases w <;> exact nofun

/-- Over a source that never ends the environment's answer never ends the body. -/
theorem work_goesOn {w : Wait} {s : State} (ds : List Draw) (hreads : s.Reads (waitBody w)) (h : w.GoesOn s.env) :
    (w.work { s.env with draws := ds }).1.GoesOn := by
  have bytes (hb : s.env.BytesUnending) : ({ s.env with draws := ds } : Env).takeByte.1 ≠ .eof :=
    (Env.BytesUnending.takeByte (e := { s.env with draws := ds }) hb).1
  cases w with
  | countByte => exact fun ha => bytes hreads (Answer.value.inj ha)
  | encByte => exact fun ha => bytes hreads (Answer.value.inj ha)
  | decBit =>
    intro r hr
    rw [← Answer.value.inj hr]
    exact (Env.BitsUnending.takeBit (e := { s.env with draws := ds }) hreads).1
  | hdrRead =>
    intro hdr hr
    rw [← Answer.value.inj hr]
    exact h
  | leafWrite sym => exact h
  | _ => trivial

theorem failedReply_goesOn {w : Wait} {e : Env} (h : w.GoesOn e) : w.failedReply.GoesOn := by
  cases w with
  | countByte => exact nofun
  | encByte => exact nofun
  | decBit => exact nofun
  | hdrRead => exact nofun
  | leafWrite sym => exact h
  | _ => trivial

/-- An answered request leaves the source without an end, and a reply that goes on. -/
theorem serve_goesOn {s : State} {w : Wait} {r : Reply} {e : Env} (hreads : s.Reads (waitBody w)) (h : w.GoesOn s.env)
    (hs : serve w s.env = some (r, e)) : (s.setReply r e).Reads (replyBody r) ∧ r.GoesOn := by
  obtain ⟨ds, hcases⟩ := serve_cases hs
  have henv : e = (w.work { s.env with draws := ds }).2 ∨ e = { s.env with draws := ds } := by
    rcases hcases with ⟨-, he⟩ | ⟨-, he⟩
    · exact .inl he
    · exact he
  have bytes (hw : w ≠ .rewind) (hb : s.env.BytesUnending) : e.BytesUnending := by
    rcases henv with rfl | rfl
    · exact Wait.work_bytesUnending hw hb
    · exact hb
  have bits (hb : s.env.BitsUnending) : e.BitsUnending := by
    rcases henv with rfl | rfl
    · exact Wait.work_bitsUnending hb
    · exact hb
  refine ⟨?_, ?_⟩
  · rw [(serve_within hs).1]
    cases w with
    | countByte => exact bytes nofun hreads
    | encByte => exact bytes nofun hreads
    | encBit x rest => exact bytes nofun hreads
    | hdrRead => exact ⟨bits hreads.1, hreads.2⟩
    | rewind => exact hreads
    | hdrWrite hdr => exact hreads
    | leafWrite sym => exact bits hreads
    | decBit => exact bits hreads
    | symWrite sym => exact bits hreads
  · rcases hcases with ⟨rfl, -⟩ | ⟨rfl, -⟩
    · exact work_goesOn ds hreads h
    · exact failedReply_goesOn h

/-! ## The points of a command over a source that never ends -/

/-- With `n` steps to come, no counter that the body counts with can become full, and no byte lacks a code. -/
def State.Room (n : Nat) (s : State) : Body → Prop
  | .freqCount => ∀ b, (symGet s.freq b).toNat + n < 2 ^ 32
  | .encode => s.run.nCount.toNat + n < 2 ^ 64 ∧ ∀ b, (symGet s.map b).present = true
  | .decode => s.run.nCount.toNat + n < 2 ^ 64
  | _ => n < 2 ^ 64

/-- The command has not completed; `inOrder` says that it was started in order and its requests are served, and then it
is BUSY. -/
def State.Live (inOrder : Prop) (s : State) : Prop :=
  s.status.done = false ∧ (inOrder → s.status.busy = true ∧ s.env.draws = [])

/-- The bodies still to start lead to one that reads a source without an end, where the command was started in order
with room for `n` steps. -/
inductive State.Starts (inOrder : Prop) (n : Nat) : List Body → State → Prop where
  | count {todo : List Body} {s : State} (hsource : s.env.BytesUnending) (hroom : inOrder → n < 2 ^ 32) :
    Starts inOrder n (.freqCount :: todo) s
  | sessionCount {todo : List Body} {s : State} (hsource : s.env.BytesUnending) (hroom : inOrder → n < 2 ^ 32) :
    Starts inOrder n (.session :: .freqCount :: todo) s
  | encode {s : State} (hsource : s.env.BytesUnending)
    (hroom : inOrder → s.mapValid = true ∧ s.hdrOutDone = true ∧ n < 2 ^ 64 ∧ ∀ b, (symGet s.map b).present = true) :
    Starts inOrder n [.encode] s
  | decode {s : State} (hsource : s.env.BitsUnending) (htree : storeState s.tree = .full)
    (hroom : inOrder → s.hdrInDone = true ∧ n < 2 ^ 64) : Starts inOrder n [.decode] s
  | header {s : State} (hsource : s.env.BitsUnending) (hparse : ∃ z o, parse s.env.hdrIn = .ok (.full z o))
    (hroom : inOrder → s.hdrInDone = false ∧ n < 2 ^ 64) : Starts inOrder n [.hdrRecreate, .decode] s
  | sessionHeader {s : State} (hsource : s.env.BitsUnending) (hparse : ∃ z o, parse s.env.hdrIn = .ok (.full z o))
    (hroom : inOrder → n < 2 ^ 64) : Starts inOrder n [.session, .hdrRecreate, .decode] s

/-- Where the sequencer stands, with room for `n` steps where the command was started in order. -/
def State.Point (inOrder : Prop) (n : Nat) (s : State) : Prop :=
  match s.run.phase with
  | .idle => True
  | .begin => s.Starts inOrder n s.run.todo
  | .asking w => w.GoesOn s.env ∧ s.Reads (waitBody w) ∧ (inOrder → s.Room n (waitBody w))
  | .answered r => r.GoesOn ∧ s.Reads (replyBody r) ∧ (inOrder → r.Served ∧ s.Room n (replyBody r))

/-- The invariant of a command over a source that never ends. -/
def State.Unending (inOrder : Prop) (n : Nat) (s : State) : Prop := s.Live inOrder ∧ s.Point inOrder n

section
variable {inOrder : Prop} {n : Nat} {s : State}

theorem State.Unending.begin (h : s.Unending inOrder n) (hp : s.run.phase = .begin) :
    s.Starts inOrder n s.run.todo := by
  have hpoint := h.2
  unfold State.Point at hpoint
  rwa [hp] at hpoint

theorem State.Unending.asking {w : Wait} (h : s.Unending inOrder n) (hp : s.run.phase = .asking w) :
    w.GoesOn s.env ∧ s.Reads (waitBody w) ∧ (inOrder → s.Room n (waitBody w)) := by
  have hpoint := h.2
  unfold State.Point at hpoint
  rwa [hp] at hpoint

theorem State.Unending.answered {r : Reply} (h : s.Unending inOrder n) (hp : s.run.phase = .answered r) :
    r.GoesOn ∧ s.Reads (replyBody r) ∧ (inOrder → r.Served ∧ s.Room n (replyBody r)) := by
  have hpoint := h.2
  unfold State.Point at hpoint
  rwa [hp] at hpoint

/-- A command at rest has no point left to speak of. -/
theorem State.Live.unending_idle (h : s.Live inOrder) (hp : s.run.phase = .idle) : s.Unending inOrder n := by
  refine ⟨h, ?_⟩
  unfold State.Point
  rw [hp]
  trivial

end

/-- A fault ends a command that was not started in order, or whose requests are not all served. -/
theorem State.unending_raise {inOrder : Prop} (h : ¬ inOrder) (n : Nat) (s : State) (name : FaultName) (d : FaultByte) :
    (s.raise name d).Unending inOrder n :=
  ⟨⟨rfl, fun ho => absurd ho h⟩, trivial⟩

/-- Every end of a computation is a point of the invariant, or a body that starts. -/
def Flow.StaysUnending (inOrder : Prop) (n : Nat) (f : Flow) : Prop :=
  f.All (fun w t => (t.setAsking w).Unending inOrder n) (fun t => t.Live inOrder ∧ t.Starts inOrder (n + 1) t.run.todo)
    (fun name d t => (t.raise name d).Unending inOrder n)

/-- Counting uses up one step's room. -/
theorem count_room {w : Nat} {c : BitVec w} {n : Nat} (h : c.toNat + (n + 1) < 2 ^ w) (hw : 0 < w) :
    (c + 1#w).toNat + n < 2 ^ w := by
  rw [BitVec.toNat_add, BitVec.toNat_one hw, Nat.mod_eq_of_lt (by omega)]
  omega

theorem State.Room.tail {n : Nat} {s : State} {b : Body} (h : s.Room (n + 1) b) : s.Room n b := by
  cases b with
  | freqCount => exact fun b => Nat.lt_of_succ_lt (h b)
  | encode => exact ⟨Nat.lt_of_succ_lt h.1, h.2⟩
  | _ => exact Nat.lt_of_succ_lt h

/-- A count with room for another step is not full. -/
theorem ne_maxItems_of_room {c : Count64} {n : Nat} (h : c.toNat + (n + 1) < 2 ^ 64) : c ≠ maxItems := by
  rintro rfl
  simp only [maxItems, BitVec.reduceToNat] at h
  omega

theorem ne_maxCount_of_room {c : Count} {n : Nat} (h : c.toNat + (n + 1) < 2 ^ 32) : c ≠ maxCount := by
  rintro rfl
  simp only [maxCount, BitVec.reduceToNat] at h
  omega

section
variable {inOrder : Prop} {n : Nat} {s : State}

/-- FREQ_COUNT counts a byte and reads on, or faults on IOERR or on a full counter. -/
theorem countByteReply_staysUnending {a : Answer ByteOrEof} (hlive : s.Live inOrder) (hgo : a ≠ .value .eof)
    (hsource : s.env.BytesUnending) (hserved : inOrder → a ≠ .ioerr) (hroom : inOrder → s.Room (n + 1) .freqCount) :
    (countByteReply a s).StaysUnending inOrder n := by
  match a with
  | .ioerr => exact State.unending_raise (fun ho => hserved ho rfl) ..
  | .value .eof => exact absurd rfl hgo
  | .value (.byte b) =>
    simp only [countByteReply]
    split
    · next hfull => exact State.unending_raise (fun ho => ne_maxCount_of_room (hroom ho b) hfull) ..
    · refine ⟨hlive, trivial, hsource, fun ho b' => ?_⟩
      show (symGet (symSet s.freq b (symGet s.freq b + 1#32)) b').toNat + n < 2 ^ 32
      rw [symGet_symSet]
      split
      · exact count_room (hroom ho b) (by decide)
      · exact Nat.lt_of_succ_lt (hroom ho b')

/-- ENCODE writes the rest of a code and reads on. -/
theorem encodeBits_staysUnending (code : List Bit) (hlive : s.Live inOrder) (hsource : s.env.BytesUnending)
    (hroom : inOrder → s.Room (n + 1) .encode) : (encodeBits code s).StaysUnending inOrder n := by
  cases code with
  | nil => exact ⟨hlive, trivial, hsource, fun ho => ⟨count_room (hroom ho).1 (by decide), (hroom ho).2⟩⟩
  | cons x rest => exact ⟨hlive, trivial, hsource, fun ho => (hroom ho).tail⟩

/-- ENCODE takes a byte's code, or faults on IOERR, on a byte without a code or on a full count. -/
theorem encByteReply_staysUnending {a : Answer ByteOrEof} (hlive : s.Live inOrder) (hgo : a ≠ .value .eof)
    (hsource : s.env.BytesUnending) (hserved : inOrder → a ≠ .ioerr) (hroom : inOrder → s.Room (n + 1) .encode) :
    (encByteReply a s).StaysUnending inOrder n := by
  match a with
  | .ioerr => exact State.unending_raise (fun ho => hserved ho rfl) ..
  | .value .eof => exact absurd rfl hgo
  | .value (.byte b) =>
    simp only [encByteReply]
    split
    · split
      · next hfull => exact State.unending_raise (fun ho => ne_maxItems_of_room (hroom ho).1 hfull) ..
      · exact encodeBits_staysUnending _ hlive hsource hroom
    · next habsent => exact State.unending_raise (fun ho => habsent ((hroom ho).2 b)) ..

/-- DECODE descends by a bit, or faults on IOERR or on a full count; no branch of an internal node is absent. -/
theorem decBitReply_staysUnending {a : Answer (BitVec 2)} (hlive : s.Live inOrder)
    (hgo : ∀ r, a = .value r → bitOf r ≠ none) (hsource : s.env.BitsUnending) (hserved : inOrder → a ≠ .ioerr)
    (hroom : inOrder → s.Room (n + 1) .decode) (hinner : inOrder → atInnerNode s) :
    (decBitReply a s).StaysUnending inOrder n := by
  cases a with
  | ioerr => exact State.unending_raise (fun ho => hserved ho rfl) ..
  | value r =>
    simp only [decBitReply]
    split
    · next x _ =>
      rcases descend_cases x s with ⟨habsent, hd⟩ | ⟨-, hd⟩ | ⟨hfull, hd⟩ | ⟨sym, hd⟩ <;> rw [hd]
      · exact State.unending_raise (fun ho => subtree_child (hinner ho) x habsent) ..
      · exact ⟨hlive, trivial, hsource, fun ho => (hroom ho).tail⟩
      · exact State.unending_raise (fun ho => ne_maxItems_of_room (hroom ho) hfull) ..
      · exact ⟨hlive, trivial, hsource, fun ho => (hroom ho).tail⟩
    · next hend => exact absurd hend (hgo r rfl)

/-- No reply that goes on ends a command over a source that never ends. -/
theorem resume_staysUnending {r : Reply} (h : s.Unending inOrder (n + 1)) (hposition : inOrder → s.DecodeInv)
    (hp : s.run.phase = .answered r) : (resume r s).StaysUnending inOrder n := by
  have hlive := h.1
  obtain ⟨hgo, hreads, horder⟩ := h.answered hp
  have hroom := fun ho => (horder ho).2
  have served := fun ho => (horder ho).1
  cases r with
  | countByte a => exact countByteReply_staysUnending hlive hgo hreads served hroom
  | encByte a => exact encByteReply_staysUnending hlive hgo hreads served hroom
  | encBit rest a =>
    cases a with
    | ioerr => exact State.unending_raise (served · rfl) ..
    | value u => exact encodeBits_staysUnending rest hlive hreads hroom
  | decBit a =>
    refine decBitReply_staysUnending hlive hgo hreads served hroom fun ho => ?_
    have hinner := hposition ho
    unfold State.DecodeInv at hinner
    rwa [hp] at hinner
  | symWrite a =>
    cases a with
    | ioerr => exact State.unending_raise (served · rfl) ..
    | value u => exact ⟨hlive, trivial, hreads, fun ho => count_room (hroom ho) (by decide)⟩
  | hdrRead a =>
    cases a with
    | ioerr => exact State.unending_raise (served · rfl) ..
    | value hdr =>
      obtain ⟨z, o, hparse⟩ := hgo hdr rfl
      obtain ⟨hsource, htodo⟩ := hreads
      simp only [resume, hdrReadReply, hparse]
      refine ⟨hlive, ?_⟩
      show State.Starts inOrder (n + 1) s.run.todo _
      rw [htodo]
      exact .decode hsource rfl fun ho => ⟨rfl, hroom ho⟩
  | rewind a => exact hreads.elim
  | hdrWrite hdr a => exact hreads.elim
  | leafWrite sym a => exact hgo.elim

/-- Where the bodies to start lead to a loop, they ask its first request, or fault because of their order. -/
theorem startBody_staysUnending {b : Body} {todo : List Body} (hlive : s.Live inOrder)
    (h : s.Starts inOrder (n + 1) (b :: todo)) :
    (startBody b (s.enterBody b todo)).All (fun w t => (t.setAsking w).Unending inOrder n)
      (fun t => t.Live inOrder ∧ t.Starts inOrder (n + 1) todo)
      (fun name d t => (t.raise name d).Unending inOrder n) := by
  cases h with
  | count hsource hroom =>
    refine ⟨hlive, trivial, hsource, fun ho b => ?_⟩
    show (symGet zeroFreq b).toNat + n < 2 ^ 32
    have := hroom ho
    rw [symGet_zeroFreq, BitVec.toNat_ofNat]
    omega
  | sessionCount hsource hroom => exact ⟨hlive, .count hsource hroom⟩
  | encode hsource hroom =>
    simp only [startBody, bodyEncode]
    split
    · split
      · refine ⟨hlive, trivial, hsource, fun ho => ?_⟩
        obtain ⟨-, -, hn, hpresent⟩ := hroom ho
        exact ⟨by show 0 + n < 2 ^ 64; omega, hpresent⟩
      · next hheader => exact State.unending_raise (fun ho => hheader (hroom ho).2.1) ..
    · next hmap => exact State.unending_raise (fun ho => hmap (hroom ho).1) ..
  | decode hsource htree hroom =>
    simp only [startBody, bodyDecode, State.enterBody_tree]
    cases hs : s.tree with
    | full z o =>
      dsimp only
      split
      · refine ⟨hlive, trivial, hsource, fun ho => ?_⟩
        have hn := (hroom ho).2
        show 0 + n < 2 ^ 64
        omega
      · next hheader => exact State.unending_raise (fun ho => hheader (hroom ho).1) ..
    | _ => rw [hs] at htree; cases htree
  | header hsource hparse hroom =>
    simp only [startBody, bodyHdrRecreate]
    split
    · next hread =>
      exact State.unending_raise (fun ho => Bool.false_ne_true ((hroom ho).1.symm.trans hread)) ..
    · exact ⟨hlive, hparse, ⟨hsource, rfl⟩, fun ho => Nat.lt_of_succ_lt (hroom ho).2⟩
  | sessionHeader hsource hparse hroom => exact ⟨hlive, .header hsource hparse fun ho => ⟨rfl, hroom ho⟩⟩

/-- An answered request leaves a reply that goes on, and IOERR only where not every request is served. -/
theorem setReply_unending {w : Wait} {r : Reply} {e : Env} (h : s.Unending inOrder (n + 1))
    (hp : s.run.phase = .asking w) (hs : serve w s.env = some (r, e)) : (s.setReply r e).Unending inOrder n := by
  obtain ⟨hdone, hserved⟩ := h.1
  obtain ⟨hgo, hreads, hroom⟩ := h.asking hp
  obtain ⟨hreads', hgo'⟩ := serve_goesOn hreads hgo hs
  have hwork : inOrder → r = (w.work s.env).1 ∧ e = (w.work s.env).2 := fun ho => by
    rw [serve_served w (hserved ho).2, Option.some.injEq] at hs
    exact ⟨congrArg Prod.fst hs.symm, congrArg Prod.snd hs.symm⟩
  refine ⟨⟨hdone, fun ho => ⟨(hserved ho).1, ?_⟩⟩, hgo', hreads', fun ho => ⟨?_, ?_⟩⟩
  · show e.draws = []
    rw [(hwork ho).2, Wait.work_draws, (hserved ho).2]
  · rw [(hwork ho).1]
    exact work_served w s.env
  · rw [(serve_within hs).1]
    exact (hroom ho).tail

/-- A request that is not answered leaves a command waiting that is not in order. -/
theorem waiting_unending {w : Wait} (h : s.Unending inOrder (n + 1))
    (hp : s.run.phase = .asking w) (hs : serve w s.env = none) : s.Unending inOrder n := by
  obtain ⟨hdone, hserved⟩ := h.1
  obtain ⟨hgo, hreads, -⟩ := h.asking hp
  have hno : ¬ inOrder := fun ho => by
    rw [serve_served w (hserved ho).2] at hs
    cases hs
  refine ⟨⟨hdone, hserved⟩, ?_⟩
  unfold State.Point
  rw [hp]
  exact ⟨hgo, hreads, fun ho => absurd ho hno⟩

/-- Every step uses up one of the steps there was room for. -/
theorem seqStep_unending (hposition : inOrder → s.DecodeInv) (h : s.Unending inOrder (n + 1)) :
    (seqStep s).Unending inOrder n :=
  seqStep_leads (I := fun t => (inOrder → t.DecodeInv) ∧ t.Unending inOrder (n + 1))
    (M := fun todo t => t.Live inOrder ∧ t.Starts inOrder (n + 1) todo) (fun t ht hp => ht.2.1.unending_idle hp)
    (fun t ht hp => ⟨ht.2.1, ht.2.begin hp⟩) (fun t w ht hp hs => waiting_unending ht.2 hp hs)
    (fun t w r e ht hp hs => setReply_unending ht.2 hp hs) (fun t r ht hp => resume_staysUnending ht.2 ht.1 hp)
    (fun b todo t ht => startBody_staysUnending ht.1 ht.2) (fun t ht => nomatch ht.2) ⟨hposition, h⟩

end

/-- A ready command that starts on a source without an end has not completed, however many steps it was granted; started
in order with room for them all, it is BUSY. -/
theorem exec_unending {inOrder : Prop} (i : Instr) {s t : State} (hready : s.Ready) (hserved : inOrder → s.Served)
    (hstart : (s.accept (encode i) (commandBodies i)).Starts inOrder s.host.grant (commandBodies i))
    (hexec : exec i s = .next t) : t.status.done = false ∧ (inOrder → t.status.busy = true) := by
  rw [exec_accepted (State.drops_of_ready hready _)] at hexec
  injection hexec with hrun
  subst hrun
  obtain ⟨k, -, ⟨hdone, hbusy⟩, -⟩ := seqRun_spends
    (P := fun n t => (inOrder → t.DecodeInv) ∧ t.Unending inOrder n)
    (fun n t ht => ⟨fun ho => seqStep_keeps_decodeInv t (ht.1 ho), seqStep_unending ht.1 ht.2⟩) s.host.grant
    (s := s.accept (encode i) (commandBodies i)) ⟨fun _ => trivial, ⟨rfl, fun ho => ⟨rfl, hserved ho⟩⟩, hstart⟩
  exact ⟨hdone, fun ho => (hbusy ho).1⟩

/-- Hardware reset ends any command (R360). -/
theorem State.hardReset_busy (s : State) : s.hardReset.status.busy = false := by
  obtain ⟨e, hreset, -⟩ := State.hardReset_cases s
  rw [hreset]
  rfl

/-- Settles O52: a command that need not be in order has not completed, and one in order is still BUSY. -/
theorem unendingSourceNeverCompletes : Obligations.UnendingSourceNeverCompletes := by
  intro sym k s t hready
  have bits (hend : s.env.bitsEnding = .endless k) (hlisted : ∀ r ∈ s.env.bitsLeft, r = 0b00#2 ∨ r = 0b01#2) :
      s.env.BitsUnending := by
    refine ⟨⟨k, hend⟩, fun r hr hnone => ?_⟩
    obtain ⟨h0, h1⟩ := (bitOf_eq_none_iff r).1 hnone
    exact (hlisted r hr).elim h0 h1
  refine ⟨fun hend i hi hexec => ?_, fun hend hlisted => ⟨fun htree hexec => ?_, fun z o hparse hexec => ?_⟩,
    fun hend hserved hgrant i hi hexec => ?_, fun hend hserved hmap hheader hpresent hgrant hexec => ?_,
    fun hend hserved hlisted hgrant => ⟨fun htree hheader hexec => ?_, fun z o hparse hexec => ?_⟩,
    fun _ _ _ => State.hardReset_busy t⟩
  · have hstart : (s.accept (encode i) (commandBodies i)).Starts False s.host.grant (commandBodies i) := by
      simp only [List.mem_cons, List.not_mem_nil, or_false] at hi
      rcases hi with rfl | rfl | rfl
      · exact .count ⟨k, hend⟩ False.elim
      · exact .encode ⟨k, hend⟩ False.elim
      · exact .sessionCount ⟨k, hend⟩ False.elim
    exact (exec_unending i hready False.elim hstart hexec).1
  · exact (exec_unending (.decode sym) hready False.elim (.decode (bits hend hlisted) htree False.elim) hexec).1
  · exact (exec_unending (.decompress sym) hready False.elim
      (.sessionHeader (bits hend hlisted) ⟨z, o, hparse⟩ False.elim) hexec).1
  · have hstart : (s.accept (encode i) (commandBodies i)).Starts True s.host.grant (commandBodies i) := by
      simp only [List.mem_cons, List.not_mem_nil, or_false] at hi
      rcases hi with rfl | rfl
      · exact .count ⟨k, hend⟩ fun _ => hgrant
      · exact .sessionCount ⟨k, hend⟩ fun _ => hgrant
    exact (exec_unending i hready (fun _ => hserved) hstart hexec).2 trivial
  · exact (exec_unending (.encode sym) hready (fun _ => hserved)
      (.encode ⟨k, hend⟩ fun _ => ⟨hmap, hheader, hgrant, hpresent⟩) hexec).2 trivial
  · exact (exec_unending (.decode sym) hready (fun _ => hserved)
      (.decode (bits hend hlisted) htree fun _ => ⟨hheader, hgrant⟩) hexec).2 trivial
  · exact (exec_unending (.decompress sym) hready (fun _ => hserved)
      (.sessionHeader (bits hend hlisted) ⟨z, o, hparse⟩ fun _ => hgrant) hexec).2 trivial

end Sys2Proof.Machine
end

section
/-! PROOFS. The command word (30_encoding.md): decode and encode agree (R110, R112, R115), illegal words are refused by
name (R111, R113), and an illegal word accepted faults (R321, R340). -/

namespace Sys2Proof.Machine

/-! ## The fields of a word (R110) -/

/-- A word whose reserved bits are 0 is the command word of its own fields. -/
theorem commandWord_fields {w : Word32} (h : wordRsv w = 0#16) : commandWord (wordOp w) (wordSym w) = w := by
  have hfields : wordRsv w ++ wordSym w ++ wordOp w = w := by
    unfold wordRsv wordSym wordOp
    rw [BitVec.extractLsb'_append_extractLsb'_eq_extractLsb' (show 16 = 8 + 8 from rfl),
      BitVec.extractLsb'_append_extractLsb'_eq_extractLsb' (show 8 = 0 + 8 from rfl)]
    exact BitVec.extractLsb'_eq_self
  rw [h] at hfields
  exact hfields

/-- The command words are the words whose reserved bits are 0, one for each opcode and symbol. -/
theorem eq_commandWord_iff {w : Word32} {op : BitVec 8} {sym : Symbol} :
    w = commandWord op sym ↔ wordRsv w = 0#16 ∧ wordOp w = op ∧ wordSym w = sym := by
  constructor
  · rintro rfl
    exact ⟨wordRsv_commandWord op sym, wordOp_commandWord op sym, wordSym_commandWord op sym⟩
  · rintro ⟨hrsv, rfl, rfl⟩
    exact (commandWord_fields hrsv).symm

/-! ## The opcode map (R112) -/

theorem opcodeMap_opcode (i : Instr) : opcodeMap i.opcode i.sym = some i := by cases i <;> rfl

/-- The opcode map gives a command for its own opcode and symbol only. -/
theorem opcodeMap_eq_some_iff {op : BitVec 8} {sym : Symbol} {i : Instr} :
    opcodeMap op sym = some i ↔ op = i.opcode ∧ sym = i.sym := by
  constructor
  · intro h
    unfold opcodeMap at h
    split at h
    case h_19 => cases h
    all_goals
      next hop =>
      cases h
      exact ⟨BitVec.eq_of_toNat_eq hop, rfl⟩
  · rintro ⟨rfl, rfl⟩
    exact opcodeMap_opcode i

theorem opcode_mem_listedOpcodes (i : Instr) : i.opcode ∈ listedOpcodes := by
  cases i <;> simp [Instr.opcode, listedOpcodes]

/-- The opcodes outside the map are those that R112's table does not list. -/
theorem opcodeMap_eq_none_iff {op : BitVec 8} {sym : Symbol} : opcodeMap op sym = none ↔ op ∉ listedOpcodes := by
  constructor
  · intro hnone hop
    have hlisted : ∀ o ∈ listedOpcodes, opcodeMap o sym ≠ none := by simp [listedOpcodes, opcodeMap]
    exact hlisted op hop hnone
  · intro hop
    cases h : opcodeMap op sym with
    | none => rfl
    | some i => exact absurd ((opcodeMap_eq_some_iff.1 h).1 ▸ opcode_mem_listedOpcodes i) hop

/-! ## What a word decodes to -/

/-- The check of the reserved bits comes first (R111); past it the opcode map decides (R113). -/
theorem decode_spec (w : Word32) :
    (decode w = .reservedBits ↔ wordRsv w ≠ 0#16) ∧
    (decode w = .reservedOpcode ↔ wordRsv w = 0#16 ∧ opcodeMap (wordOp w) (wordSym w) = none) ∧
    ∀ i, decode w = .instr i ↔ wordRsv w = 0#16 ∧ opcodeMap (wordOp w) (wordSym w) = some i := by
  unfold decode
  by_cases hrsv : wordRsv w = 0#16
  · cases opcodeMap (wordOp w) (wordSym w) <;> simp [hrsv]
  · simp [hrsv]

/-- An illegal word is named by the first of the two checks that it fails, whatever its symbol (R111, R113). -/
theorem decode_illegal_iff (w : Word32) :
    (decode w = .reservedBits ↔ wordRsv w ≠ 0#16) ∧
    (decode w = .reservedOpcode ↔ wordRsv w = 0#16 ∧ wordOp w ∉ listedOpcodes) := by
  obtain ⟨hbits, hopcode, -⟩ := decode_spec w
  exact ⟨hbits, by rw [hopcode, opcodeMap_eq_none_iff]⟩

/-- Settles O1: the three fields fix the word, and the opcode and the symbol fix the command. -/
theorem decodeEncodeAgree : Obligations.DecodeEncodeAgree := by
  intro w i
  obtain ⟨-, -, hinstr⟩ := decode_spec w
  unfold encode
  rw [hinstr, opcodeMap_eq_some_iff, eq_commandWord_iff]

/-- Settles O2: reserved bits are looked at first, and the opcode map has just the listed opcodes. -/
theorem illegalWordsDecodeByName : Obligations.IllegalWordsDecodeByName := decode_illegal_iff

/-- Settles O3: each word is evaluated. -/
theorem exampleWordsDecode : Obligations.ExampleWordsDecode := by
  unfold Obligations.ExampleWordsDecode
  decide

/-! ## An illegal word accepted (R321, R340) -/

/-- An illegal word that is accepted leaves the block idle with its fault, whatever steps the sequencer is granted. -/
theorem illegalCommand_of_ready {s : State} (h : s.Ready) (w : Word32) (d : FaultByte) :
    illegalCommand w d s = (s.accept w []).raise .illegalCmd d := by
  unfold illegalCommand
  rw [State.drops_of_ready h, if_neg Bool.false_ne_true]
  exact seqRun_idle rfl _

theorem regWrite_cmd (w : Word32) (s : State) : regWrite 0x00#8 w s = presentWord w s := if_pos rfl

/-- An illegal word presented is refused by the first check it fails, that of its reserved bits before that of its
opcode (R111). -/
theorem presentWord_illegal {w : Word32} (h : wordRsv w ≠ 0#16 ∨ wordOp w ∉ listedOpcodes) (s : State) :
    presentWord w s = .next (illegalCommand w (if wordRsv w ≠ 0#16 then 1#8 else 2#8) s) := by
  obtain ⟨hbits, hopcode⟩ := decode_illegal_iff w
  unfold presentWord
  by_cases hrsv : wordRsv w ≠ 0#16
  · rw [hbits.2 hrsv, if_pos hrsv]
  · rw [hopcode.2 ⟨not_not.1 hrsv, h.resolve_left hrsv⟩, if_neg hrsv]

/-- Settles O5: the write presents the word, which is accepted and faults before any step of the sequencer. -/
theorem illegalWordFaults : Obligations.IllegalWordFaults := by
  intro s w g rest hready hq hillegal
  have hready' : (s.takeEvent { move := .write 32 0x00#8 w, grant := g } rest).Ready := hready
  rw [step_write hq (by decide), regWrite_cmd, presentWord_illegal hillegal, illegalCommand_of_ready hready']
  rfl

end Sys2Proof.Machine
end

section
/-! PROOFS. The control commands (40_control.md): what NOP, NEW_SESSION, SOFT_RESET and CLEAR_FAULT complete with
(R155-R158), CMD writes that are dropped (R150, R151), and the frame of the commands that make no port request. -/

namespace Sys2Proof.Machine

/-! ## CMD writes that are dropped (R150, R151) -/

/-- The words that pass a fault, by their fields (R150). -/
theorem passesFault_iff (w : Word32) :
    passesFault w = true ↔ wordRsv w = 0#16 ∧ (wordOp w = 0x01#8 ∨ wordOp w = 0x02#8) := by
  simp [passesFault]

/-- A word is dropped while a command runs, and while a fault stands that it does not pass (R150). -/
theorem State.drops_iff (s : State) (w : Word32) :
    s.drops w = true ↔ s.status.busy = true ∨ (s.status.fault = true ∧ ¬ passesFault w = true) := by
  simp [State.drops]

/-- A dropped word only sets DROPPED, whether it is a command's or illegal (R151). -/
theorem presentWord_dropped {w : Word32} {s : State} (h : s.drops w = true) :
    presentWord w s = .next (seqRun s.host.grant s.setDropped) := by
  have hillegal (d : FaultByte) : illegalCommand w d s = seqRun s.host.grant s.setDropped := by
    simp [illegalCommand, h]
  unfold presentWord
  cases hw : decode w with
  | instr i =>
    obtain rfl := (decodeEncodeAgree w i).1 hw
    exact exec_dropped h
  | reservedBits => exact congrArg Host.Outcome.next (hillegal 1#8)
  | reservedOpcode => exact congrArg Host.Outcome.next (hillegal 2#8)

/-- Settles O6: the write presents its word, which the block drops. -/
theorem blockedWriteIsDropped : Obligations.BlockedWriteIsDropped := by
  intro s w g rest hq hblocked
  have hdrops : (s.takeEvent { move := .write 32 0x00#8 w, grant := g } rest).drops w = true :=
    (State.drops_iff _ w).2 (hblocked.imp_right fun h => ⟨h.1, mt (passesFault_iff w).1 h.2⟩)
  rw [step_write hq (by decide), regWrite_cmd, presentWord_dropped hdrops]
  rfl

/-! ## The control commands (R155-R158) -/

/-- An accepted command with one body, which ends without a port request, completes in its first step. -/
theorem exec_of_done (i : Instr) {b : Body} {s u : State} (hdrops : s.drops (encode i) = false)
    (hgrant : 1 ≤ s.host.grant) (hbodies : commandBodies i = [b])
    (hdone : startBody b ((s.accept (encode i) [b]).enterBody b []) = .done u) : exec i s = .next u.complete := by
  have hrun : runBodies [b] (s.accept (encode i) [b]) = u.complete := by simp only [runBodies, hdone]
  rw [exec_eq, hbodies]
  exact command_portless hdrops hgrant hrun rfl

/-- Acceptance latches the command's operands, and PRIM_OP is then its opcode (R150). -/
theorem latched_encode (s : State) (i : Instr) (todo : List Body) :
    latched s (encode i) i.opcode = (s.accept (encode i) todo).cur := by
  simp [latched, encode]

/-- Settles O16: each body ends at once, and neither names itself in PRIM_OP. -/
theorem nopAndNewSessionComplete : Obligations.NopAndNewSessionComplete := by
  intro sym s hready hgrant
  have hnop : latched s (encode (.nop sym)) 0x00#8 = _ := latched_encode s (.nop sym) [.nop]
  have hsession : latched s (encode (.newSession sym)) 0x03#8 = _ := latched_encode s (.newSession sym) [.session]
  rw [hnop, hsession]
  constructor
  · exact exec_of_done (.nop sym) (State.drops_of_ready hready _) hgrant rfl rfl
  · exact exec_of_done (.newSession sym) (State.drops_of_ready hready _) hgrant rfl rfl

/-- Settles O17: SOFT_RESET passes a fault, and its body resets the block before the completion sets DONE. -/
theorem softResetCompletes : Obligations.SoftResetCompletes := by
  intro sym s hidle hgrant
  have hpasses : passesFault (encode (.softReset sym)) = true :=
    (passesFault_iff _).2 ⟨wordRsv_commandWord _ _, .inl (wordOp_commandWord _ _)⟩
  exact exec_of_done (.softReset sym) (State.drops_of_passes hidle hpasses) hgrant rfl rfl

/-- Settles O18: CLEAR_FAULT passes a fault, and its body clears it. -/
theorem clearFaultCompletes : Obligations.ClearFaultCompletes := by
  intro sym s hidle hgrant
  have hpasses : passesFault (encode (.clearFault sym)) = true :=
    (passesFault_iff _).2 ⟨wordRsv_commandWord _ _, .inr (wordOp_commandWord _ _)⟩
  have hcur : latched s (encode (.clearFault sym)) 0x02#8 = _ := latched_encode s (.clearFault sym) [.clearFault]
  rw [hcur]
  exact exec_of_done (.clearFault sym) (State.drops_of_passes hidle hpasses) hgrant rfl rfl

/-! ## The frame of the commands that make no port request -/

/-- The bodies that make port requests. -/
def portBodies : List Body := [.freqCount, .inRewind, .hdrFlatten, .hdrRecreate, .encode, .decode]

theorem waitBody_mem_portBodies (w : Wait) : waitBody w ∈ portBodies := by
  cases w <;> simp [waitBody, portBodies]

/-- Wherever a computation stops, the ports are as given. -/
def Flow.KeepsEnv (e : Env) (f : Flow) : Prop :=
  f.All (fun _ t => t.env = e) (fun t => t.env = e) (fun _ _ t => t.env = e)

/-- A body's start does not touch the ports: only a request does (R84). -/
theorem startBody_keepsEnv (b : Body) (s : State) : (startBody b s).KeepsEnv s.env := by
  cases b <;> simp only [startBody]
  case treeBuild =>
    obtain ⟨f, w, -, hbody⟩ := bodyTreeBuild_eq s
    rw [hbody]
    rfl
  case hdrFlatten =>
    unfold bodyHdrFlatten
    split
    · rfl
    · split <;> rfl
  case hdrRecreate =>
    unfold bodyHdrRecreate
    split <;> rfl
  case mapBuild =>
    unfold bodyMapBuild
    split
    · rfl
    · dsimp only
      split <;> rfl
  case mapRead =>
    unfold bodyMapRead
    split <;> rfl
  case encode =>
    unfold bodyEncode
    split
    · split <;> rfl
    · rfl
  case decode =>
    unfold bodyDecode
    split
    · rfl
    · split <;> rfl
    · split
      · unfold leafLoop
        split <;> rfl
      · rfl
    · split <;> rfl
  all_goals rfl

/-- A body that makes no port request ends the command, completed or faulted, having written only what its rule names,
with the ports untouched, and STATUS, FAULTOP and the operands as they were unless it is one of the two that reset
them. -/
theorem runBodies_portless {b : Body} (hb : b ∉ portBodies) (s : State) :
    ∃ u, (runBodies [b] s = u.complete ∨ ∃ name d, runBodies [b] s = u.raise name d) ∧
      FramedBy (bodyParts b) s u ∧ u.env = s.env ∧
      (b ≠ .softReset → b ≠ .clearFault → Quiet (s.enterBody b []) u) := by
  have hwithin := startBody_within b (s.enterBody b [])
  have henv := startBody_keepsEnv b (s.enterBody b [])
  have henter := framedBy_enterBody (bodyParts b) s b []
  cases hstart : startBody b (s.enterBody b []) with
  | ask w u =>
    rw [hstart] at hwithin
    exact absurd (hwithin.1 ▸ waitBody_mem_portBodies w) hb
  | done u =>
    rw [hstart] at hwithin henv
    exact ⟨u, .inl (by simp only [runBodies, hstart]), henter.trans hwithin.1, henv, hwithin.2⟩
  | raise name d u =>
    rw [hstart] at hwithin henv
    exact ⟨u, .inr ⟨name, d, by simp only [runBodies, hstart]⟩, henter.trans hwithin.1, henv, fun _ _ => hwithin.2⟩

/-- A command whose body leaves STATUS and the operands as acceptance set them keeps them to its end (R150, R153,
R340). -/
theorem statusFramed_ended {i : Instr} {todo : List Body} {b : Body} {s t u : State}
    (hquiet : Quiet ((s.accept (encode i) todo).enterBody b []) u)
    (hend : t = u.complete ∨ ∃ name d, t = u.raise name d) : StatusFramed i s t := by
  obtain ⟨hstatus, hop, hcur, -⟩ := hquiet
  rcases hend with rfl | ⟨name, d, rfl⟩ <;> simp [StatusFramed, hstatus, hop, hcur, encode]

theorem statusFramed_accept (i : Instr) (todo : List Body) (s : State) :
    StatusFramed i s (s.accept (encode i) todo) := by
  simp [StatusFramed, encode]

/-- All that a command with one body and no port request can come to while no other runs: it is dropped, or it is
accepted and granted no step, or it has ended. -/
theorem exec_portless_cases {i : Instr} {b : Body} {s t : State} (hbodies : commandBodies i = [b]) (hb : b ∉ portBodies)
    (hidle : s.status.busy = false) (hexec : exec i s = .next t) :
    (s.status.fault = true ∧ t = s.setDropped) ∨ t = s.accept (encode i) [b] ∨
    ∃ u, (t = u.complete ∨ ∃ name d, t = u.raise name d) ∧ FramedBy (bodyParts b) (s.accept (encode i) [b]) u ∧
      u.env = s.env ∧
      (b ≠ .softReset → b ≠ .clearFault → Quiet ((s.accept (encode i) [b]).enterBody b []) u) := by
  cases hdrops : s.drops (encode i) with
  | true =>
    obtain ⟨hfault, -⟩ := ((State.drops_iff s _).1 hdrops).resolve_left (Bool.eq_false_iff.1 hidle)
    rw [exec_dropped hdrops, seqRun_idle (s := s.setDropped) hidle] at hexec
    injection hexec with ht
    exact .inl ⟨hfault, ht.symm⟩
  | false =>
    rw [exec_accepted hdrops, hbodies] at hexec
    injection hexec with ht
    cases hgrant : s.host.grant with
    | zero => exact .inr (.inl (by rw [← ht, hgrant, seqRun_zero]))
    | succ n =>
      obtain ⟨u, hend, hwritten⟩ := runBodies_portless hb (s.accept (encode i) [b])
      rw [hgrant, seqRun_accept] at ht
      refine .inr (.inr ⟨u, ?_, hwritten⟩)
      rcases hend with hend | ⟨name, d, hend⟩
      · exact .inl (by rw [← ht, hend, seqRun_idle rfl])
      · exact .inr ⟨name, d, by rw [← ht, hend, seqRun_idle rfl]⟩

/-- The commands without port requests have one body each, and only two of them reset STATUS. -/
theorem commandBodies_portless {sym : Symbol} {i : Instr}
    (hi : i ∈ [Instr.nop sym, .softReset sym, .clearFault sym, .newSession sym, .freqClear sym, .freqWrite sym,
      .freqRead sym, .treeBuild sym, .mapBuild sym, .mapRead sym]) :
    ∃ b, commandBodies i = [b] ∧ b ∉ portBodies ∧
      (i ∉ [Instr.softReset sym, .clearFault sym] → b ≠ .softReset ∧ b ≠ .clearFault) := by
  simp only [List.mem_cons, List.not_mem_nil, or_false] at hi
  rcases hi with rfl | rfl | rfl | rfl | rfl | rfl | rfl | rfl | rfl | rfl <;>
    exact ⟨_, rfl, by decide, by simp⟩

/-- Settles O53: the frame of the one body, with what acceptance, completion and fault entry write. -/
theorem frameOfPortlessCommands : Obligations.FrameOfPortlessCommands := by
  intro sym s t i hi hidle hexec
  obtain ⟨b, hbodies, hb, hquiets⟩ := commandBodies_portless hi
  have hparts : bodyParts b ⊆ mayWrite i := commandBodies_parts i b (by simp [hbodies])
  rcases exec_portless_cases hbodies hb hidle hexec with ⟨hfault, rfl⟩ | rfl | ⟨u, hend, hframe, henv, hquiet⟩
  · exact ⟨framedBy_setDropped _ s, rfl, fun h => absurd hfault (by simp [h])⟩
  · exact ⟨framedBy_accept _ s _ _, rfl, fun _ _ => statusFramed_accept i [b] s⟩
  · have hlast : FramedBy (mayWrite i) u t ∧ t.env = u.env := by
      rcases hend with rfl | ⟨name, d, rfl⟩
      · exact ⟨framedBy_complete _ u, rfl⟩
      · exact ⟨framedBy_raise _ u name d, rfl⟩
    refine ⟨(framedBy_accept _ s _ _).trans ((hframe.mono hparts).trans hlast.1), hlast.2.trans henv, fun _ hne => ?_⟩
    obtain ⟨hreset, hclear⟩ := hquiets hne
    exact statusFramed_ended (hquiet hreset hclear) hend

end Sys2Proof.Machine
end

section
/-! PROOFS. The frequency table commands (41_frequency.md): what FREQ_CLEAR, FREQ_WRITE, FREQ_READ and FREQ_COUNT complete
with (R170-R173), and the frame of the commands that make port requests. -/

namespace Sys2Proof.Machine

/-! ## The commands that make no port request (R170, R172, R173) -/

/-- Settles O19: the body ends at once with the table of zeros. -/
theorem freqClearCompletes : Obligations.FreqClearCompletes := by
  intro sym s hready hgrant
  exact ⟨_, exec_of_done (.freqClear sym) (State.drops_of_ready hready _) hgrant rfl rfl, symGet_zeroFreq, rfl⟩

/-- Settles O20: the counter written is the one of the symbol latched at acceptance. -/
theorem freqWriteCompletes : Obligations.FreqWriteCompletes := by
  intro sym s hready hgrant
  have hsym : wordSym (encode (.freqWrite sym)) = sym := wordSym_commandWord _ _
  refine ⟨_, exec_of_done (.freqWrite sym) (State.drops_of_ready hready _) hgrant rfl rfl, fun b => ?_, rfl⟩
  show symGet (symSet s.freq (wordSym (encode (.freqWrite sym))) s.arg) b = _
  rw [hsym, symGet_symSet]

/-- Settles O21: the counter read is the one of the symbol latched at acceptance, and RESULT is wide enough for it. -/
theorem freqReadCompletes : Obligations.FreqReadCompletes := by
  intro sym s hready hgrant
  have hsym : wordSym (encode (.freqRead sym)) = sym := wordSym_commandWord _ _
  refine ⟨_, exec_of_done (.freqRead sym) (State.drops_of_ready hready _) hgrant rfl rfl, ?_, rfl⟩
  show ((symGet s.freq (wordSym (encode (.freqRead sym)))).zeroExtend 64).toNat = _
  rw [hsym]
  exact BitVec.toNat_setWidth_of_le (by decide)

/-! ## FREQ_COUNT (R171) -/

/-- Settles O22: the loop counts the bytes left into a cleared table; counts that fit their counters bound the length. -/
theorem freqCountCompletes : Obligations.FreqCountCompletes := by
  intro sym s hready hserved hends hfit hgrant
  obtain ⟨r, hrun⟩ := run_freqCount [] (s := s.accept (encode (.freqCount sym)) [.freqCount]) 0 rfl hserved hends hfit
  have hsteps : 0 + (2 * s.env.bytesLeft.length + 2) + 1 ≤ s.host.grant := by
    unfold countSteps at hgrant
    omega
  refine ⟨_, exec_completes (.freqCount sym) hready hsteps hrun, fun b => ?_, ?_, rfl⟩
  · show (symGet (countInto zeroFreq s.env.bytesLeft) b).toNat = _
    rw [countInto_zeroFreq, symGet_countTable]
    exact Nat.mod_eq_of_lt (hfit b)
  · exact Nat.mod_eq_of_lt (length_of_counts hfit)

/-! ## The frame of the commands that make port requests -/

/-- The bodies a running command is still to go through: the one whose request stands or whose reply is in hand, then
those still to start. -/
def Run.bodies (r : Run) : List Body :=
  match r.phase with
  | .asking w => waitBody w :: r.todo
  | .answered reply => replyBody reply :: r.todo
  | _ => r.todo

theorem Run.bodies_begin {r : Run} (h : r.phase = .begin) : r.bodies = r.todo := by rw [Run.bodies, h]

theorem Run.bodies_asking {r : Run} {w : Wait} (h : r.phase = .asking w) : r.bodies = waitBody w :: r.todo := by
  rw [Run.bodies, h]

theorem Run.bodies_answered {r : Run} {reply : Reply} (h : r.phase = .answered reply) :
    r.bodies = replyBody reply :: r.todo := by
  rw [Run.bodies, h]

/-- What a command leaves as it was at its acceptance from `s`: the parts its rule does not name, the host, STATUS and the
operands. -/
def KeptFrom (i : Instr) (s t : State) : Prop := Framed i s t ∧ StatusFramed i s t

theorem keptFrom_accept (i : Instr) (s : State) (todo : List Body) : KeptFrom i s (s.accept (encode i) todo) :=
  ⟨framedBy_accept _ s _ _, statusFramed_accept i todo s⟩

theorem Quiet.todo {t u : State} (h : Quiet t u) : u.run.todo = t.run.todo := h.2.2.2

/-- A computation of one of the command's bodies writes no part beyond those the command's rule names. -/
theorem KeptFrom.of_framedBy {i : Instr} {b : Body} {s t u : State} (h : KeptFrom i s t) (hb : b ∈ commandBodies i)
    (hframe : FramedBy (bodyParts b) t u) (hquiet : Quiet t u) : KeptFrom i s u := by
  obtain ⟨hparts, hstatus⟩ := h
  obtain ⟨hst, hop, hcur, -⟩ := hquiet
  exact ⟨FramedBy.trans hparts (hframe.mono (commandBodies_parts i b hb)),
    by simpa only [StatusFramed, hst, hop, hcur] using hstatus⟩

/-- Taking a fault writes the fault fields, and of the rest nothing the frame speaks of (R340). -/
theorem KeptFrom.raise {i : Instr} {s t : State} (h : KeptFrom i s t) (name : FaultName) (d : FaultByte) :
    KeptFrom i s (t.raise name d) := by
  obtain ⟨hparts, hdropped, -, hoperands⟩ := h
  exact ⟨FramedBy.trans hparts (framedBy_raise _ t name d), hdropped, (nomatch ·), hoperands⟩

theorem KeptFrom.setAsking {i : Instr} {s t : State} (h : KeptFrom i s t) (w : Wait) : KeptFrom i s (t.setAsking w) :=
  ⟨FramedBy.trans h.1 (framedBy_setAsking _ t w), h.2⟩

theorem KeptFrom.complete {i : Instr} {s t : State} (h : KeptFrom i s t) : KeptFrom i s t.complete :=
  ⟨FramedBy.trans h.1 (framedBy_complete _ t), h.2⟩

theorem KeptFrom.enterBody {i : Instr} {s t : State} (h : KeptFrom i s t) (b : Body) (todo : List Body) :
    KeptFrom i s (t.enterBody b todo) :=
  ⟨FramedBy.trans h.1 (framedBy_enterBody _ t b todo), h.2⟩

/-- A point of the run of command `i`, accepted in state `s`: only its own bodies are to come, and the frame holds. -/
def RunsFrom (i : Instr) (s t : State) : Prop := KeptFrom i s t ∧ t.run.bodies ⊆ commandBodies i

/-- What holds between two bodies of the command: those still to start are its own, and the frame holds. -/
def StartsFrom (i : Instr) (s : State) (todo : List Body) (t : State) : Prop :=
  KeptFrom i s t ∧ todo ⊆ commandBodies i

/-- The commands none of whose bodies resets STATUS. -/
def KeepsStatus (i : Instr) : Prop := .softReset ∉ commandBodies i ∧ .clearFault ∉ commandBodies i

/-- A computation of one of the command's bodies keeps the frame, wherever it stops. -/
theorem Flow.Within.runsFrom {i : Instr} {b : Body} {s t : State} {f : Flow} (h : f.Within b t) (hi : KeepsStatus i)
    (hb : b ∈ commandBodies i) (ht : StartsFrom i s t.run.todo t) :
    f.All (fun w u => RunsFrom i s (u.setAsking w)) (fun u => u.run.todo = t.run.todo ∧ StartsFrom i s u.run.todo u)
      (fun name d u => RunsFrom i s (u.raise name d)) := by
  obtain ⟨hkept, htodo⟩ := ht
  refine Flow.All.imp h (fun w u hu => ?_) (fun u hu => ?_) (fun name d u hu => ?_)
  · obtain ⟨rfl, hframe, hquiet⟩ := hu
    exact ⟨(hkept.of_framedBy hb hframe hquiet).setAsking w, List.cons_subset.2 ⟨hb, hquiet.todo ▸ htodo⟩⟩
  · obtain ⟨hframe, hquiet⟩ := hu
    have hquiet := hquiet (ne_of_mem_of_not_mem hb hi.1) (ne_of_mem_of_not_mem hb hi.2)
    exact ⟨hquiet.todo, hkept.of_framedBy hb hframe hquiet, hquiet.todo ▸ htodo⟩
  · obtain ⟨hframe, hquiet⟩ := hu
    exact ⟨(hkept.of_framedBy hb hframe hquiet).raise name d, List.nil_subset _⟩

/-- Every step of the sequencer keeps the frame of the command that runs. -/
theorem seqStep_keeps_runsFrom {i : Instr} {s : State} (hi : KeepsStatus i) (t : State) (ht : RunsFrom i s t) :
    RunsFrom i s (seqStep t) := by
  refine seqStep_keeps (M := StartsFrom i s) (fun t ht hp => ?_) (fun t w r e ht hp hserve => ?_) (fun t r ht hp => ?_)
    (fun b todo t ht => ?_) (fun t ht => ⟨ht.1.complete, List.nil_subset _⟩) t ht
  · exact ⟨ht.1, Run.bodies_begin hp ▸ ht.2⟩
  · obtain ⟨hkept, hbodies⟩ := ht
    rw [Run.bodies_asking hp] at hbodies
    obtain ⟨hbody, hframe⟩ := serve_within hserve
    refine ⟨hkept.of_framedBy (List.cons_subset.1 hbodies).1 hframe ⟨rfl, rfl, rfl, rfl⟩, ?_⟩
    rw [Run.bodies_answered (reply := r) rfl, hbody]
    exact hbodies
  · obtain ⟨hkept, hbodies⟩ := ht
    rw [Run.bodies_answered hp] at hbodies
    obtain ⟨hbody, htodo⟩ := List.cons_subset.1 hbodies
    exact Flow.All.imp ((resume_within r t).runsFrom hi hbody ⟨hkept, htodo⟩) (fun _ _ h => h) (fun _ h => h.2)
      fun _ _ _ h => h
  · obtain ⟨hkept, hbodies⟩ := ht
    obtain ⟨hbody, htodo⟩ := List.cons_subset.1 hbodies
    exact Flow.All.imp ((startBody_within b _).runsFrom hi hbody ⟨hkept.enterBody b todo, htodo⟩) (fun _ _ h => h)
      (fun _ h => ⟨h.2.1, htodo⟩) fun _ _ _ h => h

/-- The frame of a command accepted in any state, at every moment of its run. -/
theorem runsFrom_of_accepted {i : Instr} (hi : KeepsStatus i) (s : State) (n : Nat) :
    RunsFrom i s (seqRun n (s.accept (encode i) (commandBodies i))) :=
  seqRun_keeps (fun t ht _ => seqStep_keeps_runsFrom hi t ht) n ⟨keptFrom_accept i s _, List.Subset.refl _⟩

/-- The commands with port requests have no body that resets STATUS. -/
theorem keepsStatus_of_port {sym : Symbol} {i : Instr}
    (hi : i ∈ [Instr.freqCount sym, .inRewind sym, .hdrFlatten sym, .hdrRecreate sym, .encode sym, .decode sym,
      .compress sym, .decompress sym]) : KeepsStatus i := by
  simp only [List.mem_cons, List.not_mem_nil, or_false] at hi
  rcases hi with rfl | rfl | rfl | rfl | rfl | rfl | rfl | rfl <;> simp [KeepsStatus, commandBodies]

/-- All that a command can come to while no other runs: it is dropped, where a fault stands, or it is accepted and runs
as far as it is granted steps (R150). -/
theorem exec_idle_cases {i : Instr} {s t : State} (hidle : s.status.busy = false) (hexec : exec i s = .next t) :
    (s.status.fault = true ∧ t = s.setDropped) ∨ t = seqRun s.host.grant (s.accept (encode i) (commandBodies i)) := by
  cases hdrops : s.drops (encode i) with
  | true =>
    obtain ⟨hfault, -⟩ := ((State.drops_iff s _).1 hdrops).resolve_left (Bool.eq_false_iff.1 hidle)
    rw [exec_dropped hdrops, seqRun_idle (s := s.setDropped) hidle] at hexec
    injection hexec with ht
    exact .inl ⟨hfault, ht.symm⟩
  | false =>
    rw [exec_accepted hdrops] at hexec
    injection hexec with ht
    exact .inr ht.symm

/-- Settles O54: a command that is dropped only sets DROPPED, and one that is accepted keeps its frame at every step. -/
theorem frameOfPortCommands : Obligations.FrameOfPortCommands := by
  intro sym s t i hi hidle hexec
  rcases exec_idle_cases hidle hexec with ⟨hfault, rfl⟩ | rfl
  · exact ⟨framedBy_setDropped _ s, fun h => absurd hfault (Bool.eq_false_iff.1 h)⟩
  · obtain ⟨⟨hframed, hstatus⟩, -⟩ := runsFrom_of_accepted (keepsStatus_of_port hi) s s.host.grant
    exact ⟨hframed, fun _ => hstatus⟩

end Sys2Proof.Machine
end

section
/-! PROOFS. The tree builder (42_tree_builder.md): which entry a dequeue takes (R191, R192), the forest of the leaves
(R190, R194, R195), what TREE_BUILD completes with (R193, R200), and the optimality of its codes (R201). -/

namespace Sys2Proof.Machine

/-! ## The dequeue (R191, R192) -/

theorem not_precedes_iff (x m : Entry) :
    ¬ precedes x m ↔ m.weight.toNat < x.weight.toNat ∨ (m.weight = x.weight ∧ m.seq.toNat ≤ x.seq.toNat) := by
  rw [precedes_iff, ← BitVec.toNat_inj, ← BitVec.toNat_inj]
  omega

theorem not_precedes_trans {a b c : Entry} (hba : ¬ precedes b a) (hcb : ¬ precedes c b) : ¬ precedes c a := by
  simp only [precedes_iff, ← BitVec.toNat_inj] at *
  omega

theorem not_precedes_of_precedes {a b : Entry} (h : precedes a b) : ¬ precedes b a := by
  simp only [precedes_iff, ← BitVec.toNat_inj] at *
  omega

/-- The candidate for the minimum only moves down the priority order, and every entry passed over stays above it. -/
theorem extractMin_least (e : Entry) (l : List Entry) :
    ¬ precedes e (extractMin e l).1 ∧ ∀ x ∈ (extractMin e l).2, ¬ precedes x (extractMin e l).1 := by
  induction l generalizing e with
  | nil => simp [extractMin, precedes_iff]
  | cons x l ih =>
    unfold extractMin
    split
    next hx =>
      obtain ⟨hleast, hrest⟩ := ih x
      have he := not_precedes_trans hleast (not_precedes_of_precedes hx)
      exact ⟨he, List.forall_mem_cons.2 ⟨he, hrest⟩⟩
    next hx =>
      obtain ⟨hleast, hrest⟩ := ih e
      exact ⟨hleast, List.forall_mem_cons.2 ⟨not_precedes_trans hleast hx, hrest⟩⟩

theorem dequeueMin_cons (f : Forest) {e : Entry} {l : List Entry} (h : f.entries = e :: l) :
    dequeueMin f = some ((extractMin e l).1, { f with entries := (extractMin e l).2 }) := by
  unfold dequeueMin
  rw [h]

theorem dequeueMin_nil {f : Forest} (h : f.entries = []) : dequeueMin f = none := by
  unfold dequeueMin
  rw [h]

theorem dequeueMin_least {f f' : Forest} {m : Entry} (h : dequeueMin f = some (m, f')) :
    ∀ x ∈ f'.entries, ¬ precedes x m := by
  cases he : f.entries with
  | nil => simp [dequeueMin_nil he] at h
  | cons e l =>
    rw [dequeueMin_cons f he] at h
    cases h
    exact (extractMin_least e l).2

/-- Settles O26: no entry left precedes the one taken. -/
theorem dequeueTakesMinimum : Obligations.DequeueTakesMinimum := by
  intro f f' m h
  obtain ⟨hperm, hnext⟩ := dequeueMin_perm h
  exact ⟨hperm, hnext, fun x hx => (not_precedes_iff x m).1 (dequeueMin_least h x hx)⟩

/-! ## The leaves (R190, R194, R195) -/

theorem mem_presentSymbols (freq : Vector Count 256) (b : Symbol) :
    b ∈ presentSymbols freq ↔ symGet freq b ≠ 0#32 := by
  simp [presentSymbols, mem_leafOrder]

theorem presentSymbols_nodup (freq : Vector Count 256) : (presentSymbols freq).Nodup := leafOrder_nodup.filter _

/-- A weight is wide enough for every count. -/
theorem weightOfCount_toNat (c : Count) : (c.zeroExtend 40 : Weight).toNat = c.toNat :=
  BitVec.toNat_setWidth_of_le (by decide)

theorem leafForest_trees_weights (freq : Vector Count 256) :
    (leafForest freq).entries.map (fun e => (e.tree, e.weight)) =
      (presentSymbols freq).map fun b => (Tree.leaf b, (symGet freq b).zeroExtend 40) :=
  foldl_enqueueLeaf freq Config.leafOrder Forest.empty

theorem leafForest_weights (freq : Vector Count 256) :
    (leafForest freq).entries.map (·.weight.toNat) = (presentSymbols freq).map fun b => (symGet freq b).toNat := by
  have h := congrArg (List.map fun p : Tree × Weight => p.2.toNat) (leafForest_trees_weights freq)
  simpa only [List.map_map, Function.comp_def, weightOfCount_toNat] using h

/-- The leaves enqueued take consecutive sequence numbers from SEQ on. -/
theorem foldl_enqueueLeaf_seq (freq : Vector Count 256) (l : List Symbol) (f : Forest) :
    (l.foldl (enqueueLeaf freq) f).entries.map (·.seq) = f.entries.map (·.seq) ++
      (List.range (l.filter fun b => decide (symGet freq b ≠ 0#32)).length).map fun i => f.next + BitVec.ofNat 9 i := by
  induction l generalizing f with
  | nil => simp
  | cons b l ih =>
    rw [List.foldl_cons, ih]
    by_cases h : symGet freq b = 0#32
    · simp [enqueueLeaf, h]
    · have hnext : ∀ i, f.next + 1#9 + BitVec.ofNat 9 i = f.next + BitVec.ofNat 9 (i + 1) := fun i => by
        rw [BitVec.add_assoc, Nat.add_comm i 1, BitVec.ofNat_add]
      simp [enqueueLeaf, enqueue, h, hnext, List.range_succ_eq_map, Function.comp_def]

/-- There are no more leaves than sequence numbers, so each leaf's number is its place. -/
theorem leafForest_seqs (freq : Vector Count 256) :
    (leafForest freq).entries.map (·.seq.toNat) = List.range (presentSymbols freq).length := by
  have hseqs : (leafForest freq).entries.map (·.seq) =
      (List.range (presentSymbols freq).length).map fun i => 0#9 + BitVec.ofNat 9 i :=
    foldl_enqueueLeaf_seq freq Config.leafOrder Forest.empty
  have hplace : ∀ i ∈ List.range (presentSymbols freq).length, (0#9 + BitVec.ofNat 9 i).toNat = i := fun i hi => by
    have hmost := presentSymbols_length freq
    have hlt := List.mem_range.1 hi
    rw [BitVec.zero_add, BitVec.toNat_ofNat, Nat.mod_eq_of_lt (by omega)]
  calc (leafForest freq).entries.map (·.seq.toNat)
      = (List.range (presentSymbols freq).length).map fun i => (0#9 + BitVec.ofNat 9 i).toNat := by
        simpa only [List.map_map, Function.comp_def] using congrArg (List.map BitVec.toNat) hseqs
    _ = (List.range (presentSymbols freq).length).map id := List.map_congr_left hplace
    _ = List.range (presentSymbols freq).length := List.map_id _

/-- Settles O27: the leaves are enqueued along LEAF_ORDER, which has every symbol once. -/
theorem leavesInSymbolOrder : Obligations.LeavesInSymbolOrder := by
  intro freq
  have htrees := congrArg (List.map Prod.fst) (leafForest_trees_weights freq)
  refine ⟨?_, leafForest_weights freq, leafForest_seqs freq, mem_presentSymbols freq⟩
  simpa only [List.map_map, Function.comp_def] using htrees

/-! ## The merges and TREE_BUILD (R193, R200) -/

theorem mergeLoop_succ (n : Nat) {f f1 f2 : Forest} {a b : Entry} (ha : dequeueMin f = some (a, f1))
    (hb : dequeueMin f1 = some (b, f2)) : mergeLoop (n + 1) f = mergeLoop n (enqueueMerged f2 a b) := by
  simp only [mergeLoop, ha, hb]

theorem mergeLoop_stop (n : Nat) {f : Forest} (h : f.entries.length ≤ 1) : mergeLoop n f = f := by
  cases n with
  | zero => rfl
  | succ n =>
    cases he : f.entries with
    | nil => simp only [mergeLoop, dequeueMin_nil he]
    | cons e l =>
      obtain rfl : l = [] := by simpa [he] using h
      have hlast : dequeueMin { f with entries := [] } = none := dequeueMin_nil rfl
      simp only [mergeLoop, dequeueMin_cons f he, extractMin, hlast]

theorem mergedForest_length (freq : Vector Count 256) : (mergedForest freq).entries.length ≤ 1 := by
  rcases mergedForest_cases freq with ⟨-, hempty⟩ | ⟨e, hone, -, -⟩
  · simp [hempty]
  · simp [hone]

/-- The tree of the last entry is the one TREE_BUILD stores. -/
theorem builtStore_of_mergedForest {freq : Vector Count 256} {e : Entry} (h : (mergedForest freq).entries = [e]) :
    builtStore freq = storeTree e.tree := by
  simp only [builtStore, dequeueMin_cons _ h, extractMin]

theorem storeLeaves_builtStore_le (freq : Vector Count 256) : storeLeaves (builtStore freq) ≤ 256 := by
  rcases builtStore_cases freq with ⟨-, hempty⟩ | ⟨r, hstore, hperm⟩
  · simp [hempty, storeLeaves, storeRoot]
  · rw [hstore, storeLeaves_storeTree, hperm.length_eq]
    exact presentSymbols_length freq

/-- Settles O28: a merge enqueues what the two dequeues gave, the loop stops at one entry, and the body asks for nothing,
so the command ends in its first step with a tree that TREEINFO is wide enough for. -/
theorem treeBuildCompletes : Obligations.TreeBuildCompletes := by
  refine ⟨?merges, fun n f hone => mergeLoop_stop n hone, fun freq => ⟨_, rfl, mergedForest_length freq⟩,
    fun freq e hone => builtStore_of_mergedForest hone, ?completes⟩
  case merges =>
    intro n f f1 f2 a b ha hb
    have hnext : f2.next = f.next := (dequeueMin_perm hb).2.trans (dequeueMin_perm ha).2
    refine ⟨{ tree := .node a.tree b.tree, weight := a.weight + b.weight, seq := f2.next }, enqueueMerged f2 a b,
      mergeLoop_succ n ha hb, List.perm_append_singleton _ _, congrArg (· + 1#9) hnext, rfl, hnext, fun hfits => ?_⟩
    rw [BitVec.toNat_add, Nat.mod_eq_of_lt hfits]
  case completes =>
    intro sym s hready hgrant
    obtain ⟨r, w, hw, hrun⟩ := run_treeBuild [] (s.accept (encode (.treeBuild sym)) [.treeBuild])
    refine ⟨_, exec_completes (.treeBuild sym) (n := 0) hready hgrant hrun, rfl, hw, ?_, ?_, rfl⟩
    · exact Nat.mod_eq_of_lt ((storeNodes_builtStore_le s.freq).trans_lt (by decide))
    · exact Nat.mod_eq_of_lt ((storeLeaves_builtStore_le s.freq).trans_lt (by decide))

/-! ## Optimality (R201) -/

/-- The present symbols' counts, each with the length of the symbol's code. -/
def countedLengths (freq : Vector Count 256) (code : Symbol → List Bit) : List (Nat × Nat) :=
  (presentSymbols freq).map fun b => ((symGet freq b).toNat, (code b).length)

theorem costOf_countedLengths (freq : Vector Count 256) (code : Symbol → List Bit) :
    costOf (countedLengths freq code) = codeCost freq code := by
  simp only [costOf, countedLengths, codeCost, List.map_map, Function.comp_def]

theorem countedLengths_counts (freq : Vector Count 256) (code : Symbol → List Bit) :
    (countedLengths freq code).map (·.1) = (leafForest freq).entries.map (·.weight.toNat) := by
  simp only [countedLengths, leafForest_weights, List.map_map, Function.comp_def]

/-- Codes of which none begins another's make a `PrefixCode`, read along the present symbols. -/
theorem prefixCode_presentSymbols {freq : Vector Count 256} {code : Symbol → List Bit}
    (h : ∀ a ∈ presentSymbols freq, ∀ b ∈ presentSymbols freq, a ≠ b → ¬ code a <+: code b) :
    PrefixCode ((presentSymbols freq).map code) :=
  List.pairwise_map.2 ((presentSymbols_nodup freq).pairwise_of_forall_ne fun a ha b hb hne =>
    ⟨h a ha b hb hne, h b hb a ha hne.symm⟩)

/-- A `PrefixCode` of the present symbols meets Kraft's inequality, on the scale of its total length. -/
theorem kraft_countedLengths {freq : Vector Count 256} {code : Symbol → List Bit}
    (hprefix : PrefixCode ((presentSymbols freq).map code)) :
    ∃ n, kraftSum n ((countedLengths freq code).map (·.2)) ≤ 2 ^ n ∧
      ∀ m ∈ (countedLengths freq code).map (·.2), m ≤ n := by
  have hlens : (countedLengths freq code).map (·.2) = ((presentSymbols freq).map code).map (·.length) := by
    simp only [countedLengths, List.map_map, Function.comp_def]
  rw [hlens]
  refine ⟨(((presentSymbols freq).map code).map (·.length)).sum, kraft_of_prefixCode _ _ hprefix fun c hc => ?_,
    fun m hm => List.le_sum_of_mem hm⟩
  exact List.le_sum_of_mem (List.mem_map_of_mem hc)

theorem leafForest_leaf {freq : Vector Count 256} {e : Entry} (he : e ∈ (leafForest freq).entries) :
    ∃ b, e.tree = .leaf b ∧ e.weight.toNat = (symGet freq b).toNat := by
  have hmem := List.mem_map_of_mem (f := fun e : Entry => (e.tree, e.weight)) he
  rw [leafForest_trees_weights] at hmem
  obtain ⟨b, -, hb⟩ := List.mem_map.1 hmem
  obtain ⟨htree, hweight⟩ := Prod.mk.inj hb
  exact ⟨b, htree.symm, by rw [← hweight, weightOfCount_toNat]⟩

theorem forestCost_leafForest (freq : Vector Count 256) (count : Symbol → Nat) :
    forestCost count (leafForest freq).entries = 0 := by
  refine List.sum_eq_zero fun c hc => ?_
  obtain ⟨e, he, rfl⟩ := List.mem_map.1 hc
  obtain ⟨b, htree, -⟩ := leafForest_leaf he
  rw [htree, treeCost]

/-- The merges of a table's leaves cost no more than any `PrefixCode` of the present symbols. -/
theorem mergedForest_cost_le {freq : Vector Count 256} {code : Symbol → List Bit} (hsome : presentSymbols freq ≠ [])
    (hprefix : PrefixCode ((presentSymbols freq).map code)) :
    ∃ e, (mergedForest freq).entries = [e] ∧ treeCost (fun b => (symGet freq b).toNat) e.tree ≤ codeCost freq code := by
  obtain ⟨n, hkraft, hn⟩ := kraft_countedLengths hprefix
  have hne : (leafForest freq).entries ≠ [] := by
    rwa [← List.length_pos_iff, leafForest_length, List.length_pos_iff]
  have hfits : forestWeight (leafForest freq).entries < 2 ^ 40 := forestWeight_leafForest freq ▸ freqSum_lt freq
  have hleaves : ∀ e ∈ (leafForest freq).entries,
      e.weight.toNat = leafCount (fun b => (symGet freq b).toNat) e.tree := fun e he => by
    obtain ⟨b, htree, hweight⟩ := leafForest_leaf he
    rw [htree, hweight, leafCount]
  obtain ⟨e, hone, hcost⟩ := mergeLoop_cost _ n _ (leafForest freq) _ hne (Nat.le_succ _) hfits hleaves
    (.of_eq (countedLengths_counts freq code)) hkraft hn
  refine ⟨e, hone, ?_⟩
  rwa [forestCost_leafForest, Nat.zero_add, costOf_countedLengths] at hcost

/-- The codes that MAP_BUILD takes from a stored tree of the present symbols cost what the tree's merges do. -/
theorem codeCost_mapOf {freq : Vector Count 256} {r : Tree} (hperm : (treeLeaves r).Perm (presentSymbols freq)) :
    codeCost freq (fun b => (symGet (mapOf (storeTree r)).1 b).code) =
      treeCost (fun b => (symGet freq b).toNat) r := by
  have hdistinct : (treeLeaves r).Nodup := hperm.nodup_iff.2 (presentSymbols_nodup freq)
  obtain ⟨-, hcodes, -, -⟩ := mapOf_distinct (storeTree r) fun r' hr' => by
    rw [storeRoot_storeTree] at hr'
    exact Option.some.inj hr' ▸ hdistinct
  rw [treeCost_paths _ r hdistinct fun b => (symGet (mapOf (storeTree r)).1 b).code]
  · exact (hperm.symm.map _).sum_eq
  · intro b hb
    obtain ⟨p, hp⟩ := (mem_treeLeaves_iff r b).1 hb
    rwa [(hcodes b p).2 ⟨r, storeRoot_storeTree r, hp⟩]

/-- Settles O39: the built tree's codes cost what its merges cost, and the merges cost no more than any
`PrefixCode`. -/
theorem builtCodesAreOptimal : Obligations.BuiltCodesAreOptimal := by
  intro freq code hprefix
  rcases mergedForest_cases freq with ⟨hnone, -⟩ | ⟨e, hone, hperm, -⟩
  · simp [codeCost, hnone]
  · have hsome : presentSymbols freq ≠ [] :=
      List.length_pos_iff.1 (hperm.length_eq ▸ treeLeaves_length_pos e.tree)
    obtain ⟨e', hone', hcost⟩ := mergedForest_cost_le hsome (prefixCode_presentSymbols hprefix)
    obtain rfl : e = e' := List.singleton_inj.1 (hone.symm.trans hone')
    rw [builtStore_of_mergedForest hone, codeCost_mapOf hperm]
    exact hcost

end Sys2Proof.Machine
end

section
/-! PROOFS. The header codec (43_header_codec.md): the headers that the parser accepts (R231), what HDR_FLATTEN and
HDR_RECREATE complete with (R222, R235), a malformed header (R326), and the round trip (R236). -/

namespace Sys2Proof.Machine

/-! ## The parser's language (R230, R231) -/

/-- No node is spelled by no bytes. -/
theorem ser_ne_nil (t : Tree) : ser t ≠ [] := by cases t <;> exact List.cons_ne_nil _ _

/-- A header with a byte in it is one `node(0)` with nothing after it; its nesting never uses up its length (R230). -/
theorem parse_eq_ok_iff_parseNode {h : List Byte} (hne : h ≠ []) (r : TreeStore) :
    parse h = .ok r ↔ ∃ o, parseNode (h.length + 1) h 0 0 = .ok o ∧ o.rest = [] ∧ r = storeTree o.tree := by
  cases h with
  | nil => exact absurd rfl hne
  | cons c rest =>
    unfold parse
    cases parseNode ((c :: rest).length + 1) (c :: rest) 0 0 with
    | malformed d off => simp
    | ok o =>
      by_cases hrest : o.rest = []
      · simp [hrest, eq_comm]
      · simp [hrest]

/-- The header of a tree that fits the store parses to that tree. -/
theorem parse_ser {t : Tree} (hfits : treeSize t ≤ Config.nodeCap) : parse (ser t) = .ok (storeTree t) := by
  have hnode := parseNode_ser t ((ser t).length + 1) [] 0 0 (Nat.le_succ _) (by rwa [Nat.zero_add])
  rw [List.append_nil] at hnode
  exact (parse_eq_ok_iff_parseNode (ser_ne_nil t) _).2 ⟨_, hnode, rfl, rfl⟩

/-- A header with a byte in it that parses is the header of a tree that fits the store. -/
theorem eq_ser_of_parse_ok {h : List Byte} {r : TreeStore} (hne : h ≠ []) (hp : parse h = .ok r) :
    ∃ t, treeSize t ≤ Config.nodeCap ∧ h = ser t ∧ r = storeTree t := by
  obtain ⟨o, hnode, hrest, htree⟩ := (parse_eq_ok_iff_parseNode hne r).1 hp
  obtain ⟨hbytes, -, hcount, hcap⟩ := parseNode_sound hnode
  refine ⟨o.tree, ?_, ?_, htree⟩
  · rwa [hcount, Nat.zero_add] at hcap
  · rwa [hrest, List.append_nil] at hbytes

/-- Settles O31: `parseNode` takes exactly one serialized tree off the front, and `parse` allows nothing after it. -/
theorem parserAcceptsExactlyHeaders : Obligations.ParserAcceptsExactlyHeaders := by
  intro h r
  constructor
  · intro hp
    by_cases hne : h = []
    · subst hne
      cases hp
      exact .inl ⟨rfl, rfl⟩
    · exact .inr (eq_ser_of_parse_ok hne hp)
  · rintro (⟨rfl, rfl⟩ | ⟨t, hfits, rfl, rfl⟩)
    · rfl
    · exact parse_ser hfits

/-- The header of a store that holds a tree that fits, or the empty tree, parses to that store. -/
theorem parse_headerOf {t : TreeStore} (htree : t ≠ .none) (hfits : storeNodes t ≤ Config.nodeCap) :
    parse (headerOf t) = .ok t := by
  cases t with
  | none => exact absurd rfl htree
  | empty => rfl
  | leaf b => exact parse_ser (t := .leaf b) hfits
  | full z o => exact parse_ser (t := .node z o) hfits

/-! ## HDR_FLATTEN and HDR_RECREATE (R222, R235) -/

/-- TSTATE is NONE only where no tree exists (R44). -/
theorem storeState_ne_none {t : TreeStore} (h : t ≠ .none) : storeState t ≠ .none := by
  cases t with
  | none => exact absurd rfl h
  | _ => exact nofun

/-- Settles O32: HDR_FLATTEN's one request puts the tree's header. -/
theorem hdrFlattenCompletes : Obligations.HdrFlattenCompletes := by
  intro sym s hready hserved hgrant htree hout
  obtain ⟨r, hrun⟩ := run_hdrFlatten [] (s := s.accept (encode (.hdrFlatten sym)) [.hdrFlatten]) 0 rfl hserved
    (storeState_ne_none htree) hout
  exact exec_completes (.hdrFlatten sym) hready hgrant hrun

/-- Settles O33: HDR_RECREATE's one request takes the header, and the header spells the tree. -/
theorem hdrRecreateCompletes : Obligations.HdrRecreateCompletes := by
  intro sym s t hready hserved hgrant hin hparse
  obtain ⟨r, hrun⟩ := run_hdrRecreate [] (s := s.accept (encode (.hdrRecreate sym)) [.hdrRecreate]) 0 rfl hserved hin
    hparse
  exact exec_completes (.hdrRecreate sym) hready hgrant hrun

/-! ## A malformed header (R235, R326) -/

/-- A port request that is answered, and the fault its body raises on the answer, which ends the run. -/
theorem seqRun_request_raise {s u : State} {w : Wait} {r : Reply} {e : Env} {name : FaultName} {d : FaultByte} (n : Nat)
    (hbusy : s.status.busy = true) (hp : s.run.phase = .asking w) (hserve : serve w s.env = some (r, e))
    (hraise : resume r (s.setReply r e) = .raise name d u) : seqRun (n + 2) s = u.raise name d := by
  rw [seqRun_request hbusy hp hserve, hraise]
  exact seqRun_idle rfl n

/-- An accepted command whose bodies fault within the steps granted, the first of them being its beginning, ends with
that fault. -/
theorem exec_faults (i : Instr) {s u : State} {name : FaultName} {d : FaultByte} {n : Nat} (hready : s.Ready)
    (hgrant : n + 1 ≤ s.host.grant)
    (hrun : seqRun n (runBodies (commandBodies i) (s.accept (encode i) (commandBodies i))) = u.raise name d) :
    exec i s = .next (u.raise name d) := by
  rw [exec_accepted (State.drops_of_ready hready _)]
  exact congrArg Host.Outcome.next (seqRun_of_ended ((seqRun_accept s _ _ n).trans hrun) rfl hgrant)

/-- HDR_RECREATE asks for the header unless one was read in this session (R235). -/
theorem runBodies_hdrRecreate (todo : List Body) {s : State} (hin : s.hdrInDone = false) :
    runBodies (.hdrRecreate :: todo) s = (s.enterBody .hdrRecreate todo).setAsking .hdrRead := by
  simp [runBodies, startBody, bodyHdrRecreate, hin]

/-- A malformed header leaves no tree and no map, and its failing offset in RESULT (R326). -/
theorem hdrReadReply_malformed {h : List Byte} {d : FaultByte} {off : Nat} (hparse : parse h = .malformed d off)
    (s : State) : hdrReadReply (.value h) s = .raise .hdrMalformed d
      { s with hdrInDone := true, mapValid := false, tree := .none, nNodes := 0#10, nLeaves := 0#9,
               result := BitVec.ofNat 64 off } := by
  simp only [hdrReadReply, hparse]
  rfl

/-- HDR_RECREATE's body on a malformed header: one request, and the fault. -/
theorem run_hdrRecreate_malformed (todo : List Body) {s : State} {d : FaultByte} {off : Nat} (n : Nat)
    (hbusy : s.status.busy = true) (hserved : s.env.draws = []) (hin : s.hdrInDone = false)
    (hparse : parse s.env.hdrIn = .malformed d off) :
    seqRun (n + 2) (runBodies (.hdrRecreate :: todo) s) = State.raise
      { s with
        cur.prim := 0x31#8
        hdrInDone := true
        mapValid := false
        tree := .none
        nNodes := 0#10
        nLeaves := 0#9
        result := BitVec.ofNat 64 off } .hdrMalformed d := by
  have hrun := seqRun_request_raise (s := (s.enterBody .hdrRecreate todo).setAsking .hdrRead) n hbusy rfl
    (serve_served .hdrRead hserved) (hdrReadReply_malformed hparse _)
  rw [runBodies_hdrRecreate todo hin]
  exact hrun

/-- Settles O34: the command ends with the fault that the body raises on the header it was given. -/
theorem malformedHeaderFaults : Obligations.MalformedHeaderFaults := by
  intro sym s d off hready hserved hgrant hin hparse
  exact exec_faults (.hdrRecreate sym) hready hgrant (run_hdrRecreate_malformed [] 0 rfl hserved hin hparse)

/-! ## The round trip (R236) -/

/-- Settles O35: the header that HDR_FLATTEN writes parses to the tree, which HDR_RECREATE then takes. -/
theorem headerRoundTrip : Obligations.HeaderRoundTrip := by
  intro sym s u hsready hsserved hsgrant htree hfits hout huready huserved hugrant hin
  have hparse := parse_headerOf htree hfits
  exact ⟨_, headerOf s.tree, _, hdrFlattenCompletes sym s hsready hsserved hsgrant htree hout, rfl, hparse,
    hdrRecreateCompletes sym { u with env := { u.env with hdrIn := headerOf s.tree } } s.tree huready huserved hugrant
      hin hparse, rfl, rfl⟩

end Sys2Proof.Machine
end

section
/-! PROOFS. The code map (44_code_map.md): the codes that the walk gives a tree's leaves (R250, R251), and what MAP_BUILD
completes with (R252). -/

namespace Sys2Proof.Machine

/-! ## The codes of a tree's leaves (R250, R251) -/

/-- A leaf's code is its path from the root. -/
theorem treeAt_walk_code {r : Tree} (hdistinct : (treeLeaves r).Nodup) {b : Symbol} (hb : b ∈ treeLeaves r) :
    treeAt r (symGet (walk r [] clearedMap).1 b).code = some (.leaf b) := by
  obtain ⟨-, hcodes, -⟩ := walk_new r [] clearedMap hdistinct (by simp [MapEntry.absent])
  obtain ⟨p, hp⟩ := (mem_treeLeaves_iff r b).1 hb
  rwa [hcodes b p hp]

/-- Of two leaves' paths, the first begins the second only where both lead to one symbol. -/
theorem eq_of_treeAt_prefix {t : Tree} {p q : List Bit} {a b : Symbol} (hp : treeAt t p = some (.leaf a))
    (hq : treeAt t q = some (.leaf b)) (h : p <+: q) : a = b := by
  rw [treeAt_prefix hp hq h, hq] at hp
  exact (Tree.leaf.inj (Option.some.inj hp)).symm

/-- A tree that the store holds has no leaf deeper than MAX_CODE_LEN (R14). -/
theorem treeAt_length_le_maxCodeLen {t u : Tree} {p : List Bit} (hfits : treeSize t ≤ Config.nodeCap)
    (hp : treeAt t p = some u) : p.length ≤ Config.maxCodeLen := by
  have hpath := treeAt_length hp
  have hleaves := treeSize_leaves u
  have hsome := treeLeaves_length_pos u
  unfold Config.nodeCap at hfits
  unfold Config.maxCodeLen
  omega

/-- Settles O38: each code is the path to its leaf, and a path to a leaf goes on to no other leaf. -/
theorem codesArePrefixFree : Obligations.CodesArePrefixFree := by
  intro r hdistinct
  refine ⟨fun a b ha hb hne hprefix => hne ?_, fun a ha => treeAt_walk_code hdistinct ha, fun hfits a ha => ?_⟩
  · exact eq_of_treeAt_prefix (treeAt_walk_code hdistinct ha) (treeAt_walk_code hdistinct hb) hprefix
  · exact treeAt_length_le_maxCodeLen hfits (treeAt_walk_code hdistinct ha)

/-! ## MAP_BUILD (R252) -/

/-- A map has 256 entries. -/
theorem presentCount_le (m : Vector MapEntry 256) : presentCount m ≤ 256 := by
  unfold presentCount
  exact List.countP_le_length.trans_eq m.length_toList

/-- RESULT holds the number of present entries without loss. -/
theorem presentCount_toNat (m : Vector MapEntry 256) : (BitVec.ofNat 64 (presentCount m)).toNat = presentCount m := by
  have hmost := presentCount_le m
  rw [BitVec.toNat_ofNat]
  exact Nat.mod_eq_of_lt (by omega)

/-- Settles O36: the walk meets no symbol twice, so the body ends with its map in the step that runs it. -/
theorem mapBuildCompletes : Obligations.MapBuildCompletes := by
  intro sym s hready hgrant htree hdistinct
  obtain ⟨hnone, hcodes, habsent, hcount⟩ := mapOf_distinct s.tree hdistinct
  obtain ⟨r, hrun⟩ := run_mapBuild [] (s := s.accept (encode (.mapBuild sym)) [.mapBuild]) (storeState_ne_none htree)
    hnone
  exact ⟨_, exec_completes (.mapBuild sym) (n := 0) hready hgrant hrun, rfl, hcodes, habsent,
    (presentCount_toNat _).trans hcount, rfl⟩

end Sys2Proof.Machine
end

section
/-! PROOFS. The packer and the unpacker (45_bitstream.md): what ENCODE completes with (R272), DECODE where no bit is read
(R280), the decode position that no step takes off the tree (R278, R279, R328), and the round trip (R284). -/

namespace Sys2Proof.Machine

/-! ## ENCODE (R272) -/

/-- Settles O41: ENCODE's loop over the bytes left, then completion. -/
theorem encodeCompletes : Obligations.EncodeCompletes := by
  intro sym s hready hserved hends hmap hheader hpresent hcount hgrant
  obtain ⟨r, hrun⟩ := run_encode [] (s := s.accept (encode (.encode sym)) [.encode]) 0 rfl hserved hends hmap hheader
    hpresent hcount
  have hsteps : 0 + (2 * s.env.bytesLeft.length + 2 + 2 * (payload s.map s.env.bytesLeft).length) + 1 ≤ s.host.grant := by
    unfold encodeSteps countSteps at hgrant
    omega
  exact exec_completes (.encode sym) hready hsteps hrun

/-! ## DECODE where no bit is read (R280) -/

/-- Settles O44: the body of the empty tree ends at once, that of a single leaf counts up to ARG. -/
theorem decodeWithoutBitsCompletes : Obligations.DecodeWithoutBitsCompletes := by
  intro sym s hready hheader
  refine ⟨fun htree hgrant => ?_, fun b htree hserved hgrant => ?_⟩
  · obtain ⟨r, hrun⟩ := run_decodeEmpty [] (s := s.accept (encode (.decode sym)) [.decode]) htree hheader
    exact exec_completes (.decode sym) (n := 0) hready hgrant hrun
  · obtain ⟨r, hrun⟩ := run_decodeLeaf [] (s := s.accept (encode (.decode sym)) [.decode]) 0 rfl hserved htree hheader
    have hsteps : 0 + 2 * s.arg.toNat + 1 ≤ s.host.grant := by
      unfold countSteps at hgrant
      omega
    exact exec_completes (.decode sym) hready hsteps hrun

/-! ## ABSENT_BRANCH is never raised (R278, R279, R328) -/

/-- No other fault has ABSENT_BRANCH's code (R320). -/
theorem faultCode_eq_absentBranch_iff (name : FaultName) : faultCode name = 0x08#8 ↔ name = .absentBranch := by
  cases name <;> decide

/-- ABSENT_BRANCH is not the fault that stands. -/
def State.NoAbsentBranch (s : State) : Prop := s.status.faultCode ≠ 0x08#8

theorem State.noAbsentBranch_raise {name : FaultName} (h : name ≠ .absentBranch) (s : State) (d : FaultByte) :
    (s.raise name d).NoAbsentBranch :=
  mt (faultCode_eq_absentBranch_iff name).1 h

/-- A flow that raises another fault than ABSENT_BRANCH, if any. -/
def Flow.RaisesOther (f : Flow) : Prop := f.All (fun _ _ => True) (fun _ => True) (fun name _ _ => name ≠ .absentBranch)

theorem Flow.RaisesOther.ite {c : Prop} [Decidable c] {f g : Flow} (hf : f.RaisesOther) (hg : g.RaisesOther) :
    (if c then f else g).RaisesOther := by
  split
  · exact hf
  · exact hg

theorem leafLoop_raisesOther (sym : Symbol) (s : State) : (leafLoop sym s).RaisesOther := .ite trivial trivial

theorem encodeBits_raisesOther (code : List Bit) (s : State) : (encodeBits code s).RaisesOther := by
  cases code <;> trivial

/-- The checks at a body's start raise other faults. -/
theorem startBody_raisesOther (b : Body) (s : State) : (startBody b s).RaisesOther := by
  cases b with
  | treeBuild =>
    obtain ⟨f, w, -, hbody⟩ := bodyTreeBuild_eq s
    simp only [startBody, hbody]
    trivial
  | hdrFlatten => exact .ite nofun (.ite nofun trivial)
  | hdrRecreate => exact .ite nofun trivial
  | mapBuild =>
    refine .ite nofun ?_
    cases (mapOf s.tree).2 with
    | none => trivial
    | some d => exact nofun
  | mapRead => exact .ite trivial nofun
  | encode => exact .ite (.ite trivial nofun) nofun
  | decode =>
    simp only [startBody, bodyDecode]
    cases s.tree with
    | none => exact nofun
    | empty => exact .ite trivial nofun
    | leaf sym => exact .ite (leafLoop_raisesOther sym _) nofun
    | full z o => exact .ite trivial nofun
  | _ => trivial

/-- From an internal node a bit leads to a node that is present. -/
theorem descend_raisesOther {s : State} (h : atInnerNode s) (x : Bit) : (descend x s).RaisesOther := by
  rcases descend_cases x s with ⟨habsent, -⟩ | ⟨-, hd⟩ | ⟨-, hd⟩ | ⟨sym, hd⟩
  · exact absurd habsent (subtree_child h x)
  · rw [hd]; trivial
  · rw [hd]; exact nofun
  · rw [hd]; trivial

/-- A bit is acted on at an internal node, and no other reply descends. -/
theorem resume_raisesOther {s : State} {r : Reply} (h : s.DecodeInv) (hp : s.run.phase = .answered r) :
    (resume r s).RaisesOther := by
  match r with
  | .countByte .ioerr | .rewind .ioerr | .hdrWrite _ .ioerr | .hdrRead .ioerr | .encByte .ioerr | .encBit _ .ioerr
  | .leafWrite _ .ioerr | .decBit .ioerr | .symWrite .ioerr => exact nofun
  | .countByte (.value .eof) | .rewind (.value ()) | .hdrWrite _ (.value ()) | .encByte (.value .eof)
  | .symWrite (.value ()) => trivial
  | .countByte (.value (.byte b)) => exact .ite nofun trivial
  | .hdrRead (.value hdr) =>
    simp only [resume, hdrReadReply]
    cases parse hdr with
    | ok t => trivial
    | malformed d off => exact nofun
  | .encByte (.value (.byte b)) => exact .ite (.ite nofun (encodeBits_raisesOther _ s)) nofun
  | .encBit rest (.value ()) => exact encodeBits_raisesOther rest s
  | .leafWrite sym (.value ()) => exact leafLoop_raisesOther sym _
  | .decBit (.value v) =>
    have hinner : atInnerNode s := by
      unfold State.DecodeInv at h
      rwa [hp] at h
    simp only [resume, decBitReply]
    cases bitOf v with
    | none => exact .ite trivial nofun
    | some x => exact descend_raisesOther hinner x

/-- A body leaves the fault code alone until it raises a fault, or clears it. -/
theorem startBody_noAbsentBranch (b : Body) {s : State} (h : s.NoAbsentBranch) :
    (startBody b s).All (fun _ t => t.NoAbsentBranch) State.NoAbsentBranch (fun _ _ _ => True) := by
  by_cases hclears : b = .softReset ∨ b = .clearFault
  · rcases hclears with rfl | rfl <;> exact nofun
  · obtain ⟨hreset, hclear⟩ := not_or.1 hclears
    exact Flow.All.imp (startBody_within b s) (fun _ _ ht => by rwa [State.NoAbsentBranch, ht.2.2.1])
      (fun _ ht => by rwa [State.NoAbsentBranch, (ht.2 hreset hclear).1]) fun _ _ _ _ => trivial

theorem resume_noAbsentBranch (r : Reply) {s : State} (h : s.NoAbsentBranch) :
    (resume r s).All (fun _ t => t.NoAbsentBranch) State.NoAbsentBranch (fun _ _ _ => True) := by
  obtain ⟨hreset, hclear⟩ := replyBody_ne r
  exact Flow.All.imp (resume_within r s) (fun _ _ ht => by rwa [State.NoAbsentBranch, ht.2.2.1])
    (fun _ ht => by rwa [State.NoAbsentBranch, (ht.2 hreset hclear).1]) fun _ _ _ _ => trivial

/-- The decode position is right, and ABSENT_BRANCH does not stand. -/
def State.DecodesSafely (s : State) : Prop := s.DecodeInv ∧ s.NoAbsentBranch

/-- What is known of a flow's three ends gives the invariant at each. -/
theorem Flow.decodesSafely {f : Flow}
    (hposition : f.All (fun w t => (t.setAsking w).DecodeInv) (fun _ => True) (fun n d t => (t.raise n d).DecodeInv))
    (hcode : f.All (fun _ t => t.NoAbsentBranch) State.NoAbsentBranch (fun _ _ _ => True)) (hraise : f.RaisesOther) :
    f.All (fun w t => (t.setAsking w).DecodesSafely) State.NoAbsentBranch (fun n d t => (t.raise n d).DecodesSafely) := by
  cases f with
  | ask w t => exact ⟨hposition, hcode⟩
  | done t => exact hcode
  | raise n d t => exact ⟨hposition, State.noAbsentBranch_raise hraise t d⟩

theorem seqStep_keeps_decodesSafely (s : State) (h : s.DecodesSafely) : (seqStep s).DecodesSafely :=
  seqStep_keeps (M := fun _ => State.NoAbsentBranch) (fun _ h _ => h.2)
    (fun _ _ _ _ h hp hs => ⟨setReply_decodeInv h.1 hp hs, h.2⟩)
    (fun _ r h hp => Flow.decodesSafely (resume_decodeInv h.1 hp) (resume_noAbsentBranch r h.2) (resume_raisesOther h.1 hp))
    (fun b todo t h => Flow.decodesSafely (startBody_decodeInv b _)
      (startBody_noAbsentBranch b (s := t.enterBody b todo) h) (startBody_raisesOther b _))
    (fun _ h => ⟨trivial, h⟩) s h

/-- A host move leaves the decode position alone, or ends the command or starts one. -/
theorem Moved.keeps_decodeInv {s u : State} (h : Moved s u) (hs : s.DecodeInv) : u.DecodeInv := by
  cases h with
  | reset =>
    obtain ⟨e, hreset, -⟩ := State.hardReset_cases s
    rw [hreset]
    trivial
  | accepted i h => trivial
  | illegal w d h => trivial
  | _ => exact hs

/-- A host move leaves the fault code alone, or clears it, or raises ILLEGAL_CMD. -/
theorem Moved.keeps_noAbsentBranch {s u : State} (h : Moved s u) (hs : s.NoAbsentBranch) : u.NoAbsentBranch := by
  cases h with
  | reset =>
    obtain ⟨e, hreset, -⟩ := State.hardReset_cases s
    rw [hreset]
    exact nofun
  | illegal w d h => exact State.noAbsentBranch_raise (name := .illegalCmd) nofun _ d
  | _ => exact hs

/-- Settles O59: the decode position stays at an internal node, whose branches are both present. -/
theorem absentBranchUnreachable : Obligations.AbsentBranchUnreachable := fun _ _ hs hst =>
  ⟨step_keeps (fun _ _ h => h) (fun _ _ h hm => hm.keeps_decodeInv h) (fun s h _ => seqStep_keeps_decodeInv s h) hs hst,
    fun hcode => (step_keeps (I := State.DecodesSafely) (fun _ _ h => h)
      (fun _ _ h hm => ⟨hm.keeps_decodeInv h.1, hm.keeps_noAbsentBranch h.2⟩)
      (fun s h _ => seqStep_keeps_decodesSafely s h) ⟨hs, hcode⟩ hst).2⟩

/-! ## COMPRESS of a byte string (R300) -/

/-- The tree that COMPRESS builds for the bytes `l`. It is irreducible, so that no comparison of two states
evaluates its merges. -/
@[irreducible] def codeTree (l : List Byte) : TreeStore := builtStore (countTable l)

/-- The map that COMPRESS makes of that tree. -/
@[irreducible] def codeMap (l : List Byte) : Vector MapEntry 256 := (mapOf (codeTree l)).1

theorem builtStore_countTable (l : List Byte) : builtStore (countTable l) = codeTree l := by
  unfold codeTree
  rfl

theorem mapOf_codeTree_fst (l : List Byte) : (mapOf (codeTree l)).1 = codeMap l := by
  unfold codeMap
  rfl

theorem storeState_codeTree (l : List Byte) : storeState (codeTree l) ≠ .none := by
  rw [← builtStore_countTable]
  exact builtStore_state (countTable l)

theorem mapOf_codeTree_snd (l : List Byte) : (mapOf (codeTree l)).2 = none := by
  rw [← builtStore_countTable]
  exact (mapOf_builtStore (countTable l)).1

/-- Every byte that the table counts is present in it. -/
theorem symGet_countTable_ne_zero {l : List Byte} (hfit : ∀ b, l.count b < 2 ^ 32) {b : Byte} (hb : b ∈ l) :
    symGet (countTable l) b ≠ 0#32 := by
  intro habsent
  have hpos := List.count_pos_iff.2 hb
  have hzero := congrArg BitVec.toNat habsent
  rw [symGet_countTable, countOf, BitVec.toNat_ofNat, Nat.mod_eq_of_lt (hfit b)] at hzero
  exact hpos.ne' hzero

/-- Every byte has a code. -/
theorem present_codeMap {l : List Byte} (hfit : ∀ b, l.count b < 2 ^ 32) {b : Byte} (hb : b ∈ l) :
    (symGet (codeMap l) b).present = true := by
  rw [← mapOf_codeTree_fst, ← builtStore_countTable]
  exact (mapOf_builtStore _).2 b (symGet_countTable_ne_zero hfit hb)

/-- Each byte's code is the path to its leaf. -/
theorem treeAt_codeMap {l : List Byte} (hfit : ∀ b, l.count b < 2 ^ 32) {b : Byte} (hb : b ∈ l) :
    ∃ r, storeRoot (codeTree l) = some r ∧ treeAt r (symGet (codeMap l) b).code = some (.leaf b) := by
  have hdistinct : ∀ r, storeRoot (codeTree l) = some r → (treeLeaves r).Nodup := fun r hr => by
    rw [← builtStore_countTable] at hr
    exact (builtStore_leaves hr).1
  obtain ⟨-, hcodes, -⟩ := mapOf_distinct (codeTree l) hdistinct
  rw [mapOf_codeTree_fst] at hcodes
  exact (hcodes b _).1 (by rw [← present_codeMap hfit hb])

/-- At the first byte all listed bytes are left. -/
theorem Env.bytesLeft_of_start {e : Env} (h : e.inCursor = 0) : e.bytesLeft = e.inBytes := by
  rw [Env.bytesLeft, h, List.drop_zero]

/-- What COMPRESS of the bytes `l` has written when its first pass has ended: the session is fresh, the bytes are counted,
the source is rewound and the tree is built. -/
def State.firstPassed (s : State) (l : List Byte) (r : Run) (w : Count64) : State :=
  { s with
    hdrOutDone := false
    hdrInDone := false
    run := r
    freq := countTable l
    result := w
    cur.prim := 0x20#8
    mapValid := false
    tree := codeTree l
    nNodes := BitVec.ofNat 10 (storeNodes (codeTree l))
    nLeaves := BitVec.ofNat 9 (storeLeaves (codeTree l))
    env := { s.env with inCursor := 0 } }

/-- What COMPRESS of the bytes `l` has written when it has ended: beyond its first pass the map, and on the sink the header
and the payload. -/
def State.compressed (s : State) (l : List Byte) : State :=
  { s with
    hdrOutDone := true
    hdrInDone := false
    freq := countTable l
    tree := codeTree l
    nNodes := BitVec.ofNat 10 (storeNodes (codeTree l))
    nLeaves := BitVec.ofNat 9 (storeLeaves (codeTree l))
    map := codeMap l
    mapValid := true
    result := BitVec.ofNat 64 l.length
    env := { s.env with inCursor := l.length, hdrOut := some (headerOf (codeTree l)),
                        bitsOut := s.env.bitsOut ++ payload (codeMap l) l } }

/-- The bodies of COMPRESS over a source at its first byte: its two passes. -/
theorem run_compress {s : State} {l : List Byte} (n : Nat) (hbusy : s.status.busy = true) (hserved : s.env.draws = [])
    (hends : s.env.inEnding = .ends) (hl : s.env.inBytes = l) (hstart : s.env.inCursor = 0) (hlater : s.env.inLater = [])
    (hfit : ∀ b, l.count b < 2 ^ 32) :
    ∃ r, seqRun (n + (2 * l.length + 2 + 2 * (payload (codeMap l) l).length) + 2 + 2 + (2 * l.length + 2))
        (runBodies [.session, .freqCount, .inRewind, .treeBuild, .hdrFlatten, .mapBuild, .encode] s) =
      seqRun n (runBodies [] { s.compressed l with cur.prim := 0x50#8, run := r }) := by
  obtain ⟨r1, w, hfirst⟩ := run_firstPass [.hdrFlatten, .mapBuild, .encode]
    (n + (2 * l.length + 2 + 2 * (payload (codeMap l) l).length) + 2) hbusy hserved hends
    ((Env.bytesLeft_of_start hstart).trans hl) hlater hfit
  have hcodes : ∀ b ∈ l, (symGet (mapOf (codeTree l)).1 b).present = true := fun b hb => by
    rw [mapOf_codeTree_fst]
    exact present_codeMap hfit hb
  obtain ⟨r2, hsecond⟩ := run_secondPass (s := s.firstPassed l r1 w) n hbusy hserved hends
    ((Env.bytesLeft_of_start rfl).trans hl) rfl (storeState_codeTree l) (mapOf_codeTree_snd l) hcodes
    (length_of_counts hfit)
  simp only [builtStore_countTable] at hfirst
  simp only [State.firstPassed, mapOf_codeTree_fst, Nat.zero_add] at hsecond
  exact ⟨r2, hfirst.trans hsecond⟩

/-- COMPRESS completes over a source at its first byte. -/
theorem exec_compress (sym : Symbol) {s : State} {l : List Byte} (hready : s.Ready) (hserved : s.Served)
    (hends : s.env.inEnding = .ends) (hl : s.env.inBytes = l) (hstart : s.env.inCursor = 0) (hlater : s.env.inLater = [])
    (hfit : ∀ b, l.count b < 2 ^ 32) (hgrant : countSteps l.length + encodeSteps (codeMap l) l + 3 ≤ s.host.grant) :
    exec (.compress sym) s = .next
      { s.compressed l with
        status := completedStatus s
        cur := latched s (encode (.compress sym)) 0x50#8
        run := Run.idle } := by
  obtain ⟨r, hrun⟩ := run_compress (s := s.accept (encode (.compress sym)) (commandBodies (.compress sym))) 0 rfl
    hserved hends hl hstart hlater hfit
  have hsteps : 0 + (2 * l.length + 2 + 2 * (payload (codeMap l) l).length) + 2 + 2 + (2 * l.length + 2) + 1 ≤
      s.host.grant := by
    unfold encodeSteps countSteps at hgrant
    omega
  exact exec_completes (.compress sym) hready hsteps hrun

/-! ## DECOMPRESS of what COMPRESS wrote (R284) -/

/-- Where the tree is empty there was no byte. -/
theorem eq_nil_of_codeTree_empty {l : List Byte} (hfit : ∀ b, l.count b < 2 ^ 32) (h : codeTree l = .empty) :
    l = [] := by
  refine List.eq_nil_iff_forall_not_mem.2 fun b hb => ?_
  obtain ⟨r, hr, -⟩ := treeAt_codeMap hfit hb
  rw [h] at hr
  cases hr

/-- Where the tree is a single leaf every byte is its symbol. -/
theorem eq_replicate_of_codeTree_leaf {l : List Byte} (hfit : ∀ b, l.count b < 2 ^ 32) {c : Symbol}
    (h : codeTree l = .leaf c) : l = List.replicate l.length c := by
  refine List.eq_replicate_iff.2 ⟨rfl, fun b hb => ?_⟩
  obtain ⟨r, hr, hpath⟩ := treeAt_codeMap hfit hb
  rw [h] at hr
  cases hr
  exact List.mem_singleton.1 ((mem_treeLeaves_iff (.leaf c) b).2 ⟨_, hpath⟩)

/-- Each byte with its code. -/
def codedBytes (l : List Byte) : List (Symbol × List Bit) := l.map fun b => (b, (symGet (codeMap l) b).code)

theorem codedBytes_symbols (l : List Byte) : (codedBytes l).map (·.1) = l := by
  simp [codedBytes, Function.comp_def]

theorem codedBytes_length (l : List Byte) : (codedBytes l).length = l.length := List.length_map _

theorem codedBytes_codes (l : List Byte) : (codedBytes l).flatMap (·.2) = payload (codeMap l) l := List.flatMap_map ..

/-- Where the tree is full each code leads to its byte. -/
theorem treeAt_codedBytes {l : List Byte} (hfit : ∀ b, l.count b < 2 ^ 32) {z o : Tree} (h : codeTree l = .full z o) :
    ∀ c ∈ codedBytes l, treeAt (.node z o) c.2 = some (.leaf c.1) := by
  intro c hc
  obtain ⟨b, hb, rfl⟩ := List.mem_map.1 hc
  obtain ⟨r, hr, hpath⟩ := treeAt_codeMap hfit hb
  rw [h] at hr
  cases hr
  exact hpath

/-- The header of the tree spells the tree. -/
theorem parse_headerOf_codeTree (l : List Byte) : parse (headerOf (codeTree l)) = .ok (codeTree l) := by
  refine parse_headerOf (fun hnone => storeState_codeTree l (by rw [hnone]; rfl)) ?_
  rw [← builtStore_countTable]
  exact storeNodes_builtStore_le (countTable l)

/-- A bit source at its first bit that holds what COMPRESS wrote for the bytes `l`. -/
structure Env.HoldsCompressed (e : Env) (l : List Byte) : Prop where
  header : e.hdrIn = headerOf (codeTree l)
  bits : e.bitsIn = (payload (codeMap l) l).map bitAnswer
  ends : e.bitsEnding = .ends
  start : e.bitCursor = 0

theorem Env.HoldsCompressed.bitsLeft {e : Env} {l : List Byte} (h : e.HoldsCompressed l) :
    e.bitsLeft = ((codedBytes l).flatMap (·.2)).map bitAnswer ++ [] := by
  rw [codedBytes_codes, List.append_nil, Env.bitsLeft, h.start, h.bits, List.drop_zero]

/-- DECOMPRESS of what COMPRESS wrote for the bytes writes the bytes. -/
theorem exec_decompress_compressed (sym : Symbol) {s : State} {l : List Byte} (hready : s.Ready) (hserved : s.Served)
    (hfit : ∀ b, l.count b < 2 ^ 32) (hsource : s.env.HoldsCompressed l)
    (harg : ∀ c, codeTree l = .leaf c → s.arg.toNat = l.length)
    (hgrant : decodeSteps (payload (codeMap l) l).length l.length + 3 ≤ s.host.grant) :
    ∃ t, exec (.decompress sym) s = .next t ∧ t.status.done = true ∧ t.env.outBytes = s.env.outBytes ++ l := by
  have hparse : parse s.env.hdrIn = .ok (codeTree l) := by rw [hsource.header, parse_headerOf_codeTree]
  obtain ⟨hempty, hleaf, hfull⟩ := decompressCompletes sym s _ hready hserved hparse
  cases htree : codeTree l with
  | none => exact absurd (by rw [htree]; rfl) (storeState_codeTree l)
  | empty =>
    refine ⟨_, hempty htree (by omega), rfl, ?_⟩
    rw [eq_nil_of_codeTree_empty hfit htree]
  | leaf c =>
    have hsteps : countSteps s.arg.toNat + 3 ≤ s.host.grant := by
      rw [harg c htree]
      unfold decodeSteps countSteps at hgrant
      unfold countSteps
      omega
    refine ⟨_, hleaf c htree hsteps, rfl, ?_⟩
    rw [harg c htree, ← eq_replicate_of_codeTree_leaf hfit htree]
  | full z o =>
    have hcount : (codedBytes l).length < 2 ^ 64 := (codedBytes_length l).trans_lt (length_of_counts hfit)
    refine ⟨_, hfull z o (codedBytes l) [] htree (treeAt_codedBytes hfit htree) hcount hsource.bitsLeft
      ⟨nofun, fun _ => hsource.ends⟩ ?_, rfl, ?_⟩
    · rwa [codedBytes_codes, codedBytes_length]
    · rw [codedBytes_symbols]

/-- Settles O49: COMPRESS writes the header and the codes of the built tree, and DECOMPRESS reads just these. -/
theorem compressDecompressRoundTrip : Obligations.CompressDecompressRoundTrip := by
  intro sym s u hready hserved hends hstart hlater hsink hfit huready huserved huout
  generalize hl : s.env.inBytes = l at hfit ⊢
  refine ⟨countSteps l.length + encodeSteps (codeMap l) l + 3 +
    (decodeSteps (payload (codeMap l) l).length l.length + 3), fun g hg => ?_⟩
  refine ⟨_, headerOf (codeTree l), exec_compress sym (s := { s with host := { s.host with grant := g } }) hready hserved
    hends hl hstart hlater hfit ((Nat.le_add_right _ _).trans hg), rfl, rfl, fun a ha => ?_⟩
  have hbits : s.env.bitsOut ++ payload (codeMap l) l = payload (codeMap l) l := by rw [hsink, List.nil_append]
  have harg : ∀ c, codeTree l = .leaf c → a.toNat = l.length := fun c hc =>
    (ha ⟨c, hc⟩).trans (Nat.mod_eq_of_lt (length_of_counts hfit))
  obtain ⟨v, hv, hdone, hout⟩ := exec_decompress_compressed sym (l := l)
    (s := { u with
      arg := a
      host := { u.host with grant := g }
      env := { u.env with
        hdrIn := headerOf (codeTree l), bitsIn := (s.env.bitsOut ++ payload (codeMap l) l).map bitAnswer,
        bitsEnding := .ends, bitCursor := 0 } })
    huready huserved hfit ⟨rfl, by rw [hbits], rfl, rfl⟩ harg ((Nat.le_add_left _ _).trans hg)
  exact ⟨v, hv, hdone, by rw [hout, huout, List.nil_append]⟩

end Sys2Proof.Machine
end

section
/-! PROOFS. The sequences (46_macro.md): what COMPRESS completes with (R300). -/

namespace Sys2Proof.Machine

/-- Settles O47: the two passes leave the table of the bytes, its tree and that tree's map. -/
theorem compressCompletes : Obligations.CompressCompletes := by
  intro sym s hready hserved hends hstart hlater hfit
  simp only [builtStore_countTable, mapOf_codeTree_fst]
  exact exec_compress sym hready hserved hends rfl hstart hlater hfit

end Sys2Proof.Machine
end

section
/-! PROOFS. The faults of the block (60_exceptions.md): the checks at a command's start, the faults of the byte or bit
just read, and DUP_SYMBOL. -/

namespace Sys2Proof.Machine

/-! ## A command whose one body faults at its start (R340) -/

/-- An accepted command with one body, which faults before any port request, ends with that fault in its first step. -/
theorem exec_of_raise (i : Instr) {b : Body} {s u : State} {name : FaultName} {d : FaultByte} (hready : s.Ready)
    (hgrant : 1 ≤ s.host.grant) (hbodies : commandBodies i = [b])
    (hraise : startBody b ((s.accept (encode i) [b]).enterBody b []) = .raise name d u) :
    exec i s = .next (u.raise name d) := by
  have hrun : runBodies (commandBodies i) (s.accept (encode i) (commandBodies i)) = u.raise name d := by
    rw [hbodies]
    simp only [runBodies, hraise]
  exact exec_faults i (n := 0) hready hgrant hrun

/-- A check that fails at the start of a command's one body changes the fault fields and nothing else (R340, R342). -/
theorem exec_of_failedCheck (i : Instr) {b : Body} {s : State} {name : FaultName} {d : FaultByte} (hready : s.Ready)
    (hgrant : 1 ≤ s.host.grant) (hbodies : commandBodies i = [b]) (hopcode : bodyOpcode b = some i.opcode)
    (hraise : startBody b ((s.accept (encode i) [b]).enterBody b []) =
      .raise name d ((s.accept (encode i) [b]).enterBody b [])) :
    exec i s = .next { s with
      status := faultedStatus s name d
      faultOp := i.opcode
      cur := latched s (encode i) i.opcode
      run := Run.idle } := by
  rw [exec_of_raise i hready hgrant hbodies hraise]
  simp only [State.raise, State.enterBody, hopcode]
  rfl

/-! ## The checks of each body (R323, R324, R325) -/

/-- The bodies that need a tree fault NO_TREE without one (R323). -/
theorem startBody_noTree {b : Body} (hb : b ∈ [Body.hdrFlatten, .mapBuild, .decode]) {s : State} (h : s.tree = .none) :
    startBody b s = .raise .noTree 0#8 s := by
  simp only [List.mem_cons, List.not_mem_nil, or_false] at hb
  rcases hb with rfl | rfl | rfl
  · simp [startBody, bodyHdrFlatten, h, storeState]
  · simp [startBody, bodyMapBuild, h, storeState]
  · simp only [startBody, bodyDecode, h]

/-- The bodies that need a map fault NO_MAP without a valid one (R324). -/
theorem startBody_noMap {b : Body} (hb : b ∈ [Body.mapRead, .encode]) {s : State} (h : s.mapValid = false) :
    startBody b s = .raise .noMap 0#8 s := by
  simp only [List.mem_cons, List.not_mem_nil, or_false] at hb
  rcases hb with rfl | rfl
  · simp [startBody, bodyMapRead, h]
  · simp [startBody, bodyEncode, h]

/-- HDR_FLATTEN may write one header in a session (R325). -/
theorem bodyHdrFlatten_again {s : State} (htree : s.tree ≠ .none) (h : s.hdrOutDone = true) :
    bodyHdrFlatten s = .raise .seqErr 1#8 s := by
  simp [bodyHdrFlatten, storeState_ne_none htree, h]

/-- ENCODE writes no bit before a header (R325). -/
theorem bodyEncode_noHeader {s : State} (hmap : s.mapValid = true) (h : s.hdrOutDone = false) :
    bodyEncode s = .raise .seqErr 2#8 s := by
  simp [bodyEncode, hmap, h]

/-- HDR_RECREATE may read one header in a session (R325). -/
theorem bodyHdrRecreate_again {s : State} (h : s.hdrInDone = true) : bodyHdrRecreate s = .raise .seqErr 3#8 s := by
  simp [bodyHdrRecreate, h]

/-- DECODE of any tree reads no bit before the header (R325). -/
theorem bodyDecode_noHeader {s : State} (htree : s.tree ≠ .none) (h : s.hdrInDone = false) :
    bodyDecode s = .raise .seqErr 4#8 s := by
  unfold bodyDecode
  cases hs : s.tree with
  | none => exact absurd hs htree
  | empty => simp [h]
  | leaf b => simp [h]
  | full z o => simp [h]

/-- Settles O43: acceptance and the body's entry leave what the checks read, and each check that fails ends the
command. -/
theorem preconditionFaults : Obligations.PreconditionFaults := by
  intro sym s hready hgrant
  dsimp only
  refine ⟨fun htree => ⟨?_, ?_, ?_⟩, fun hmap => ⟨?_, ?_⟩, fun htree hout => ?_, fun hmap hout => ?_, fun hin => ?_,
    fun htree hin => ?_⟩
  · exact exec_of_failedCheck (.hdrFlatten sym) hready hgrant rfl rfl (startBody_noTree (by simp) htree)
  · exact exec_of_failedCheck (.mapBuild sym) hready hgrant rfl rfl (startBody_noTree (by simp) htree)
  · exact exec_of_failedCheck (.decode sym) hready hgrant rfl rfl (startBody_noTree (by simp) htree)
  · exact exec_of_failedCheck (.mapRead sym) hready hgrant rfl rfl (startBody_noMap (by simp) hmap)
  · exact exec_of_failedCheck (.encode sym) hready hgrant rfl rfl (startBody_noMap (by simp) hmap)
  · exact exec_of_failedCheck (.hdrFlatten sym) hready hgrant rfl rfl (bodyHdrFlatten_again htree hout)
  · exact exec_of_failedCheck (.encode sym) hready hgrant rfl rfl (bodyEncode_noHeader hmap hout)
  · exact exec_of_failedCheck (.hdrRecreate sym) hready hgrant rfl rfl (bodyHdrRecreate_again hin)
  · exact exec_of_failedCheck (.decode sym) hready hgrant rfl rfl (bodyDecode_noHeader htree hin)

/-! ## DUP_SYMBOL (R253, R330) -/

/-- The walk of a tree with a repeated leaf stops, and at a symbol that the tree itself repeats: it began with no
entry. -/
theorem mapOf_duplicate {t : TreeStore} {r : Tree} (hroot : storeRoot t = some r) (hdup : ¬(treeLeaves r).Nodup) :
    ∃ d, (mapOf t).2 = some d ∧ 2 ≤ (treeLeaves r).count d := by
  have hmap : mapOf t = walk r [] clearedMap := by simp only [mapOf, hroot]
  rw [hmap]
  cases hwalk : (walk r [] clearedMap).2 with
  | none => exact absurd (walk_none hwalk).1 hdup
  | some d => exact ⟨d, rfl, (walk_some hwalk).2.resolve_left (by simp [MapEntry.absent])⟩

/-- MAP_BUILD's body where the walk meets a symbol twice (R252, R253). -/
theorem bodyMapBuild_duplicate {s : State} {d : Symbol} (htree : storeState s.tree ≠ .none)
    (hdup : (mapOf s.tree).2 = some d) :
    bodyMapBuild s = .raise .dupSymbol d { s with mapValid := false, map := (mapOf s.tree).1 } := by
  simp only [bodyMapBuild, if_neg htree, hdup]

/-- Settles O37: the fault is raised in the step that runs the walk, after MAP_VALID has fallen. -/
theorem duplicateLeavesFault : Obligations.DuplicateLeavesFault := by
  intro sym s r hready hgrant hroot hrepeats
  obtain ⟨d, hdup, hcount⟩ := mapOf_duplicate hroot hrepeats
  have htree : s.tree ≠ .none := fun hnone => by
    rw [hnone] at hroot
    cases hroot
  exact ⟨_, d, exec_of_raise (.mapBuild sym) hready hgrant rfl (bodyMapBuild_duplicate (storeState_ne_none htree) hdup),
    hcount, rfl⟩

/-! ## The faults of the byte or bit just read (R322, R327, R329) -/

/-- A computation that writes RESULT from NCOUNT and then faults ends the command with that fault. -/
theorem seqStep_countedRaise {s : State} {r : Reply} {name : FaultName} {d : FaultByte}
    (hp : s.run.phase = .answered r) (hraise : resume r s = .raise name d s.resultCount) :
    seqStep s = { s with status := faultedStatus s name d, faultOp := s.cur.prim, run := Run.idle,
                         result := s.run.nCount } := by
  rw [seqStep_answered hp, hraise]
  rfl

/-- Settles O24: FREQ_COUNT checks the byte's counter before it counts. -/
theorem fullCounterFaults : Obligations.FullCounterFaults := by
  intro s b hp hfull
  have hraise : countByteReply (.value (.byte b)) s = .raise .freqOvf b s.resultCount := if_pos hfull
  exact seqStep_countedRaise hp hraise

/-- Settles O42: ENCODE checks that the byte has a code before it writes a bit. -/
theorem byteWithoutCodeFaults : Obligations.ByteWithoutCodeFaults := by
  intro s b hp hnone
  have hraise : encByteReply (.value (.byte b)) s = .raise .noCode b s.resultCount := by simp [encByteReply, hnone]
  exact seqStep_countedRaise hp hraise

/-- DECODE at END: complete at the root, and a fault anywhere else (R280, R327). -/
theorem decBitReply_end {r : BitVec 2} (hend : bitOf r = none) (s : State) : decBitReply (.value r) s =
    if s.decPath = [] then .done s.resultCount else .raise .bitsTruncated 0#8 s.resultCount := by
  simp only [decBitReply, hend]

/-- Settles O46: every answer that is no bit is END, and the decode position alone decides what END is. -/
theorem endWithinCodeFaults : Obligations.EndWithinCodeFaults := by
  intro s r p hp hpos hzero hone
  have hreply := decBitReply_end ((bitOf_eq_none_iff r).2 ⟨hzero, hone⟩) s
  have hpath : s.decPath = p := by simp [State.decPath, hpos]
  rw [hpath] at hreply
  refine ⟨fun hinner => ?_, fun hroot htodo => ?_⟩
  · rw [if_neg hinner] at hreply
    exact seqStep_countedRaise hp hreply
  · rw [if_pos hroot] at hreply
    have hdone : resume (.decBit (.value r)) s = .done s.resultCount := hreply
    rw [seqStep_answered hp, hdone]
    simp only [settle, State.resultCount_run, htodo]
    rfl

end Sys2Proof.Machine
end

section
/-! PROOFS. Hazards (70_reset_and_hazards.md): an idle block waits (R362), reads of a busy block are free (R372), and an
accepted command ends either done or faulted (R374). -/

namespace Sys2Proof.Machine

/-! ## An idle block (R362) -/

/-- With no host move to come, a step of the machine is one step of the sequencer. -/
theorem step_noEvent {s : State} (hq : s.host.queue = []) : step s = .next (seqRun 1 s) := by
  unfold step advance
  rw [hq]

/-- Settles O7: the sequencer of an idle block takes no step. -/
theorem idleBlockWaits : Obligations.IdleBlockWaits := by
  intro s hq hidle
  rw [step_noEvent hq, seqRun_idle hidle]

/-! ## Reads of a busy block (R372) -/

/-- While `BUSY = 1` a read notes a free value and changes nothing but the host. -/
theorem hostRead_busy {s : State} (hbusy : s.status.busy = true) (off : BitVec 8) : hostRead off s =
    { s with host := { s.host with noted := s.host.noted ++ [busyValue s off], draws := s.host.draws + 1 } } := by
  simp only [hostRead, hbusy, if_true]

/-- Settles O12: no step is granted after the read, so the step is the read alone. -/
theorem busyReadIsFree : Obligations.BusyReadIsFree := by
  intro s off rest hbusy hoff hq
  refine ⟨busyValue s off, ?_, fun hstatus => ?_, fun hother => if_neg hother⟩
  · rw [step_read hq hoff, hostRead_busy (s := s.takeEvent { move := .read 32 off, grant := 0 } rest) hbusy]
    rfl
  · have hvalue : busyValue s off = Config.busyRead s.host.draws ||| 1#32 := if_pos hstatus
    refine ⟨hvalue, ?_⟩
    rw [hvalue]
    simp

/-! ## How a command ends (R374) -/

/-- A command runs whose bodies `todo` are still to start: neither DONE nor FAULT stands, and no body resets STATUS. -/
structure State.Underway (todo : List Body) (s : State) : Prop where
  busy : s.status.busy = true
  notDone : s.status.done = false
  noFault : s.status.fault = false
  noReset : .softReset ∉ todo
  noClear : .clearFault ∉ todo

/-- Exactly one of DONE and FAULT is 1. -/
def Status.DoneOrFaulted (st : Status) : Prop := (st.done = true ∧ st.fault = false) ∨ (st.done = false ∧ st.fault = true)

/-- A command is underway, or it has ended and either completed or faulted. -/
def State.EndsDecided (s : State) : Prop :=
  s.Underway s.run.todo ∨ (s.run.phase = .idle ∧ s.status.DoneOrFaulted)

theorem State.EndsDecided.underway {s : State} (h : s.EndsDecided) (hp : s.run.phase ≠ .idle) :
    s.Underway s.run.todo := h.resolve_right fun hidle => hp hidle.1

/-- Whether a command is underway is told by STATUS. -/
theorem State.Underway.congr {todo : List Body} {s t : State} (h : s.Underway todo) (hstatus : t.status = s.status) :
    t.Underway todo := by
  obtain ⟨hbusy, hdone, hfault, hreset, hclear⟩ := h
  rw [← hstatus] at hbusy hdone hfault
  exact ⟨hbusy, hdone, hfault, hreset, hclear⟩

/-- Completion of a command under no fault sets DONE alone (R153). -/
theorem State.Underway.endsDecided_complete {s : State} (h : s.Underway []) : s.complete.EndsDecided :=
  .inr ⟨rfl, .inl ⟨rfl, h.noFault⟩⟩

/-- A fault clears DONE (R340). -/
theorem State.endsDecided_raise (s : State) (name : FaultName) (d : FaultByte) : (s.raise name d).EndsDecided :=
  .inr ⟨rfl, .inr ⟨rfl, rfl⟩⟩

/-- A computation of a body other than the two that reset STATUS leaves the command underway, or faults. -/
theorem Flow.Within.underway {b : Body} {s : State} {f : Flow} (h : f.Within b s) (hreset : b ≠ .softReset)
    (hclear : b ≠ .clearFault) (hs : s.Underway s.run.todo) :
    f.All (fun w t => (t.setAsking w).EndsDecided) (fun t => t.run.todo = s.run.todo ∧ t.Underway s.run.todo)
      (fun n d t => (t.raise n d).EndsDecided) := by
  refine Flow.All.imp h (fun w t ht => ?_) (fun t ht => ?_) (fun n d t _ => t.endsDecided_raise n d)
  · obtain ⟨-, -, hstatus, -, -, htodo⟩ := ht
    have hunder : (t.setAsking w).Underway t.run.todo := htodo ▸ hs.congr hstatus
    exact .inl hunder
  · obtain ⟨hstatus, -, -, htodo⟩ := ht.2 hreset hclear
    exact ⟨htodo, hs.congr hstatus⟩

/-- A body's start takes it off the bodies still to start. -/
theorem State.Underway.enterBody {b : Body} {todo : List Body} {s : State} (h : s.Underway (b :: todo)) :
    (s.enterBody b todo).Underway todo :=
  ⟨h.busy, h.notDone, h.noFault, fun hm => h.noReset (.tail _ hm), fun hm => h.noClear (.tail _ hm)⟩

theorem startBody_underway (b : Body) (todo : List Body) (s : State) (h : s.Underway (b :: todo)) :
    (startBody b (s.enterBody b todo)).All (fun w t => (t.setAsking w).EndsDecided) (State.Underway todo)
      (fun n d t => (t.raise n d).EndsDecided) :=
  have hreset : b ≠ .softReset := fun hb => h.noReset (hb ▸ List.mem_cons_self)
  have hclear : b ≠ .clearFault := fun hb => h.noClear (hb ▸ List.mem_cons_self)
  Flow.All.imp ((startBody_within b _).underway hreset hclear h.enterBody) (fun _ _ h => h) (fun _ h => h.2)
    fun _ _ _ h => h

theorem seqStep_keeps_endsDecided (s : State) (h : s.EndsDecided) : (seqStep s).EndsDecided := by
  refine seqStep_keeps (M := State.Underway) (fun t ht hp => ht.underway (by simp [hp])) (fun t w r e ht hp _ => ?_)
    (fun t r ht hp => ?_) startBody_underway (fun _ ht => ht.endsDecided_complete) s h
  · have hunder : (t.setReply r e).Underway t.run.todo := (ht.underway (by simp [hp])).congr rfl
    exact .inl hunder
  · obtain ⟨hreset, hclear⟩ := replyBody_ne r
    exact Flow.All.imp ((resume_within r t).underway hreset hclear (ht.underway (by simp [hp]))) (fun _ _ h => h)
      (fun _ h => h.1 ▸ h.2) fun _ _ _ h => h

/-- A command none of whose bodies resets STATUS, accepted under no fault, has at every moment of its run not ended, or
ended decided. -/
theorem endsDecided_of_accepted {i : Instr} {s : State} (hready : s.Ready) (hi : KeepsStatus i) (n : Nat) :
    (seqRun n (s.accept (encode i) (commandBodies i))).EndsDecided :=
  seqRun_keeps (fun t ht _ => seqStep_keeps_endsDecided t ht) n (.inl ⟨rfl, rfl, hready.2, hi.1, hi.2⟩)

/-- Only SOFT_RESET and CLEAR_FAULT have a body that resets STATUS. -/
theorem keepsStatus_or (i : Instr) : KeepsStatus i ∨ ∃ sym, i = .softReset sym ∨ i = .clearFault sym := by
  cases i
  case softReset sym => exact .inr ⟨sym, .inl rfl⟩
  case clearFault sym => exact .inr ⟨sym, .inr rfl⟩
  all_goals exact .inl (by simp [KeepsStatus, commandBodies])

/-- A command that has ended was granted a step. -/
theorem one_le_grant_of_ended {i : Instr} {s t : State} (hready : s.Ready) (hexec : exec i s = .next t)
    (hended : t.status.busy = false) : 1 ≤ s.host.grant := by
  refine Nat.one_le_iff_ne_zero.2 fun hzero => ?_
  rw [exec_accepted (State.drops_of_ready hready _), hzero, seqRun_zero] at hexec
  injection hexec with ht
  rw [← ht] at hended
  cases hended

/-- Settles O60: SOFT_RESET and CLEAR_FAULT complete in their one step, and a step of any other command that ends it
completes it or faults. -/
theorem endedCommandIsDoneOrFaulted : Obligations.EndedCommandIsDoneOrFaulted := by
  intro i s t hready hexec hended
  have hgrant := one_le_grant_of_ended hready hexec hended
  rcases keepsStatus_or i with hi | ⟨sym, rfl | rfl⟩
  · rw [exec_accepted (State.drops_of_ready hready _)] at hexec
    injection hexec with ht
    rcases ht ▸ endsDecided_of_accepted hready hi s.host.grant with hunder | ⟨-, hdecided⟩
    · rw [hunder.busy] at hended
      cases hended
    · exact hdecided
  · rw [softResetCompletes sym s hready.1 hgrant] at hexec
    injection hexec with ht
    subst ht
    exact .inl ⟨rfl, rfl⟩
  · rw [clearFaultCompletes sym s hready.1 hgrant] at hexec
    injection hexec with ht
    subst ht
    exact .inl ⟨rfl, rfl⟩

end Sys2Proof.Machine
end
